-- ==== Sys2Proof/Word.lean ====
section
/-! DEFINITION. The plain data types of the codec: bytes, strings, bits and codes (spec 00_scope.md R12 to R14).

The spec has no machine word: every number is an unsigned natural (R13), so codes, widths and counters are `Nat`;
a byte is eight bits (R14), and a bit stream is a list of bits in transmission order (R12). -/

namespace Sys2Proof

/-- R14: an unsigned 8-bit value. -/
abbrev Byte := BitVec 8

/-- R14: a finite sequence of bytes, first byte first. -/
abbrev Str := List Byte

/-- R12: stream bits, stream bit 0 first. -/
abbrev Bits := List Bool

end Sys2Proof
end

