-- ==== Sys2Proof/Config.lean ====
section
/-! DEFINITION. The implementation parameters (spec 00_scope.md R7 to R11) and the free values.

The OPEN parameters of 92_eei_decisions.md (D3, D17, D18) and of 93_implementation_defined.md (I2) are the fields of
`Params`; a state of the machine carries one value of it, which no step changes (log entry 1). -/

namespace Sys2Proof

/-- R51, R52, D3: the order of a value's bits in the stream and of stream bits in a byte. -/
inductive BitOrder where
  | msbFirst
  | lsbFirst
deriving DecidableEq, Repr

/-- I2: what a BitChannel read answers when too few bits are there and the producer is still open.
`block`: wait for more bits or for the end of the stream. `short`: answer `SHORT`. -/
inductive Underrun where
  | block
  | short
deriving DecidableEq, Repr

/-- R7, R8, R11, R51, I2: the parameters of the model. `strCap = none` is the unbounded `STR_CAP`. -/
structure Params where
  wMinDyn  : Nat
  wMaxDyn  : Nat
  wFixed   : Nat
  bitOrder : BitOrder
  strCap   : Option Nat
  underrun : Underrun
deriving DecidableEq, Repr

/-- R7, D3, D18, I2: the normative values and defaults. -/
def Params.normative : Params :=
  { wMinDyn := 9, wMaxDyn := 16, wFixed := 12, bitOrder := .msbFirst, strCap := none, underrun := .block }

/-- R8: what other parameter values must satisfy. -/
abbrev Params.legal (p : Params) : Prop :=
  9 ≤ p.wMinDyn ∧ p.wMinDyn < p.wMaxDyn ∧ 9 ≤ p.wFixed

/-- R25, R26: `WMIN`, `WMAX` and `W` are 5-bit registers, so a width parameter is below 32 (log entry 2). -/
abbrev Params.fitsRegisters (p : Params) : Prop :=
  p.wMaxDyn < 32 ∧ p.wFixed < 32

/-- R9: `(WMIN, WMAX)` of a stream, by its fixed-width flag. -/
def Params.bounds (p : Params) (fixedWidth : Bool) : Nat × Nat :=
  if fixedWidth then (p.wFixed, p.wFixed) else (p.wMinDyn, p.wMaxDyn)

/-- R11: a finite `STR_CAP` is at least `2^WMAX - 255`, for both widths a stream can have. -/
abbrev Params.capLargeEnough (p : Params) : Prop :=
  ∀ c, p.strCap = some c → 2 ^ p.wMaxDyn - 255 ≤ c ∧ 2 ^ p.wFixed - 255 ≤ c

/-- R7: the sentinel code, called `R` by the spec. -/
def sentinelCode : Nat := 256

/-- R7: the first assignable code, and the counter's value after an init or a reset. -/
def firstCode : Nat := 257

/-- R7: the length of the header in bits. -/
def headerBits : Nat := 2

/-- R60, D25, I7: how many bits a short read takes from the channel is not fixed by the spec, and nothing can observe it.
A FREE VALUE: no body, so nothing can be proved about it. It is applied to the counter `State.freeUses` (log entry 12). -/
opaque Config.shortReadTakes : Nat → Nat

/-- R64 says what a `Lookup` of a non-empty string answers, and nothing of the empty string. A FREE VALUE, applied to the
counter `State.freeReplies` (log entry 24). -/
opaque Config.emptyLookup : Nat → Option Nat

/-- R176: ENC_START overwrites every register; R46: what `cur` then holds is undefined until the first byte. A FREE VALUE,
applied to the counter `Encoder.freeCurs` (log entry 4). -/
opaque Config.curAtStart : Nat → Str

/-- R176: the header step overwrites every register that DEC_START did not; R46: what `val` then holds is undefined until the
first codeword. A FREE VALUE, applied to the counter `Decoder.freeVals` (log entry 4). -/
opaque Config.valAtHeader : Nat → Str

end Sys2Proof
end

