-- ==== Sys2Proof/Syntax.lean ====
section
/-! DEFINITION. The instructions: one constructor for each of the 33 rows of spec/opcode_table.json, and the contexts in
which their words are read (spec 30_encoding.md R75 to R92).

A word of this hardware does not say by itself which row it is: the width of a codeword, the phase of the instance and
the interface a word arrives at decide it (R85 to R88, R93). `Ctx` is that knowledge, as plain data. -/

namespace Sys2Proof

/-- R21: the two agents. -/
inductive Agent where
  | encoder
  | decoder
deriving DecidableEq, Repr

/-- R64, R66: what a `Lookup` is asked for: a string on the encoder side, a code on the decoder side. -/
inductive TableKey where
  | str (s : Str)
  | code (c : Nat)
deriving DecidableEq, Repr

/-- R64, R66: the side a key belongs to. -/
def TableKey.agent : TableKey → Agent
  | .str _ => .encoder
  | .code _ => .decoder

/-- The rows of spec/opcode_table.json, in its order. -/
inductive Instr where
  /-- HDR, R76 and R134: the header, `r` = stream bit 0, `f` = stream bit 1. -/
  | hdr (r f : Bool)
  /-- FIRST_LIT, R85 and R136. -/
  | firstLit (v : Nat)
  /-- FIRST_SENT, R85 and R137. -/
  | firstSent
  /-- FIRST_BAD, R85 and R138. -/
  | firstBad (v : Nat)
  /-- SENT, R86 and R140. -/
  | sent
  /-- LIT, R86 and R141. -/
  | lit (v : Nat)
  /-- REF, R86 and R142. -/
  | ref (v : Nat)
  /-- SELF, R86 and R143: its codeword is `n`, the next code to assign. -/
  | selfRef
  /-- BAD, R86 and R144. -/
  | bad (v : Nat)
  /-- SENT@9, R78 and R127: the encoder's sentinel at width 9. -/
  | sentAt9
  /-- SENT@10. -/
  | sentAt10
  /-- SENT@11. -/
  | sentAt11
  /-- SENT@12. -/
  | sentAt12
  /-- SENT@13. -/
  | sentAt13
  /-- SENT@14. -/
  | sentAt14
  /-- SENT@15. -/
  | sentAt15
  /-- SENT@16. -/
  | sentAt16
  /-- PAD, R79 and R128: `k` zero bits, and the output closed. -/
  | pad (k : Nat)
  /-- ENC_START, R80 and R120. -/
  | encStart (r f : Bool)
  /-- ENC_FIRST, R88 and R122: `ENC_BYTE` in phase `EMPTY`. -/
  | encFirst (b : Byte)
  /-- ENC_EXTEND, R88 and R123. -/
  | encExtend (b : Byte)
  /-- ENC_EMIT, R88 and R124. -/
  | encEmit (b : Byte)
  /-- ENC_END_RUN, R88 and R125. -/
  | encEndRun
  /-- ENC_END_EMPTY, R88 and R126. -/
  | encEndEmpty
  /-- DEC_START, R80 and R133. -/
  | decStart
  /-- BR_INSERT, R81 and R100, on the fsm of `a`. -/
  | brInsert (a : Agent)
  /-- BR_GROW, R81 and R101. -/
  | brGrow (a : Agent)
  /-- BR_RESET, R81 and R102. -/
  | brReset (a : Agent)
  /-- BR_FULL, R81 and R103. -/
  | brFull (a : Agent)
  /-- OP_LOOKUP, R82, R64 and R66. -/
  | opLookup (k : TableKey)
  /-- OP_INSERT, R82, R65 and R66: the pair `(s, c)` into the CodeTable of `a`. -/
  | opInsert (a : Agent) (s : Str) (c : Nat)
  /-- OP_REINIT, R82 and R67. -/
  | opReinit (a : Agent)
  /-- OP_RESERVED, R82: never issued, refused. -/
  | opReserved (a : Agent)
deriving DecidableEq, Repr

/-- R88: the three classes of an `ENC_BYTE`. -/
inductive ByteClass where
  | first
  | extend
  | emit
deriving DecidableEq, Repr

/-- R88: the two classes of an `ENC_END`. -/
inductive EndClass where
  | inRun
  | inEmpty
deriving DecidableEq, Repr

/-- What decides how a word is read. -/
inductive Ctx where
  /-- R76: the two header bits. -/
  | header
  /-- R85: a codeword of the decoder's phase `FIRST`, of width `w`. -/
  | first (w : Nat)
  /-- R86: a codeword of the decoder's phase `RUN`; `w` and `n` are those after the pre-adjust. -/
  | run (w n : Nat)
  /-- R78: a sentinel written at width `w`. -/
  | sentinel (w : Nat)
  /-- R79: `k` padding bits. -/
  | padding (k : Nat)
  /-- R80: the operand field of an `ENC_START`. -/
  | encStart
  /-- R80, R88: the operand field of an `ENC_BYTE`, with its class. -/
  | encByte (c : ByteClass)
  /-- R80, R88: an `ENC_END`, with its class. -/
  | encEnd (c : EndClass)
  /-- R80: a `DEC_START`. -/
  | decStart
  /-- R81: the internal growth-branch code `br[1:0]` of an instance. -/
  | br (a : Agent)
  /-- R82: the internal CodeTable code `op[1:0]` of an instance, with the string and the code on the same interface. -/
  | op (a : Agent) (s : Str) (c : Nat)
deriving DecidableEq, Repr

/-- The number of bits a word has in its context (R57, R76 to R82). -/
def Ctx.width : Ctx → Nat
  | .header => headerBits
  | .first w => w
  | .run w _ => w
  | .sentinel w => w
  | .padding k => k
  | .encStart => 2
  | .encByte _ => 8
  | .encEnd _ => 0
  | .decStart => 0
  | .br _ => 2
  | .op _ _ _ => 2

end Sys2Proof
end

