-- ==== Sys2Proof/WellFormed.lean ====
section
/-! DEFINITION. Which instructions are well formed, and which belong to a context.

`Instr.wf` is the check on operands alone; `Instr.fits` says that a context can hold the instruction: its class
condition of R85 to R88 holds and its codeword is expressible in the context's width (R83, R91). -/

namespace Sys2Proof

/-- The operand ranges of the rows (R65, R66, R79, R85, R86, R89). -/
def Instr.wf : Instr → Bool
  | .hdr _ _ => true
  | .firstLit v => v ≤ 255
  | .firstSent => true
  | .firstBad v => 257 ≤ v
  | .sent => true
  | .lit v => v ≤ 255
  | .ref v => 257 ≤ v
  | .selfRef => true
  | .bad v => 258 ≤ v
  | .sentAt9 => true
  | .sentAt10 => true
  | .sentAt11 => true
  | .sentAt12 => true
  | .sentAt13 => true
  | .sentAt14 => true
  | .sentAt15 => true
  | .sentAt16 => true
  | .pad k => k ≤ 7
  | .encStart _ _ => true
  | .encFirst _ => true
  | .encExtend _ => true
  | .encEmit _ => true
  | .encEndRun => true
  | .encEndEmpty => true
  | .decStart => true
  | .brInsert _ => true
  | .brGrow _ => true
  | .brReset _ => true
  | .brFull _ => true
  | .opLookup _ => true
  | .opInsert a s c => (a = .encoder || s ≠ []) && 257 ≤ c
  | .opReinit _ => true
  | .opReserved _ => true

/-- The width a `SENT@w` row names, for the eight rows of R78. -/
def Instr.sentinelWidth : Instr → Option Nat
  | .sentAt9 => some 9
  | .sentAt10 => some 10
  | .sentAt11 => some 11
  | .sentAt12 => some 12
  | .sentAt13 => some 13
  | .sentAt14 => some 14
  | .sentAt15 => some 15
  | .sentAt16 => some 16
  | _ => none

/-- R76 to R88: the context `c` can hold the instruction. -/
def Instr.fits (c : Ctx) (i : Instr) : Bool :=
  i.wf &&
  match c, i with
  | .header, .hdr _ _ => true
  | .first w, .firstLit v => v < 2 ^ w
  | .first w, .firstSent => 256 < 2 ^ w
  | .first w, .firstBad v => v < 2 ^ w
  | .run w _, .sent => 256 < 2 ^ w
  | .run w _, .lit v => v < 2 ^ w
  | .run w n, .ref v => v < n && v < 2 ^ w
  | .run w n, .selfRef => 257 ≤ n && n < 2 ^ w
  | .run w n, .bad v => n < v && v < 2 ^ w
  | .sentinel w, i => i.sentinelWidth = some w
  | .padding k, .pad j => j = k
  | .encStart, .encStart _ _ => true
  | .encByte .first, .encFirst _ => true
  | .encByte .extend, .encExtend _ => true
  | .encByte .emit, .encEmit _ => true
  | .encEnd .inRun, .encEndRun => true
  | .encEnd .inEmpty, .encEndEmpty => true
  | .decStart, .decStart => true
  | .br a, .brInsert a' => a' = a
  | .br a, .brGrow a' => a' = a
  | .br a, .brReset a' => a' = a
  | .br a, .brFull a' => a' = a
  | .op .encoder s _, .opLookup (.str s') => s' = s
  | .op .decoder _ c, .opLookup (.code c') => c' = c
  | .op a s c, .opInsert a' s' c' => a' = a && s' = s && c' = c
  | .op a _ _, .opReinit a' => a' = a
  | .op a _ _, .opReserved a' => a' = a
  | _, _ => false

end Sys2Proof
end

