-- ==== Sys2Proof/Decode.lean ====
section
/-! DEFINITION. Bit order, the decoder, and after it the encoder of instruction words
(spec 20_memory.md R51, R52, R83; 30_encoding.md R75 to R92).

The bit-field and byte-packing helpers stand here too, so that a repair can mend them. -/

namespace Sys2Proof

/-! ## Bits of a value, bits of a byte -/

/-- `zext_n(v)` as bits, `v[n-1]` first (R51 under `MSB_FIRST`). -/
def bitsMsb (v : Nat) : Nat → Bits
  | 0 => []
  | n + 1 => v.testBit n :: bitsMsb v n

/-- The bits of an unsigned number, first bit most significant (R83). -/
def valueMsb (bits : Bits) : Nat :=
  bits.foldl (fun acc b => 2 * acc + b.toNat) 0

/-- R51: the `n` bits of `v` in the order `o`. -/
def valueBits (o : BitOrder) (v n : Nat) : Bits :=
  match o with
  | .msbFirst => bitsMsb v n
  | .lsbFirst => (bitsMsb v n).reverse

/-- R51, R83: the value of bits read in the order `o`. -/
def bitsValue (o : BitOrder) (bits : Bits) : Nat :=
  match o with
  | .msbFirst => valueMsb bits
  | .lsbFirst => valueMsb bits.reverse

/-- R52: the eight stream bits of a byte. -/
def byteBits (o : BitOrder) (b : Byte) : Bits :=
  valueBits o b.toNat 8

/-- R52: the stream bits of a byte string. -/
def unpackBytes (o : BitOrder) (s : Str) : Bits :=
  s.flatMap (byteBits o)

/-- R52: the byte whose eight stream bits these are. -/
def byteOfBits (o : BitOrder) (bits : Bits) : Byte :=
  BitVec.ofNat 8 (bitsValue o bits)

/-- R52, R56: the bytes of a bit stream; a last group of fewer than eight bits is filled with zero bits. -/
def packBytes (o : BitOrder) : Bits → Str
  | [] => []
  | b0 :: b1 :: b2 :: b3 :: b4 :: b5 :: b6 :: b7 :: rest =>
      byteOfBits o [b0, b1, b2, b3, b4, b5, b6, b7] :: packBytes o rest
  | short => [byteOfBits o (short ++ List.replicate (8 - short.length) false)]

/-! ## Decoding -/

/-- Why a word is not an instruction of its context. -/
inductive DecodeError where
  /-- Fewer bits than the context's width. -/
  | tooShort
  /-- R78: the word is not the sentinel pattern, or no row has this width. -/
  | notSentinel
deriving DecidableEq, Repr

/-- R85: the class of the first codeword. -/
def classFirst (v : Nat) : Instr :=
  if v ≤ 255 then .firstLit v else if v = sentinelCode then .firstSent else .firstBad v

/-- R86: the class of a later codeword, `n` being the counter after the pre-adjust. -/
def classRun (n : Nat) (v : Nat) : Instr :=
  if v = sentinelCode then .sent
  else if v ≤ 255 then .lit v
  else if v < n then .ref v
  else if v = n then .selfRef
  else .bad v

/-- R78: the row of the sentinel at width `w`. -/
def sentinelRow (w : Nat) : Option Instr :=
  match w with
  | 9 => some .sentAt9
  | 10 => some .sentAt10
  | 11 => some .sentAt11
  | 12 => some .sentAt12
  | 13 => some .sentAt13
  | 14 => some .sentAt14
  | 15 => some .sentAt15
  | 16 => some .sentAt16
  | _ => none

/-- R81: the row of a growth-branch code. -/
def branchRow (a : Agent) (hi lo : Bool) : Instr :=
  match hi, lo with
  | false, false => .brInsert a
  | false, true => .brGrow a
  | true, false => .brReset a
  | true, true => .brFull a

/-- R64, R66: the key of a lookup on the interface of `a`. -/
def lookupKey (a : Agent) (s : Str) (c : Nat) : TableKey :=
  match a with
  | .encoder => .str s
  | .decoder => .code c

/-- R82: the row of a CodeTable operation code. -/
def tableOpRow (a : Agent) (s : Str) (c : Nat) (hi lo : Bool) : Instr :=
  match hi, lo with
  | false, false => .opLookup (lookupKey a s c)
  | false, true => .opInsert a s c
  | true, false => .opReinit a
  | true, true => .opReserved a

/-- The instruction the `c.width` bits of a word are, in its context. -/
def decodeWord (o : BitOrder) (c : Ctx) (word : Bits) : Except DecodeError Instr :=
  match c with
  | .header => .ok (.hdr (word.getD 0 false) (word.getD 1 false))
  | .first _ => .ok (classFirst (bitsValue o word))
  | .run _ n => .ok (classRun n (bitsValue o word))
  | .sentinel w =>
      match (if bitsValue o word = sentinelCode then sentinelRow w else none) with
      | some i => .ok i
      | none => .error .notSentinel
  | .padding k => .ok (.pad k)
  | .encStart => .ok (.encStart (word.getD 0 false) (word.getD 1 false))
  | .encByte .first => .ok (.encFirst (byteOfBits .msbFirst word))
  | .encByte .extend => .ok (.encExtend (byteOfBits .msbFirst word))
  | .encByte .emit => .ok (.encEmit (byteOfBits .msbFirst word))
  | .encEnd .inRun => .ok .encEndRun
  | .encEnd .inEmpty => .ok .encEndEmpty
  | .decStart => .ok .decStart
  | .br a => .ok (branchRow a (word.getD 0 false) (word.getD 1 false))
  | .op a s k => .ok (tableOpRow a s k (word.getD 0 false) (word.getD 1 false))

/-- The decoder: total on any bits. It takes the context's width from the front and gives the instruction with the rest. -/
def decode (o : BitOrder) (c : Ctx) (bits : Bits) : Except DecodeError (Instr × Bits) :=
  if bits.length < c.width then .error .tooShort
  else
    match decodeWord o c (bits.take c.width) with
    | .ok i => .ok (i, bits.drop c.width)
    | .error e => .error e

/-- The decoder on any bytes of a stream (R52). -/
def decodeBytes (o : BitOrder) (c : Ctx) (bytes : Str) : Except DecodeError (Instr × Bits) :=
  decode o c (unpackBytes o bytes)

/-! ## Encoding -/

/-- The codeword an instruction's word carries, where it carries one (R77, R78, R84 to R86). -/
def Instr.codeword (c : Ctx) : Instr → Nat
  | .firstLit v => v
  | .firstSent => sentinelCode
  | .firstBad v => v
  | .sent => sentinelCode
  | .lit v => v
  | .ref v => v
  | .selfRef => match c with
    | .run _ n => n
    | _ => 0
  | .bad v => v
  | _ => sentinelCode

/-- The word of an instruction in its context (R75 to R88): what the spec's encoding tables write. -/
def encode (o : BitOrder) (c : Ctx) (i : Instr) : Bits :=
  match i with
  | .hdr r f => [r, f]
  | .pad k => List.replicate k false
  | .encStart r f => [r, f]
  | .encFirst b => bitsMsb b.toNat 8
  | .encExtend b => bitsMsb b.toNat 8
  | .encEmit b => bitsMsb b.toNat 8
  | .encEndRun => []
  | .encEndEmpty => []
  | .decStart => []
  | .brInsert _ => [false, false]
  | .brGrow _ => [false, true]
  | .brReset _ => [true, false]
  | .brFull _ => [true, true]
  | .opLookup _ => [false, false]
  | .opInsert _ _ _ => [false, true]
  | .opReinit _ => [true, false]
  | .opReserved _ => [true, true]
  | .firstLit _ | .firstSent | .firstBad _ | .sent | .lit _ | .ref _ | .selfRef | .bad _
  | .sentAt9 | .sentAt10 | .sentAt11 | .sentAt12 | .sentAt13 | .sentAt14 | .sentAt15 | .sentAt16 =>
      valueBits o (i.codeword c) c.width

/-! ## The words of spec/opcode_table.json -/

/-- The context and the bits that a word of the opcode table stands for, when nothing but its bits is given (log entry 16).
The table's rows share words: `br` and `op` codes are the same two bits, and each `SENT@w` is the value 256 in its own
width, so a word alone names a row only up to that. Empty words read as `DEC_START`, a word of one byte as a
growth-branch code or else as an input byte, a longer word as the sentinel of exactly that width or else as a first
codeword of width 9. -/
def tableContext (nbits w : Nat) : Option (Ctx × Bits) :=
  if nbits = 0 then some (.decStart, [])
  else if nbits ≤ 8 then
    if w < 4 then some (.br .encoder, bitsMsb w 2)
    else if w < 256 then some (.encByte .first, bitsMsb w 8) else none
  else if w = sentinelCode then some (.sentinel nbits, bitsMsb w nbits)
  else if w < 512 then some (.first 9, bitsMsb w 9)
  else none

/-- The instruction the decoder reads from a word of the opcode table. -/
def decodeTableWord (nbits w : Nat) : Option Instr :=
  match tableContext nbits w with
  | none => none
  | some (c, bits) =>
    match decode .msbFirst c bits with
    | .ok (i, _) => some i
    | .error _ => none

end Sys2Proof
end

