-- ==== Sys2Proof/Machine/State.lean ====
section
/-! DEFINITION. The state of the machine, as plain data, and its value at power-on (spec 10_state.md, 70_reset_and_hazards.md).

One encoder instance and one decoder instance (R21), each an explicit record of its registers (R22), the parameters, the
inputs the outside world has lined up, and the last answers given to the host. -/

namespace Sys2Proof.Machine

/-- Why the machine stops with a fault. None of them is an exception of the hardware: the hardware's exceptions are
entered, in `Decoder.trap`, and are no stop. Every one is safe: the model stops where the spec gives no effect. -/
inductive Fault where
  /-- A stream is written or closed after its `CloseOut` (R61). Raised by every write to an output. Safe. -/
  | writeAfterClose
  /-- `WriteBits(v, n)` outside its requirement `v < 2^n`, `n ≥ 1` (R59). Raised by `Encoder.writeBits`. Safe. -/
  | valueTooWide
  /-- `Insert` outside its requirement (R65, R66, R31). Raised by `insertEntry`. Safe. -/
  | insertConflict
  /-- A lookup whose answer the spec says is always there gave none (R113, R124, R142). Raised by the users of a lookup. Safe. -/
  | absentEntry
deriving DecidableEq, Repr

/-- Why the model has no step. Every one is safe: nothing happens where the spec says nothing happens. -/
inductive Refusal where
  /-- An instruction that has no meaning yet. Raised only by an arm of `exec`. -/
  | notModelled (mnemonic : String)
  /-- A host transaction in a phase where it is refused (R92, R130, R149, R171). Raised by the meanings of the transactions;
  a step turns such a transaction away and goes on. -/
  | transaction
  /-- The class condition of the instruction's row does not hold in this state (R81, R85 to R88, R101, R102, R127, R128), so
  this instruction is not what the machine would run here. Raised by the meanings; no decoded word meets it. -/
  | notThisClass
  /-- The reserved CodeTable operation `op = 11` (R82, I12). Raised by `execOpReserved`. -/
  | reservedTableOp
  /-- The bits of a request are not a word of its interface. Raised by `requestFetch`. -/
  | notAWord
deriving DecidableEq, Repr

/-- The outcome of one operation, with the machine's own reasons. -/
abbrev Out (α : Type) := Host.Outcome α Fault Refusal

/-! ## Registers -/

/-- R45, R46: a register holds a value, and the machine knows whether anything has written it since power-on. Until then the
value is the one of `Reg.powerOn` (log entry 3). -/
structure Reg (α : Type) where
  value   : α
  written : Bool
deriving DecidableEq, Repr

/-- R81: the four arms of the growth branch. -/
inductive Branch where
  | insert
  | grow
  | reset
  | full
deriving DecidableEq, Repr

/-- R23 to R27: the registers of `adaptive_codewidth_fsm`. -/
structure Fsm where
  allow : Bool
  fixed : Bool
  wMin  : Nat
  wMax  : Nat
  w     : Nat
  l     : Nat
deriving DecidableEq, Repr

/-- R30, R31: a CodeTable, as the list of the entries from code 257 up, codes strictly rising. The base entries 0 to 255 are
in every table and are not listed; code 256 never is (log entry 15). -/
abbrev CodeTable := List (Nat × Str)

/-- R23 to R32, R116: the values of an instance's fsm and sync, the state the two ends keep in step. -/
structure Sync where
  fsm   : Fsm
  n     : Nat
  table : CodeTable
deriving DecidableEq, Repr

/-- R23 to R31: the registers of one instance's fsm and sync. `readUnwritten` is the model's own: one of them has been read
although nothing had written it, which R45 and I6 call a fault of the model (log entry 3). -/
structure SyncRegs where
  fsm   : Reg Fsm
  n     : Reg Nat
  table : Reg CodeTable
  readUnwritten : Bool
deriving DecidableEq, Repr

/-- R33. -/
inductive EncPhase where
  | idle
  | empty
  | run
  | done
deriving DecidableEq, Repr

/-- R35. -/
inductive DecPhase where
  | idle
  | hdr
  | first
  | run
  | done
  | error
deriving DecidableEq, Repr

/-- R37, R153. -/
inductive DecErr where
  | none
  | truncHeader
  | truncCodeword
  | badCode
  | capacity
deriving DecidableEq, Repr

/-! ## The ends of the BitChannels -/

/-- R50: an output bit stream, every bit written so far, and whether `CloseOut` has closed it. -/
structure BitOut where
  bits   : Bits
  closed : Bool
deriving DecidableEq, Repr

/-- R50: an output byte stream. -/
structure ByteOut where
  bytes  : Str
  closed : Bool
deriving DecidableEq, Repr

/-- R50, I2: an input bit stream: the delivered bits no read has consumed, and whether the producer has closed it. -/
structure BitIn where
  bits  : Bits
  ended : Bool
deriving DecidableEq, Repr

/-- A freshly connected bit output (R176). -/
def BitOut.fresh : BitOut := { bits := [], closed := false }

/-- A freshly connected byte output. -/
def ByteOut.fresh : ByteOut := { bytes := [], closed := false }

/-- A freshly connected input, with nothing delivered yet. -/
def BitIn.fresh : BitIn := { bits := [], ended := false }

/-! ## The instances -/

/-- R33, R34, R41, R42: the encoder instance. `held`: a collaborator does not answer (R72). `freeCurs` is the model's own, the
counter that the free value of `cur` is applied to (log entry 4). -/
structure Encoder where
  phase : EncPhase
  sync  : SyncRegs
  cur   : Reg Str
  nbits : Reg Nat
  out   : BitOut
  held  : Bool
  freeCurs : Nat
deriving DecidableEq, Repr

/-- R35 to R37, R41, R42: the decoder instance. `midStep = some br`: a `RUN` step has emitted `val` and run `PRE(br)`, and its
codeword is not resolved yet (R139, R145, R187). `nextInp` is the input the host has connected for the next stream.
`freeVals` is the model's own, the counter that the free value of `val` is applied to (log entry 4). -/
structure Decoder where
  phase   : DecPhase
  err     : DecErr
  sync    : SyncRegs
  val     : Reg Str
  pos     : Reg Nat
  midStep : Option Branch
  inp     : BitIn
  nextInp : BitIn
  out     : ByteOut
  held    : Bool
  freeVals : Nat
deriving DecidableEq, Repr

/-! ## What the outside world has lined up -/

/-- R80 to R82: the interface a word arrives at. The first four are the host transactions; the others are the interfaces
inside the core, which no host reaches and the machine itself uses only inside its own steps (log entry 5). -/
inductive Port where
  | encStart
  | encByte
  | encEnd
  | decStart
  | sentinel (w : Nat)
  | padding (k : Nat)
  | br (a : Agent)
  | op (a : Agent) (s : Str) (c : Nat)
deriving DecidableEq, Repr

/-- R176: the stream a delivery is for: the one the decoder has open, or the one it will open next. -/
inductive Slot where
  | current
  | next
deriving DecidableEq, Repr

/-- One input from outside, in the order the outside world gives them (log entries 9 and 10). -/
inductive Event where
  /-- A word arrives at an interface. -/
  | request (p : Port) (bits : Bits)
  /-- The decoder gets a turn. -/
  | decStep
  /-- The producer delivers bytes to a decoder input. -/
  | deliver (t : Slot) (bytes : Str)
  /-- The producer closes a decoder input. -/
  | finish (t : Slot)
  /-- A collaborator of the instance stops answering, or answers again (R72). -/
  | hold (a : Agent) (on : Bool)
deriving DecidableEq, Repr

/-- R171: what the host was told about its last transaction. -/
inductive Response where
  | none
  | accepted
  | refused
deriving DecidableEq, Repr

/-- R64, R66: what a `Lookup` answered. -/
inductive TableReply where
  | code (c : Option Nat)
  | string (s : Option Str)
deriving DecidableEq, Repr

/-- The whole state. `response`, `reply`, `freeUses` and `freeReplies` are the model's own: the answers on the interfaces, and
the counters that the two free values are applied to, one of each instance. -/
structure State where
  params   : Params
  enc      : Encoder
  dec      : Decoder
  agenda   : List Event
  response : Response
  reply    : Option TableReply
  freeUses : Nat
  freeReplies : Nat
deriving DecidableEq, Repr

/-! ## Power-on -/

/-- R45: a register at power-on. The value it holds is the model's choice (log entry 3). -/
def Reg.powerOn {α : Type} (v : α) : Reg α := { value := v, written := false }

/-- R172, R46: fsm and sync at power-on. -/
def SyncRegs.powerOn : SyncRegs :=
  { fsm := .powerOn { allow := false, fixed := false, wMin := 0, wMax := 0, w := 0, l := 0 }
    n := .powerOn 0
    table := .powerOn []
    readUnwritten := false }

/-- R172: the encoder at power-on. -/
def Encoder.powerOn : Encoder :=
  { phase := .idle, sync := .powerOn, cur := .powerOn [], nbits := .powerOn 0, out := .fresh, held := false
    freeCurs := 0 }

/-- R172: the decoder at power-on. -/
def Decoder.powerOn : Decoder :=
  { phase := .idle, err := .none, sync := .powerOn, val := .powerOn [], pos := .powerOn 0, midStep := none
    inp := .fresh, nextInp := .fresh, out := .fresh, held := false, freeVals := 0 }

/-- R172: the machine at power-on, with the normative parameters (R7) and nothing lined up. -/
def State.reset : State :=
  { params := .normative, enc := .powerOn, dec := .powerOn, agenda := [], response := .none, reply := none, freeUses := 0
    freeReplies := 0 }

end Sys2Proof.Machine
end

