-- ==== Sys2Proof/Machine/Ops.lean ====
section
/-! DEFINITION. The operations the instructions share: registers, the CodeTable, the growth event, the streams, and the
decoder's trap entry (spec 20_memory.md R56 to R67, 41_codewidth_fsm.md, 42_dictionary_sync.md, 60_exceptions.md R155). -/

namespace Sys2Proof.Machine

/-! ## Sequencing -/

/-- R17: the second operation runs on the result of the first, and a stop ends the whole. -/
def andThen {α β : Type} (x : Out α) (f : α → Out β) : Out β :=
  match x with
  | .next a => f a
  | .fault r => .fault r
  | .refused r => .refused r

/-! ## Registers -/

/-- A register just written. -/
def Reg.write {α : Type} (v : α) : Reg α := { value := v, written := true }

/-- The values that the registers of fsm and sync hold. -/
def SyncRegs.values (r : SyncRegs) : Sync := { fsm := r.fsm.value, n := r.n.value, table := r.table.value }

/-- All registers of fsm and sync written. -/
def SyncRegs.put (y : Sync) : SyncRegs :=
  { fsm := .write y.fsm, n := .write y.n, table := .write y.table, readUnwritten := false }

/-- R45, I6: a read of registers of which `written` says whether all are written. The read answers what they hold; where one is
unwritten that is a fault of the model, which stays on record until a START or a header writes them all (log entry 3). -/
def SyncRegs.noteRead (written : Bool) (r : SyncRegs) : SyncRegs :=
  { r with readUnwritten := r.readUnwritten || !written }

/-! ## The CodeTable (R64 to R67) -/

/-- The entry at a code from 257 up. -/
def entryAt (t : CodeTable) (c : Nat) : Option Str :=
  (t.find? fun e => e.1 == c).map (·.2)

/-- The code of an entry from 257 up. -/
def entryOf (t : CodeTable) (s : Str) : Option Nat :=
  (t.find? fun e => e.2 == s).map (·.1)

/-- R64: exact-string lookup on the encoder side; a one-byte string is a base entry (R84). -/
def lookupStr (t : CodeTable) (s : Str) : Option Nat :=
  match s with
  | [b] => some b.toNat
  | _ => entryOf t s

/-- R66: lookup on the decoder side; codes 0 to 255 are the base entries (R84). -/
def lookupCode (t : CodeTable) (c : Nat) : Option Str :=
  if c ≤ 255 then some [BitVec.ofNat 8 c] else entryAt t c

/-- The table with one more entry, in its place. -/
def placeEntry (c : Nat) (s : Str) : CodeTable → CodeTable
  | [] => [(c, s)]
  | e :: t => if c < e.1 then (c, s) :: e :: t else e :: placeEntry c s t

/-- R65, R66: what `Insert` requires on the side `a`. On both sides the code is free, base codes being taken and 256 never an
entry's (R30, R31, R89; log entry 22). On the encoder side the string is no key yet; on the decoder side it is non-empty. -/
def insertAllowed (a : Agent) (s : Str) (c : Nat) (t : CodeTable) : Bool :=
  firstCode ≤ c && entryAt t c = none &&
  match a with
  | .encoder => lookupStr t s = none
  | .decoder => s ≠ []

/-- R65, R66: `Insert`. -/
def insertEntry (a : Agent) (s : Str) (c : Nat) (t : CodeTable) : Out CodeTable :=
  if insertAllowed a s c t then .next (placeEntry c s t) else .fault .insertConflict

/-- R67: the base dictionary. -/
def baseTable : CodeTable := []

/-- The canonical form of a CodeTable: codes from 257 up, strictly rising. -/
def CodeTable.wf (t : CodeTable) : Bool :=
  t.Pairwise (fun a b => a.1 < b.1) && t.all (fun e => firstCode ≤ e.1)

/-- R47: the code space of the stream whose `WMAX` this is. Where no stream has written `WMAX`, no code space bounds a code
(log entry 22). -/
def inCodeSpace (f : Reg Fsm) (c : Nat) : Bool := !f.written || c < 2 ^ f.value.wMax

/-! ## adaptive_codewidth_fsm (R96 to R103) -/

/-- R96: FSM_INIT. -/
def fsmInit (p : Params) (allow fixed : Bool) : Fsm :=
  let b := p.bounds fixed
  { allow := allow, fixed := fixed, wMin := b.1, wMax := b.2, w := b.1, l := 2 ^ b.1 }

/-- R97: FSM_CLASSIFY. -/
def fsmClassify (f : Fsm) (n : Nat) : Branch :=
  if n < f.l then .insert
  else if f.w < f.wMax then .grow
  else if f.allow then .reset
  else .full

/-- R98: FSM_WIDTH. -/
def fsmWidth (f : Fsm) : Nat := f.w

/-- R99: FSM_NEXT_WIDTH, the anticipated width. -/
def fsmNextWidth (f : Fsm) (n : Nat) : Nat :=
  if f.fixed then f.w
  else match fsmClassify f n with
    | .insert => f.w
    | .grow => f.w + 1
    | .reset => f.wMin
    | .full => f.w

/-- R100 to R103: FSM_APPLY. -/
def fsmApply (br : Branch) (f : Fsm) : Fsm :=
  match br with
  | .insert => f
  | .grow => { f with w := f.w + 1, l := 2 * f.l }
  | .reset => { f with w := f.wMin, l := 2 ^ f.wMin }
  | .full => f

/-! ## dictionary_state_sync (R109 to R114) -/

/-- R96, R109: the state after FSM_INIT and SYNC_INIT. -/
def Sync.init (p : Params) (allow fixed : Bool) : Sync :=
  { fsm := fsmInit p allow fixed, n := firstCode, table := baseTable }

/-- R97: the arm of the growth event to come. -/
def Sync.branch (y : Sync) : Branch := fsmClassify y.fsm y.n

/-- R110: PRE. -/
def Sync.pre (br : Branch) (y : Sync) : Sync :=
  match br with
  | .reset => { fsm := fsmApply .reset y.fsm, n := firstCode, table := baseTable }
  | br => { y with fsm := fsmApply br y.fsm }

/-- R111: ADD. -/
def Sync.add (a : Agent) (br : Branch) (entry : Str) (y : Sync) : Out Sync :=
  match br with
  | .full => .next y
  | _ => andThen (insertEntry a entry y.n y.table) fun t => .next { y with n := y.n + 1, table := t }

/-- R112: SYNC_GROW, the whole growth event of the encoder. -/
def Sync.grow (entry : Str) (y : Sync) : Out Sync :=
  (y.pre y.branch).add .encoder y.branch entry

/-! ## The encoder's output (R56, R59, R61) -/

/-- R59: `WriteBits(v, n)`. -/
def Encoder.writeBits (o : BitOrder) (v n : Nat) (e : Encoder) : Out Encoder :=
  if e.out.closed then .fault .writeAfterClose
  else if n = 0 ∨ 2 ^ n ≤ v then .fault .valueTooWide
  else .next { e with out := { e.out with bits := e.out.bits ++ valueBits o v n }, nbits := .write (e.nbits.value + n) }

/-- R56, R79: the number of padding bits after `N` stream bits. -/
def padLength (N : Nat) : Nat := (8 - N % 8) % 8

/-- R61, R128: `CloseOut()` of the bit stream, with its zero padding. -/
def Encoder.closeOut (e : Encoder) : Out Encoder :=
  if e.out.closed then .fault .writeAfterClose
  else .next { e with out := { bits := e.out.bits ++ List.replicate (padLength e.nbits.value) false, closed := true } }

/-- R127: SENTINEL_WRITE, at the anticipated width. -/
def Encoder.sentinelWrite (o : BitOrder) (e : Encoder) : Out Encoder :=
  e.writeBits o sentinelCode (fsmNextWidth e.sync.values.fsm e.sync.values.n)

/-- R113, R124: the code of `cur`, which the spec says is always there. -/
def codeOfCur (y : Sync) (cur : Str) : Out Nat :=
  match lookupStr y.table cur with
  | some c => .next c
  | none => .fault .absentEntry

/-! ## The decoder's channels (R60 to R62) -/

/-- R60, I2: the answers of `ReadBits(n)`. -/
inductive ReadAnswer where
  | bits (word rest : Bits)
  | short
  | blocked
deriving DecidableEq, Repr

/-- R60, R72, I2: `ReadBits(n)` on an input end. -/
def BitIn.read (u : Underrun) (n : Nat) (i : BitIn) : ReadAnswer :=
  if n ≤ i.bits.length then .bits (i.bits.take n) (i.bits.drop n)
  else if i.ended then .short
  else match u with
    | .short => .short
    | .block => .blocked

/-- R62: `EmitString(s)`. -/
def Decoder.emit (s : Str) (d : Decoder) : Out Decoder :=
  if d.out.closed then .fault .writeAfterClose
  else .next { d with out := { d.out with bytes := d.out.bytes ++ s } }

/-- R61: `CloseOut()` of the byte stream. -/
def Decoder.closeOut (d : Decoder) : Out Decoder :=
  if d.out.closed then .fault .writeAfterClose
  else .next { d with out := { d.out with closed := true } }

/-! ## Taking an exception, and leaving it -/

/-- R155: `FAULT(e)`, the trap entry: the cause, the phase, the output closed, and the step over. Nothing else changes. -/
def Decoder.trap (e : DecErr) (d : Decoder) : Decoder :=
  { d with err := e, phase := .error, midStep := none, out := { d.out with closed := true } }

/-- R133, R157, R174, R176: what leaves `ERROR`, and the only way to: a new stream. There is no trap return. The input is the
one the host has connected for it, the output is a fresh one (log entry 13), and every register that only the header or the
first codeword writes is as it was until the header: unwritten, or stale from an earlier stream. -/
def Decoder.start (d : Decoder) : Decoder :=
  { d with
    err := .none, pos := .write 0, phase := .hdr
    midStep := none
    inp := d.nextInp, nextInp := .fresh, out := .fresh }

/-! ## Reaching an instance -/

/-- An operation of the encoder, as one of the machine. -/
def onEncoder (s : State) (x : Out Encoder) : Out State :=
  andThen x fun e => .next { s with enc := e }

/-- An operation of the decoder, as one of the machine. -/
def onDecoder (s : State) (x : Out Decoder) : Out State :=
  andThen x fun d => .next { s with dec := d }

/-- The fsm and sync registers of an instance. -/
def State.syncOf (s : State) (a : Agent) : SyncRegs :=
  match a with
  | .encoder => s.enc.sync
  | .decoder => s.dec.sync

/-- The machine with new fsm and sync registers in one instance. -/
def State.withSync (s : State) (a : Agent) (r : SyncRegs) : State :=
  match a with
  | .encoder => { s with enc := { s.enc with sync := r } }
  | .decoder => { s with dec := { s.dec with sync := r } }

end Sys2Proof.Machine
end

