-- ==== Sys2Proof/Machine/Flags.lean ====
section
/-! DEFINITION. Status and encodings (spec 10_state.md R33, R35, R37, R39, R40; 30_encoding.md R81, R82).

The hardware has no condition codes and no operation computes a flag (R40): the only stored flags are `fsm.allow` and
`fsm.fixed`, and the host's status outputs are computed from the phases. -/

namespace Sys2Proof.Machine

/-- R33. -/
def EncPhase.code : EncPhase → BitVec 2
  | .idle => 0#2
  | .empty => 1#2
  | .run => 2#2
  | .done => 3#2

/-- R35. -/
def DecPhase.code : DecPhase → BitVec 3
  | .idle => 0#3
  | .hdr => 1#3
  | .first => 2#3
  | .run => 3#3
  | .done => 4#3
  | .error => 5#3

/-- R37, R153. -/
def DecErr.code : DecErr → BitVec 3
  | .none => 0#3
  | .truncHeader => 1#3
  | .truncCodeword => 2#3
  | .badCode => 3#3
  | .capacity => 4#3

/-- R81. -/
def Branch.code : Branch → BitVec 2
  | .insert => 0#2
  | .grow => 1#2
  | .reset => 2#2
  | .full => 3#2

/-- R39: `enc.busy`. -/
def Encoder.busy (e : Encoder) : Bool := e.phase = .empty || e.phase = .run

/-- R39: `enc.done`. -/
def Encoder.isDone (e : Encoder) : Bool := e.phase = .done

/-- R39: `dec.busy`. -/
def Decoder.busy (d : Decoder) : Bool := d.phase = .hdr || d.phase = .first || d.phase = .run

/-- R39: `dec.done`. -/
def Decoder.isDone (d : Decoder) : Bool := d.phase = .done

/-- R39, R167: what the host reads. -/
structure Status where
  encBusy : Bool
  encDone : Bool
  decBusy : Bool
  decDone : Bool
  decErr  : BitVec 3
deriving DecidableEq, Repr

/-- R39: the status outputs; nothing else is visible to the host. -/
def State.status (s : State) : Status :=
  { encBusy := s.enc.busy, encDone := s.enc.isDone
    decBusy := s.dec.busy, decDone := s.dec.isDone, decErr := s.dec.err.code }

end Sys2Proof.Machine
end

