-- ==== Sys2Proof/Machine/Operands.lean ====
section
/-! DEFINITION. How the operands of an instruction are found: the context a word is read in, and the class of a host
transaction (spec 30_encoding.md R76 to R88). -/

namespace Sys2Proof.Machine

/-- R88: the class of `ENC_BYTE(b)`, or the refusal of it (R130). -/
def byteClass (b : Byte) (e : Encoder) : Out ByteClass :=
  match e.phase with
  | .empty => .next .first
  | .run =>
      match lookupStr e.sync.values.table (e.cur.value ++ [b]) with
      | some _ => .next .extend
      | none => .next .emit
  | .idle | .done => .refused .transaction

/-- R88: the class of `ENC_END`, or the refusal of it (R130). -/
def endClass (e : Encoder) : Out EndClass :=
  match e.phase with
  | .empty => .next .inEmpty
  | .run => .next .inRun
  | .idle | .done => .refused .transaction

/-- The context in which the word of a request is read. -/
def requestContext (p : Port) (bits : Bits) (s : State) : Out Ctx :=
  match p with
  | .encStart => .next .encStart
  | .encByte => andThen (byteClass (byteOfBits .msbFirst bits) s.enc) fun c => .next (.encByte c)
  | .encEnd => andThen (endClass s.enc) fun c => .next (.encEnd c)
  | .decStart => .next .decStart
  | .sentinel w => .next (.sentinel w)
  | .padding k => .next (.padding k)
  | .br a => .next (.br a)
  | .op a str c => .next (.op a str c)

/-- The number of bits a word of an interface has (R57, R80 to R82). -/
def Port.width : Port → Nat
  | .encStart => 2
  | .encByte => 8
  | .encEnd => 0
  | .decStart => 0
  | .sentinel w => w
  | .padding k => k
  | .br _ => 2
  | .op _ _ _ => 2

/-- The instance an interface belongs to. -/
def Port.agent : Port → Agent
  | .encStart => .encoder
  | .encByte => .encoder
  | .encEnd => .encoder
  | .decStart => .decoder
  | .sentinel _ => .encoder
  | .padding _ => .encoder
  | .br a => a
  | .op a _ _ => a

/-- The instruction of a request: its word, decoded in its context. -/
def requestFetch (p : Port) (bits : Bits) (s : State) : Out Instr :=
  if bits.length ≠ p.width then .refused .notAWord
  else
    andThen (requestContext p bits s) fun c =>
    match decode s.params.bitOrder c bits with
    | .ok (i, _) => .next i
    | .error _ => .refused .notAWord

/-- The decoder's step reads a word of `n` bits in the context `c`: the instruction with the state after the read, or no
instruction, the state being the one that waits (R72) or the one that has taken the exception `e` (R134, R135, R139).
A short read leaves `pos` alone (R60); how many bits it takes from the channel is the free value. -/
def readToken (n : Nat) (c : Ctx) (e : DecErr) (s : State) : Out (Option Instr × State) :=
  match s.dec.inp.read s.params.underrun n with
  | .blocked => .next (none, s)
  | .short =>
      .next (none,
        { s with
          dec := { s.dec with inp := { s.dec.inp with bits := s.dec.inp.bits.drop (Config.shortReadTakes s.freeUses) } }.trap e
          freeUses := s.freeUses + 1 })
  | .bits word rest =>
      match decode s.params.bitOrder c word with
      | .ok (i, _) =>
          .next (some i, { s with dec := { s.dec with
            inp := { s.dec.inp with bits := rest }, pos := .write (s.dec.pos.value + n) } })
      | .error _ => .refused .notAWord

end Sys2Proof.Machine
end

