-- ==== Sys2Proof/Machine/Decoder.lean ====
section
/-! DEFINITION. The decoder: DEC_START, the header, the codeword classes of the phases FIRST and RUN, and the part of a step
before its codeword is read (spec 44_decoder.md). The codeword has been read when a class's meaning runs. -/

namespace Sys2Proof.Machine

/-! ## The parts of a step -/

/-- R139: the beginning of a `RUN` step: emit `val`, classify, PRE. A step that has begun and waits for its codeword does not
begin again (R72, R187). -/
def Decoder.begin (d : Decoder) : Out Decoder :=
  match d.midStep with
  | some _ => .next d
  | none =>
      let y := d.sync.values
      andThen (d.emit d.val.value) fun d1 =>
      .next { d1 with sync := .put (y.pre y.branch), midStep := some y.branch }

/-- R146: CAPACITY_CHECK fails. -/
def overCapacity (cap : Option Nat) (br : Branch) (val s : Str) : Bool :=
  match cap with
  | none => false
  | some c => c < s.length || (br ≠ .full && c < val.length + 1)

/-- R145: DEC_TAIL(s), the end of a `RUN` step whose codeword is the string `s`. -/
def Decoder.tail (cap : Option Nat) (br : Branch) (s : Str) (d : Decoder) : Out Decoder :=
  if overCapacity cap br d.val.value s then .next (d.trap .capacity)
  else
    match s with
    | [] => .fault .absentEntry
    | b :: _ =>
        andThen (d.sync.values.add .decoder br (d.val.value ++ [b])) fun y1 =>
        .next { d with sync := .put y1, val := .write s, midStep := none }

/-- R141, R142: a codeword resolved by the table. -/
def Decoder.resolve (cap : Option Nat) (br : Branch) (v : Nat) (d : Decoder) : Out Decoder :=
  match lookupCode d.sync.values.table v with
  | some s => d.tail cap br s
  | none => .fault .absentEntry

/-- The branch of the `RUN` step in progress; outside one, no class of R86 applies. -/
def Decoder.inStep (d : Decoder) : Out Branch :=
  match d.phase, d.midStep with
  | .run, some br => .next br
  | _, _ => .refused .notThisClass

/-- R140, R137: the normal end of a stream. -/
def Decoder.finish (d : Decoder) : Out Decoder :=
  andThen d.closeOut fun d1 => .next { d1 with phase := .done, midStep := none }

/-- R134, R176: the effect of the header on the instance. It writes every register that DEC_START did not, `val` with a free
value, since R46 calls it undefined until the first codeword (log entry 4). -/
def Decoder.headed (p : Params) (r f : Bool) (d : Decoder) : Decoder :=
  { d with
    sync := .put (Sync.init p r f), phase := .first
    val := .write (Config.valAtHeader d.freeVals), freeVals := d.freeVals + 1 }

/-! ## The meanings -/

/-- R133, R149: DEC_START. -/
def execDecStart (s : State) : Out State :=
  match s.dec.phase with
  | .idle | .done | .error => .next { s with dec := s.dec.start }
  | .hdr | .first | .run => .refused .transaction

/-- R134: HDR. -/
def execHdr (r f : Bool) (s : State) : Out State :=
  match s.dec.phase with
  | .hdr => .next { s with dec := s.dec.headed s.params r f }
  | _ => .refused .notThisClass

/-- R136: FIRST_LIT. -/
def execFirstLit (v : Nat) (s : State) : Out State :=
  match s.dec.phase with
  | .first =>
      if v ≤ 255 then .next { s with dec := { s.dec with val := .write [BitVec.ofNat 8 v], phase := .run } }
      else .refused .notThisClass
  | _ => .refused .notThisClass

/-- R137: FIRST_SENT. -/
def execFirstSent (s : State) : Out State :=
  match s.dec.phase with
  | .first => onDecoder s s.dec.finish
  | _ => .refused .notThisClass

/-- R138: FIRST_BAD. -/
def execFirstBad (v : Nat) (s : State) : Out State :=
  match s.dec.phase with
  | .first => if firstCode ≤ v then .next { s with dec := s.dec.trap .badCode } else .refused .notThisClass
  | _ => .refused .notThisClass

/-- R140: SENT. -/
def execSent (s : State) : Out State :=
  andThen s.dec.inStep fun _ => onDecoder s s.dec.finish

/-- R141: LIT. -/
def execLit (v : Nat) (s : State) : Out State :=
  andThen s.dec.inStep fun br =>
  if v ≤ 255 then onDecoder s (s.dec.resolve s.params.strCap br v) else .refused .notThisClass

/-- R142: REF. -/
def execRef (v : Nat) (s : State) : Out State :=
  andThen s.dec.inStep fun br =>
  if firstCode ≤ v ∧ v < s.dec.sync.values.n then onDecoder s (s.dec.resolve s.params.strCap br v)
  else .refused .notThisClass

/-- R143: SELF. It cannot be the class of a codeword when the branch is FULL (R87). -/
def execSelfRef (s : State) : Out State :=
  andThen s.dec.inStep fun br =>
  if br = .full then .refused .notThisClass
  else
    match s.dec.val.value with
    | [] => .fault .absentEntry
    | b :: _ => onDecoder s (s.dec.tail s.params.strCap br (s.dec.val.value ++ [b]))

/-- R144: BAD. -/
def execBad (v : Nat) (s : State) : Out State :=
  andThen s.dec.inStep fun _ =>
  if s.dec.sync.values.n < v then .next { s with dec := s.dec.trap .badCode } else .refused .notThisClass

/-! ## Fetching a word (R134, R135, R139) -/

/-- One autonomous step of the decoder up to its instruction: the read of the phase, after the beginning of a `RUN` step. In a
phase without a step (R149) there is no instruction and nothing changes. -/
def decoderFetch (s : State) : Out (Option Instr × State) :=
  match s.dec.phase with
  | .hdr => readToken headerBits .header .truncHeader s
  | .first =>
      let w := fsmWidth s.dec.sync.values.fsm
      readToken w (.first w) .truncCodeword s
  | .run =>
      andThen s.dec.begin fun d =>
      let w := fsmWidth d.sync.values.fsm
      readToken w (.run w d.sync.values.n) .truncCodeword { s with dec := d }
  | .idle | .done | .error => .next (none, s)

end Sys2Proof.Machine
end

