-- ==== Sys2Proof/Machine/Encoder.lean ====
section
/-! DEFINITION. The encoder: ENC_START, ENC_FIRST, ENC_EXTEND, ENC_EMIT, ENC_END_RUN, ENC_END_EMPTY, the eight SENT@w rows
and PAD (spec 43_encoder.md). Each transaction is one step (R187). -/

namespace Sys2Proof.Machine

/-- R120, R176: the effect of ENC_START on the instance. Every register is overwritten, `cur` with a free value, since R46 calls
it undefined until the first byte (log entry 4). The output is a fresh stream (log entry 13). -/
def Encoder.start (p : Params) (r f : Bool) (e : Encoder) : Out Encoder :=
  let y := Sync.init p r f
  let opened : Encoder :=
    { e with
      sync := .put y, nbits := .write 0, out := .fresh
      cur := .write (Config.curAtStart e.freeCurs), freeCurs := e.freeCurs + 1 }
  andThen (opened.writeBits p.bitOrder y.fsm.allow.toNat 1) fun e1 =>
  andThen (e1.writeBits p.bitOrder (if y.fsm.wMin = y.fsm.wMax then 1 else 0) 1) fun e2 =>
  .next { e2 with phase := .empty }

/-- R124: the effect of ENC_EMIT on the instance: the codeword of `cur` at the width before the growth, then the growth. -/
def Encoder.emit (o : BitOrder) (b : Byte) (e : Encoder) : Out Encoder :=
  andThen (codeOfCur e.sync.values e.cur.value) fun cw =>
  andThen (e.writeBits o cw (fsmWidth e.sync.values.fsm)) fun e1 =>
  andThen (e.sync.values.grow (e.cur.value ++ [b])) fun y1 =>
  .next { e1 with sync := .put y1, cur := .write [b] }

/-- R125: the effect of ENC_END_RUN on the instance. -/
def Encoder.endRun (o : BitOrder) (e : Encoder) : Out Encoder :=
  andThen (codeOfCur e.sync.values e.cur.value) fun cw =>
  andThen (e.writeBits o cw (fsmWidth e.sync.values.fsm)) fun e1 =>
  andThen (e1.sentinelWrite o) fun e2 =>
  andThen e2.closeOut fun e3 =>
  .next { e3 with phase := .done }

/-- R126: the effect of ENC_END_EMPTY on the instance. -/
def Encoder.endEmpty (o : BitOrder) (e : Encoder) : Out Encoder :=
  andThen (e.sentinelWrite o) fun e1 =>
  andThen e1.closeOut fun e2 =>
  .next { e2 with phase := .done }

/-- R127, R78: SENTINEL_WRITE at width `w`, where a stream is open and `w` is the anticipated width. -/
def Encoder.sentinelAt (o : BitOrder) (w : Nat) (e : Encoder) : Out Encoder :=
  if e.busy then
    if fsmNextWidth e.sync.values.fsm e.sync.values.n = w then e.sentinelWrite o else .refused .notThisClass
  else .refused .notThisClass

/-! ## The meanings -/

/-- R120, R130: ENC_START. -/
def execEncStart (r f : Bool) (s : State) : Out State :=
  match s.enc.phase with
  | .idle | .done => onEncoder s (s.enc.start s.params r f)
  | .empty | .run => .refused .transaction

/-- R122, R130: ENC_FIRST. -/
def execEncFirst (b : Byte) (s : State) : Out State :=
  match s.enc.phase with
  | .empty => .next { s with enc := { s.enc with cur := .write [b], phase := .run } }
  | .run => .refused .notThisClass
  | .idle | .done => .refused .transaction

/-- R123, R130: ENC_EXTEND. -/
def execEncExtend (b : Byte) (s : State) : Out State :=
  andThen (byteClass b s.enc) fun c =>
  match c with
  | .extend => .next { s with enc := { s.enc with cur := .write (s.enc.cur.value ++ [b]) } }
  | .first | .emit => .refused .notThisClass

/-- R124, R130: ENC_EMIT. -/
def execEncEmit (b : Byte) (s : State) : Out State :=
  andThen (byteClass b s.enc) fun c =>
  match c with
  | .emit => onEncoder s (s.enc.emit s.params.bitOrder b)
  | .first | .extend => .refused .notThisClass

/-- R125, R130: ENC_END_RUN. -/
def execEncEndRun (s : State) : Out State :=
  match s.enc.phase with
  | .run => onEncoder s (s.enc.endRun s.params.bitOrder)
  | .empty => .refused .notThisClass
  | .idle | .done => .refused .transaction

/-- R126, R130: ENC_END_EMPTY. -/
def execEncEndEmpty (s : State) : Out State :=
  match s.enc.phase with
  | .empty => onEncoder s (s.enc.endEmpty s.params.bitOrder)
  | .run => .refused .notThisClass
  | .idle | .done => .refused .transaction

/-- R127: SENT@9. -/
def execSentAt9 (s : State) : Out State := onEncoder s (s.enc.sentinelAt s.params.bitOrder 9)

/-- R127: SENT@10. -/
def execSentAt10 (s : State) : Out State := onEncoder s (s.enc.sentinelAt s.params.bitOrder 10)

/-- R127: SENT@11. -/
def execSentAt11 (s : State) : Out State := onEncoder s (s.enc.sentinelAt s.params.bitOrder 11)

/-- R127: SENT@12. -/
def execSentAt12 (s : State) : Out State := onEncoder s (s.enc.sentinelAt s.params.bitOrder 12)

/-- R127: SENT@13. -/
def execSentAt13 (s : State) : Out State := onEncoder s (s.enc.sentinelAt s.params.bitOrder 13)

/-- R127: SENT@14. -/
def execSentAt14 (s : State) : Out State := onEncoder s (s.enc.sentinelAt s.params.bitOrder 14)

/-- R127: SENT@15. -/
def execSentAt15 (s : State) : Out State := onEncoder s (s.enc.sentinelAt s.params.bitOrder 15)

/-- R127: SENT@16. -/
def execSentAt16 (s : State) : Out State := onEncoder s (s.enc.sentinelAt s.params.bitOrder 16)

/-- R128, R79: PAD, which is CLOSE: the `k` zero bits that the position asks for, and the output closed. -/
def execPad (k : Nat) (s : State) : Out State :=
  if s.enc.busy then
    if padLength s.enc.nbits.value = k then onEncoder s s.enc.closeOut else .refused .notThisClass
  else .refused .notThisClass

end Sys2Proof.Machine
end

