-- ==== Sys2Proof/Machine/Fsm.lean ====
section
/-! DEFINITION. The internal rows BR_INSERT, BR_GROW, BR_RESET and BR_FULL: FSM_APPLY of the arm on an instance's fsm, where
the arm's rule allows it (spec 41_codewidth_fsm.md R100 to R103; 30_encoding.md R81). -/

namespace Sys2Proof.Machine

/-- R100 to R103: FSM_APPLY(br) on the registers of an instance, under what the rule of the arm requires and reading what that
takes: nothing for INSERT, `W < WMAX` for GROW, `W = WMAX`, `n = L` and `allow` for RESET and FULL (log entry 6; of registers
that nothing has written, log entry 3). -/
def branchRegs (br : Branch) (r : SyncRegs) : Out SyncRegs :=
  match br with
  | .insert => .next r
  | .grow =>
      let f := r.fsm.value
      if f.w < f.wMax then .next { r.noteRead r.fsm.written with fsm := .write (fsmApply .grow f) }
      else .refused .notThisClass
  | .reset =>
      let f := r.fsm.value
      if f.w = f.wMax ∧ r.n.value = f.l ∧ f.allow = true then
        .next { r.noteRead (r.fsm.written && r.n.written) with fsm := .write (fsmApply .reset f) }
      else .refused .notThisClass
  | .full =>
      let f := r.fsm.value
      if f.w = f.wMax ∧ r.n.value = f.l ∧ f.allow = false then .next (r.noteRead (r.fsm.written && r.n.written))
      else .refused .notThisClass

/-- FSM_APPLY(br) in the instance `a`. -/
def applyBranch (br : Branch) (a : Agent) (s : State) : Out State :=
  andThen (branchRegs br (s.syncOf a)) fun r => .next (s.withSync a r)

/-- R100: BR_INSERT. -/
def execBrInsert (a : Agent) (s : State) : Out State := applyBranch .insert a s

/-- R101: BR_GROW. -/
def execBrGrow (a : Agent) (s : State) : Out State := applyBranch .grow a s

/-- R102: BR_RESET. -/
def execBrReset (a : Agent) (s : State) : Out State := applyBranch .reset a s

/-- R103: BR_FULL. -/
def execBrFull (a : Agent) (s : State) : Out State := applyBranch .full a s

end Sys2Proof.Machine
end

