-- ==== Sys2Proof/Machine/Table.lean ====
section
/-! DEFINITION. The internal rows OP_LOOKUP, OP_INSERT, OP_REINIT and OP_RESERVED: the CodeTable primitives of an instance
(spec 20_memory.md R64 to R67; 30_encoding.md R82). -/

namespace Sys2Proof.Machine

/-- R64, R66: the answer of a lookup. For the empty string, of which R64 says nothing, it is the free value of the counter `k`
(log entry 24). -/
def tableAnswer (q : TableKey) (k : Nat) (t : CodeTable) : TableReply :=
  match q with
  | .str [] => .code (Config.emptyLookup k)
  | .str s => .code (lookupStr t s)
  | .code c => .string (lookupCode t c)

/-- How many free values the answer of a lookup takes. -/
def freeRepliesOf : TableKey → Nat
  | .str [] => 1
  | .str _ => 0
  | .code _ => 0

/-- R64, R66: OP_LOOKUP. It changes no register; the answer goes out on the interface. -/
def execOpLookup (k : TableKey) (s : State) : Out State :=
  let r := s.syncOf k.agent
  .next { s.withSync k.agent (r.noteRead r.table.written) with
    reply := some (tableAnswer k s.freeReplies r.table.value), freeReplies := s.freeReplies + freeRepliesOf k }

/-- R65, R66, R31, R47: OP_INSERT on the registers of an instance: an entry at a code of the stream's code space (log entry 22).
DESIGN CHOICE: the length of the string is not checked against a finite `STR_CAP`; R11 bounds what an instance can hold, and R65
and R66 name no such check (log entry 25). -/
def insertRegs (a : Agent) (str : Str) (c : Nat) (r : SyncRegs) : Out SyncRegs :=
  if inCodeSpace r.fsm c then
    andThen (insertEntry a str c r.table.value) fun t => .next { r.noteRead r.table.written with table := .write t }
  else .fault .insertConflict

/-- R65, R66: OP_INSERT. -/
def execOpInsert (a : Agent) (str : Str) (c : Nat) (s : State) : Out State :=
  andThen (insertRegs a str c (s.syncOf a)) fun r => .next (s.withSync a r)

/-- R67: OP_REINIT. It reads nothing, so it needs no table to be there. -/
def execOpReinit (a : Agent) (s : State) : Out State :=
  .next (s.withSync a { s.syncOf a with table := .write baseTable })

/-- R82, R171: OP_RESERVED is refused. -/
def execOpReserved (_a : Agent) (_s : State) : Out State :=
  .refused .reservedTableOp

end Sys2Proof.Machine
end

