-- ==== Sys2Proof/Machine/Dispatch.lean ====
section
/-! DEFINITION. One arm for each instruction. -/

namespace Sys2Proof.Machine

def exec (i : Instr) (s : State) : Host.Outcome State Fault Refusal :=
  match i with
  | .hdr r f => Sys2Proof.Machine.execHdr r f s
  | .firstLit v => Sys2Proof.Machine.execFirstLit v s
  | .firstSent => Sys2Proof.Machine.execFirstSent s
  | .firstBad v => Sys2Proof.Machine.execFirstBad v s
  | .sent => Sys2Proof.Machine.execSent s
  | .lit v => Sys2Proof.Machine.execLit v s
  | .ref v => Sys2Proof.Machine.execRef v s
  | .selfRef => Sys2Proof.Machine.execSelfRef s
  | .bad v => Sys2Proof.Machine.execBad v s
  | .sentAt9 => Sys2Proof.Machine.execSentAt9 s
  | .sentAt10 => Sys2Proof.Machine.execSentAt10 s
  | .sentAt11 => Sys2Proof.Machine.execSentAt11 s
  | .sentAt12 => Sys2Proof.Machine.execSentAt12 s
  | .sentAt13 => Sys2Proof.Machine.execSentAt13 s
  | .sentAt14 => Sys2Proof.Machine.execSentAt14 s
  | .sentAt15 => Sys2Proof.Machine.execSentAt15 s
  | .sentAt16 => Sys2Proof.Machine.execSentAt16 s
  | .pad k => Sys2Proof.Machine.execPad k s
  | .encStart r f => Sys2Proof.Machine.execEncStart r f s
  | .encFirst b => Sys2Proof.Machine.execEncFirst b s
  | .encExtend b => Sys2Proof.Machine.execEncExtend b s
  | .encEmit b => Sys2Proof.Machine.execEncEmit b s
  | .encEndRun => Sys2Proof.Machine.execEncEndRun s
  | .encEndEmpty => Sys2Proof.Machine.execEncEndEmpty s
  | .decStart => Sys2Proof.Machine.execDecStart s
  | .brInsert a => Sys2Proof.Machine.execBrInsert a s
  | .brGrow a => Sys2Proof.Machine.execBrGrow a s
  | .brReset a => Sys2Proof.Machine.execBrReset a s
  | .brFull a => Sys2Proof.Machine.execBrFull a s
  | .opLookup k => Sys2Proof.Machine.execOpLookup k s
  | .opInsert a str c => Sys2Proof.Machine.execOpInsert a str c s
  | .opReinit a => Sys2Proof.Machine.execOpReinit a s
  | .opReserved a => Sys2Proof.Machine.execOpReserved a s

end Sys2Proof.Machine
end

