-- ==== Sys2Proof/Machine/Cycle.lean ====
section
/-! DEFINITION. One step of the machine: which input or instance moves, and what a step adds around `exec`
(spec 20_memory.md R70 to R72; 60_exceptions.md R166, R167, R171; 70_reset_and_hazards.md R186 to R188).

The instances are independent and any interleaving of their steps is allowed (R166, R188); the interleaving of one run is
the agenda, as plain data (log entry 9). -/

namespace Sys2Proof.Machine

/-- R72: the instance's collaborators do not answer. -/
def State.isHeld (s : State) (a : Agent) : Bool :=
  match a with
  | .encoder => s.enc.held
  | .decoder => s.dec.held

/-- R72: the step that a word at the interface asks for calls a collaborator primitive (R59 to R67): `Reinit` and `WriteBits`
in ENC_START, `Lookup` for a byte in `RUN`, `WriteBits` and `CloseOut` at the end of a stream, and the CodeTable's own
interface. ENC_FIRST (R122), DEC_START (R133), FSM_APPLY (R100 to R103) and a refused transaction (R171) call none. -/
def Port.callsPrimitive (s : State) : Port → Bool
  | .encStart => !s.enc.busy
  | .encByte => s.enc.phase = .run
  | .encEnd => s.enc.busy
  | .decStart => false
  | .sentinel _ => s.enc.busy
  | .padding _ => s.enc.busy
  | .br _ => false
  | .op _ _ _ => true

/-- R72: the step that an input asks for calls a collaborator primitive; every step of the decoder by itself does (R134, R135,
R139), and there is none in `IDLE`, `DONE` and `ERROR` (R149). -/
def Event.callsPrimitive (s : State) : Event → Bool
  | .request p _ => p.callsPrimitive s
  | .decStep => s.dec.busy
  | .deliver _ _ => false
  | .finish _ => false
  | .hold _ _ => false

/-- An input that asks the instance for a step. -/
def Event.asksStep (a : Agent) : Event → Bool
  | .request p _ => p.agent = a
  | .decStep => a = .decoder
  | .deliver _ _ => false
  | .finish _ => false
  | .hold _ _ => false

/-- R72: the instance is suspended: its collaborators do not answer, and its next step calls one of them. A primitive is the
only suspension point. -/
def State.isBlocked (s : State) (a : Agent) : Bool :=
  s.isHeld a &&
  match s.agenda.find? (Event.asksStep a) with
  | some ev => ev.callsPrimitive s
  | none => true

/-- An input that cannot be taken now, because the instance it is for is suspended. -/
def Event.isHeld (s : State) : Event → Bool
  | .request p _ => s.isBlocked p.agent
  | .decStep => s.isBlocked .decoder
  | .deliver _ _ => false
  | .finish _ => false
  | .hold _ _ => false

/-- The first input that can be taken, and the agenda without it: a suspended instance holds up its own inputs only (R166). -/
def nextEvent (s : State) : List Event → Option (Event × List Event)
  | [] => none
  | ev :: rest =>
      if ev.isHeld s then (nextEvent s rest).map fun q => (q.1, ev :: q.2) else some (ev, rest)

/-- R164, R52: the producer's bytes arrive at a decoder input. -/
def BitIn.deliver (o : BitOrder) (bytes : Str) (i : BitIn) : BitIn :=
  { i with bits := i.bits ++ unpackBytes o bytes }

/-- The decoder input of a slot. -/
def Decoder.slot (t : Slot) (d : Decoder) : BitIn :=
  match t with
  | .current => d.inp
  | .next => d.nextInp

/-- The decoder with another input in a slot. -/
def Decoder.withSlot (t : Slot) (i : BitIn) (d : Decoder) : Decoder :=
  match t with
  | .current => { d with inp := i }
  | .next => { d with nextInp := i }

/-- A delivery; to an input that its producer has closed nothing more comes (log entry 10). -/
def takeDelivery (t : Slot) (bytes : Str) (s : State) : State :=
  if (s.dec.slot t).ended then s
  else { s with dec := s.dec.withSlot t ((s.dec.slot t).deliver s.params.bitOrder bytes) }

/-- I2: the producer closes a decoder input. -/
def takeFinish (t : Slot) (s : State) : State :=
  { s with dec := s.dec.withSlot t { s.dec.slot t with ended := true } }

/-- R72: a collaborator of the instance stops answering, or answers again. -/
def takeHold (a : Agent) (on : Bool) (s : State) : State :=
  match a with
  | .encoder => { s with enc := { s.enc with held := on } }
  | .decoder => { s with dec := { s.dec with held := on } }

/-- R171: the host is told that its transaction was taken, or that it was refused; then nothing else has happened. -/
def answer (s : State) (x : Out State) : Out State :=
  match x with
  | .next t => .next { t with response := .accepted }
  | .refused .transaction => .next { s with response := .refused }
  | .refused r => .refused r
  | .fault r => .fault r

/-- A request: its word is decoded in its context, and the instruction runs. -/
def runRequest (p : Port) (bits : Bits) (s : State) : Out State :=
  answer s (andThen (requestFetch p bits s) fun i => exec i s)

/-- One autonomous step of the decoder: its word is read and decoded, and the instruction runs on the state after the read.
Where no word is read (R72, R149, or a trap on a short read), the step is over. -/
def runDecoder (s : State) : Out State :=
  andThen (decoderFetch s) fun q =>
  match q.1 with
  | some i => exec i q.2
  | none => .next q.2

/-- What an input does. -/
def takeEvent (ev : Event) (s : State) : Out State :=
  match ev with
  | .request p bits => runRequest p bits s
  | .decStep => runDecoder s
  | .deliver t bytes => .next (takeDelivery t bytes s)
  | .finish t => .next (takeFinish t s)
  | .hold a on => .next (takeHold a on s)

/-- One step: the first input that can be taken; without one, the decoder steps by itself (R133, R139), or the machine waits,
keeping its state (R170). -/
def cycle (s : State) : Out State :=
  match nextEvent s s.agenda with
  | some (ev, rest) => takeEvent ev { s with agenda := rest }
  | none => if s.dec.busy && !s.dec.held then runDecoder s else .next s

/-! ## Placing the word of an opcode-table row -/

/-- An encoder with a stream open in the phase `EMPTY`, and these fsm and sync values. -/
def Encoder.opened (y : Sync) (e : Encoder) : Encoder :=
  { e with phase := .empty, sync := .put y, nbits := .write headerBits, out := .fresh, held := false }

/-- Entries at all the codes `257 .. n - 1`, each of two bytes. -/
def filledTable (n : Nat) : CodeTable :=
  (List.range (n - firstCode)).map fun k => (firstCode + k, [BitVec.ofNat 8 (k / 256), BitVec.ofNat 8 k])

/-- A state of fsm and sync in which FSM_CLASSIFY answers the arm of a branch code. -/
def syncForBranch (p : Params) (w : Nat) : Sync :=
  match w with
  | 0 => Sync.init p false false
  | 1 => { Sync.init p false false with n := 2 ^ p.wMinDyn, table := filledTable (2 ^ p.wMinDyn) }
  | 2 => { Sync.init p true true with n := 2 ^ p.wFixed, table := filledTable (2 ^ p.wFixed) }
  | _ => { Sync.init p false true with n := 2 ^ p.wFixed, table := filledTable (2 ^ p.wFixed) }

/-- A state of fsm and sync in which the anticipated width is `w`. -/
def syncForWidth (p : Params) (w : Nat) : Sync :=
  { Sync.init p false false with fsm := { fsmInit p false false with w := w, l := 2 ^ w } }

/-- The machine about to run the word of an opcode-table row (log entry 17). -/
def placeWord (s : State) (nbits w : Nat) : State :=
  match tableContext nbits w with
  | none => s
  | some (c, bits) =>
    match c with
    | .decStart =>
        { s with
          dec := { s.dec with phase := if s.dec.busy then .idle else s.dec.phase, held := false }
          agenda := .request .decStart bits :: s.agenda }
    | .br a =>
        { s with
          enc := s.enc.opened (syncForBranch s.params w)
          agenda := .request (.br a) bits :: s.agenda }
    | .encByte _ =>
        { s with
          enc := s.enc.opened (Sync.init s.params false false)
          agenda := .request .encByte bits :: s.agenda }
    | .sentinel k =>
        { s with
          enc := s.enc.opened (syncForWidth s.params k)
          agenda := .request (.sentinel k) (valueBits s.params.bitOrder w k) :: s.agenda }
    | .first k =>
        { s with
          dec := { s.dec with
            phase := .first, err := .none, sync := .put { Sync.init s.params false false with fsm := { fsmInit s.params false false with w := k, l := 2 ^ k } }
            pos := .write headerBits, midStep := none, inp := { bits := valueBits s.params.bitOrder w k, ended := true }, out := .fresh
            held := false }
          agenda := .decStep :: s.agenda }
    | _ => s

end Sys2Proof.Machine
end

