-- ==== Sys2Proof/Safety.lean ====
section
/-! DEFINITION. What a sound state is, in the terms the statements use (spec 10_state.md R28, R32, R34, R36, R45;
20_memory.md R61; 93_implementation_defined.md I9), and the inputs that make up a run of each agent. -/

namespace Sys2Proof.Machine

/-! ## Registers -/

/-- All registers of fsm and sync are written. -/
def SyncRegs.written (r : SyncRegs) : Bool := r.fsm.written && r.n.written && r.table.written

/-- R45: a register without the value that it holds unwritten: `v` stands there instead. -/
def Reg.forget {α : Type} (v : α) (r : Reg α) : Reg α := if r.written then r else .powerOn v

/-- R45: fsm and sync without what their unwritten registers hold. -/
def SyncRegs.forget (r : SyncRegs) : SyncRegs :=
  { r with fsm := r.fsm.forget SyncRegs.powerOn.fsm.value, n := r.n.forget 0, table := r.table.forget [] }

/-- R45: the machine without what its unwritten registers hold. -/
def State.forget (s : State) : State :=
  { s with
    enc := { s.enc with sync := s.enc.sync.forget, cur := s.enc.cur.forget [], nbits := s.enc.nbits.forget 0 }
    dec := { s.dec with sync := s.dec.sync.forget, val := s.dec.val.forget [], pos := s.dec.pos.forget 0 } }

/-! ## Invariants -/

/-- R28: the bounds of the stream's mode, `WMIN <= W <= WMAX`, and `L = 2^W`. -/
structure Fsm.Inv (p : Params) (f : Fsm) : Prop where
  bounds : (f.wMin, f.wMax) = p.bounds f.fixed
  min_le : f.wMin ≤ f.w
  le_max : f.w ≤ f.wMax
  cap    : f.l = 2 ^ f.w

/-- R32: the counter's range, and the codes of the table are exactly `257 .. n - 1`; R117: every entry has at least two
bytes; R30: on the encoder side no two codes have one string. -/
structure Sync.Inv (p : Params) (a : Agent) (y : Sync) : Prop where
  fsm    : y.fsm.Inv p
  low    : firstCode ≤ y.n
  high   : y.n ≤ y.fsm.l
  codes  : y.table.map (·.1) = List.range' firstCode (y.n - firstCode)
  long   : ∀ e ∈ y.table, 2 ≤ e.2.length
  unique : a = .encoder → (y.table.map (·.2)).Nodup

/-- R34, I9 (a): `cur` is non-empty, and it and every non-empty beginning of it are keys of the dictionary. -/
def curKnown (t : CodeTable) (cur : Str) : Prop :=
  cur ≠ [] ∧ ∀ k, 1 ≤ k → k ≤ cur.length → (lookupStr t (cur.take k)).isSome

/-- The encoder instance is sound. -/
structure Encoder.Inv (p : Params) (e : Encoder) : Prop where
  started : e.phase ≠ .idle → e.sync.written ∧ e.nbits.written ∧ e.sync.values.Inv p .encoder
  opened  : e.busy → e.out.closed = false ∧ e.out.bits.length = e.nbits.value
  empty   : e.phase = .empty → e.sync.values.n = firstCode ∧ e.sync.values.fsm.w = e.sync.values.fsm.wMin
  run     : e.phase = .run → e.cur.written ∧ curKnown e.sync.values.table e.cur.value
  done    : e.phase = .done → e.out.closed = true ∧ e.out.bits.length = e.nbits.value + padLength e.nbits.value

/-- The decoder instance is sound. -/
structure Decoder.Inv (p : Params) (d : Decoder) : Prop where
  busy    : d.busy → d.err = .none ∧ d.out.closed = false ∧ d.pos.written
  started : d.phase = .first ∨ d.phase = .run → d.sync.written ∧ d.sync.values.Inv p .decoder
  first   : d.phase = .first → d.sync.values.n = firstCode ∧ d.sync.values.fsm.w = d.sync.values.fsm.wMin
  run     : d.phase = .run → d.val.written ∧ d.val.value ≠ []
  step    : ∀ br, d.midStep = some br →
              d.phase = .run ∧ (br = .full ↔ d.sync.values.n = d.sync.values.fsm.l)
  idle    : d.phase = .idle → d.err = .none
  done    : d.phase = .done → d.err = .none ∧ d.out.closed = true
  error   : d.phase = .error → d.err ≠ .none ∧ d.out.closed = true

/-- The four interfaces of the host (R80). -/
def Port.isHost : Port → Bool
  | .encStart => true
  | .encByte => true
  | .encEnd => true
  | .decStart => true
  | .sentinel _ => false
  | .padding _ => false
  | .br _ => false
  | .op _ _ _ => false

/-- An input that can come from outside: a word of a host interface, or what a collaborator does. -/
def Event.external : Event → Bool
  | .request p bits => p.isHost && bits.length == p.width
  | .decStep => true
  | .deliver _ _ => true
  | .finish _ => true
  | .hold _ _ => true

/-- The instance an input is for. -/
def Event.agent : Event → Agent
  | .request p _ => p.agent
  | .decStep => .decoder
  | .deliver _ _ => .decoder
  | .finish _ => .decoder
  | .hold a _ => a

/-- R38: the configuration of a stream, and the bounds that follow from it. -/
def Fsm.config (f : Fsm) : Bool × Bool × Nat × Nat := (f.allow, f.fixed, f.wMin, f.wMax)

/-- The machine is sound: legal parameters (R8), inputs that come from outside, and two sound instances. -/
structure State.Inv (s : State) : Prop where
  params : s.params.legal
  agenda : ∀ ev ∈ s.agenda, ev.external
  enc    : s.enc.Inv s.params
  dec    : s.dec.Inv s.params

/-! ## Reads of the decoder -/

/-- The machine after the decoder has read `n` bits (R60). -/
def State.afterRead (n : Nat) (s : State) : State :=
  { s with dec := { s.dec with
      inp := { s.dec.inp with bits := s.dec.inp.bits.drop n }, pos := .write (s.dec.pos.value + n) } }

/-- The machine after a short read: the exception is taken, and `pos` is as it was (R60, R155). How many bits the channel lost
is the free value (log entry 12). -/
def State.afterShort (e : DecErr) (s : State) : State :=
  { s with
    dec := { s.dec with inp := { s.dec.inp with bits := s.dec.inp.bits.drop (Config.shortReadTakes s.freeUses) } }.trap e
    freeUses := s.freeUses + 1 }

/-- R60, I2: a read of `n` bits answers `SHORT`. -/
abbrev State.readsShort (n : Nat) (s : State) : Prop :=
  s.dec.inp.bits.length < n ∧ (s.dec.inp.ended = true ∨ s.params.underrun = .short)

/-- R72, I2: a read of `n` bits does not answer. -/
abbrev State.readsBlock (n : Nat) (s : State) : Prop :=
  s.dec.inp.bits.length < n ∧ s.dec.inp.ended = false ∧ s.params.underrun = .block

/-- R145, R146: the instruction `i` ends the `RUN` step in progress with the string `str`: within the capacity the entry is
added and `val` is `str`, and otherwise CAPACITY is taken. Nothing else changes. -/
def State.endsStep (s : State) (i : Instr) (br : Branch) (str : Str) : Prop :=
  (overCapacity s.params.strCap br s.dec.val.value str = false →
    ∃ y, s.dec.sync.values.add .decoder br (s.dec.val.value ++ str.take 1) = .next y ∧
      exec i s = .next { s with dec := { s.dec with sync := .put y, val := .write str, midStep := none } }) ∧
  (overCapacity s.params.strCap br s.dec.val.value str = true →
    exec i s = .next { s with dec := s.dec.trap .capacity })

/-! ## Runs -/

/-- R129, R152: the encoder run on `S`: the host's transactions that compress `S` with the flags `r`, `f`. -/
def compressInputs (r f : Bool) (S : Str) : List Event :=
  .request .encStart [r, f] :: (S.map fun b => Event.request .encByte (bitsMsb b.toNat 8)) ++ [.request .encEnd []]

/-- R152: the decoder run on the bytes of a complete stream: they are delivered, the producer closes, and DEC_START. -/
def expandInputs (bytes : Str) : List Event :=
  [.deliver .next bytes, .finish .next, .request .decStart []]

/-- `k` steps of the machine: the runs that R151 and R152 speak of. -/
def runSteps (k : Nat) (s : State) : Out State := Host.Core.run Sys2Proof.core k s

end Sys2Proof.Machine
end

