-- ==== Sys2Proof/Certificates/Slice0/Obligations.lean ====
section
/-! DEFINITION. The statements for the provers, in the order of OBLIGATIONS.json: the whole machine, words and bits, the fsm and
the sync, the CodeTable, the encoder, the decoder, whole runs. -/

open Sys2Proof Sys2Proof.Machine

/-! ## The whole machine -/

/-- R172, R45: power-on. -/
def Obligations.PowerOnState : Prop :=
  State.reset.enc.phase = .idle ∧ State.reset.dec.phase = .idle ∧ State.reset.dec.err = .none ∧
  (∀ a, (State.reset.syncOf a).fsm.written = false ∧ (State.reset.syncOf a).n.written = false ∧
    (State.reset.syncOf a).table.written = false) ∧
  State.reset.enc.cur.written = false ∧ State.reset.enc.nbits.written = false ∧
  State.reset.dec.val.written = false ∧ State.reset.dec.pos.written = false ∧
  State.reset.enc.busy = false ∧ State.reset.dec.busy = false ∧
  (∀ r f, ∃ t, exec (.encStart r f) State.reset = .next t) ∧ (∃ t, exec .decStart State.reset = .next t) ∧
  (∀ b, exec (.encFirst b) State.reset = .refused .transaction ∧
    exec (.encExtend b) State.reset = .refused .transaction ∧ exec (.encEmit b) State.reset = .refused .transaction) ∧
  exec .encEndRun State.reset = .refused .transaction ∧ exec .encEndEmpty State.reset = .refused .transaction

/-- The invariant holds at power-on. -/
def Obligations.PowerOnMeetsInvariant : Prop := State.reset.Inv

/-- Every step keeps the invariant, from every sound state: R28, R32, R34, R36 and R61 are parts of it. -/
def Obligations.StepKeepsInvariant : Prop :=
  ∀ s t : State, s.Inv → step s = .next t → t.Inv

/-- A sound machine never stops: no step writes to a closed stream (R61), misses an entry (R113, R114), breaks the requirement
of an `Insert` (R117) or of a `WriteBits` (R59), or has no step. -/
def Obligations.StepNeverStops : Prop :=
  ∀ s : State, s.Inv → ∃ t, step s = .next t

/-- R45: no step of a sound machine reads an unwritten register. Two machines that differ in nothing but what their unwritten
registers hold take the same step; and no step puts such a read on record. -/
def Obligations.NoStepReadsUnwritten : Prop :=
  (∀ s s' t : State, s.Inv → s'.forget = s.forget → step s = .next t → ∃ t', step s' = .next t' ∧ t'.forget = t.forget) ∧
  ∀ (s t : State) (a : Agent), s.Inv → step s = .next t → (s.syncOf a).readUnwritten = false →
    (t.syncOf a).readUnwritten = false

/-- R22, R166: an input moves the instance it is for, and nothing of the other instance matters to it. -/
def Obligations.InstancesShareNothing : Prop :=
  ∀ (s s' : State) (ev : Event) (t : State),
    s'.params = s.params → s'.freeUses = s.freeUses → takeEvent ev s = .next t →
    (ev.agent = .encoder → s'.enc = s.enc →
      ∃ t', takeEvent ev s' = .next t' ∧ t'.enc = t.enc ∧ t'.dec = s'.dec) ∧
    (ev.agent = .decoder → s'.dec = s.dec →
      ∃ t', takeEvent ev s' = .next t' ∧ t'.dec = t.dec ∧ t'.enc = s'.enc)

/-- R188: two inputs for different instances give each instance the same result in either order. -/
def Obligations.InterleavingDoesNotMatter : Prop :=
  ∀ (s a b : State) (e d : Event), e.agent ≠ d.agent → takeEvent e s = .next a → takeEvent d a = .next b →
    ∃ a' b', takeEvent d s = .next a' ∧ takeEvent e a' = .next b' ∧ b'.enc = b.enc ∧ b'.dec = b.dec

/-- R38: the configuration of an open stream and the bounds it selects do not change, and no step changes the parameters. -/
def Obligations.ConfigurationIsConstant : Prop :=
  ∀ s t : State, step s = .next t →
    t.params = s.params ∧
    (s.enc.busy = true → t.enc.sync.fsm.value.config = s.enc.sync.fsm.value.config) ∧
    (s.dec.phase = .first ∨ s.dec.phase = .run → t.dec.sync.fsm.value.config = s.dec.sync.fsm.value.config)

/-- R39, with the codes of R33, R35 and R37: the status outputs of every state. -/
def Obligations.StatusOutputs : Prop :=
  ∀ s : State,
    (s.status.encBusy = true ↔ s.enc.phase.code = 1#2 ∨ s.enc.phase.code = 2#2) ∧
    (s.status.encDone = true ↔ s.enc.phase.code = 3#2) ∧
    (s.status.decBusy = true ↔ s.dec.phase.code = 1#3 ∨ s.dec.phase.code = 2#3 ∨ s.dec.phase.code = 3#3) ∧
    (s.status.decDone = true ↔ s.dec.phase.code = 4#3) ∧
    (s.status.decErr = 0#3 ↔ s.dec.err = .none) ∧ (s.status.decErr = 1#3 ↔ s.dec.err = .truncHeader) ∧
    (s.status.decErr = 2#3 ↔ s.dec.err = .truncCodeword) ∧ (s.status.decErr = 3#3 ↔ s.dec.err = .badCode) ∧
    (s.status.decErr = 4#3 ↔ s.dec.err = .capacity)

/-- R50, R61, R156: outputs are only appended to, and not after their close, until a start opens a new stream. -/
def Obligations.OutputsOnlyGrow : Prop :=
  ∀ s t : State, step s = .next t →
    (s.enc.out.bits <+: t.enc.out.bits ∧ (s.enc.out.closed = true → t.enc.out = s.enc.out) ∨
      s.enc.busy = false ∧ t.enc.phase = .empty) ∧
    (s.dec.out.bytes <+: t.dec.out.bytes ∧ (s.dec.out.closed = true → t.dec.out = s.dec.out) ∨
      s.dec.busy = false ∧ t.dec.phase = .hdr)

/-- R72: an instance whose collaborator does not answer, and whose next step calls it, takes no step, whatever the machine does
meanwhile: only what collaborators do to its inputs, and the end of the waiting, can happen to it. Nothing else suspends an
instance: a transaction whose rule calls no primitive runs although no collaborator answers (R122, R133, R171). R170: with no
input that can be taken, and no step of the decoder to do, the machine keeps its state. -/
def Obligations.HeldInstanceTakesNoStep : Prop :=
  (∀ s t : State, step s = .next t →
    (s.isBlocked .encoder = true → t.enc = { s.enc with held := t.enc.held }) ∧
    (s.isBlocked .decoder = true → t.dec = { s.dec with inp := t.dec.inp, nextInp := t.dec.nextInp, held := t.dec.held })) ∧
  (∀ (s : State) (rest : List Event),
    (∀ b, s.agenda = .request .encByte b :: rest → s.enc.phase ≠ .run →
      step s = runRequest .encByte b { s with agenda := rest }) ∧
    (∀ b, s.agenda = .request .decStart b :: rest → step s = runRequest .decStart b { s with agenda := rest }) ∧
    (∀ b, s.agenda = .request .encStart b :: rest → s.enc.busy = true →
      step s = runRequest .encStart b { s with agenda := rest }) ∧
    (∀ b, s.agenda = .request .encEnd b :: rest → s.enc.busy = false →
      step s = runRequest .encEnd b { s with agenda := rest }) ∧
    (∀ a b, s.agenda = .request (.br a) b :: rest → step s = runRequest (.br a) b { s with agenda := rest })) ∧
  ∀ s : State, (∀ ev ∈ s.agenda, ev.isHeld s = true) → s.dec.busy = false ∨ s.dec.held = true → step s = .next s

/-- A step runs the instruction of the word that arrives: the request is off the agenda, and the host is answered. -/
def Obligations.StepRunsDecodedRequest : Prop :=
  ∀ (s : State) (p : Port) (bits : Bits) (rest : List Event) (i : Instr),
    s.agenda = .request p bits :: rest → s.isHeld p.agent = false ∨ p.callsPrimitive s = false →
    requestFetch p bits { s with agenda := rest } = .next i →
    step s = answer { s with agenda := rest } (exec i { s with agenda := rest })

/-- A step of the decoder by itself runs the instruction of the word it reads, on the state after the read; in `RUN` the read
comes after the beginning of the step (R134, R135, R139). -/
def Obligations.StepRunsDecodedCodeword : Prop :=
  ∀ (s : State) (i : Instr) (r : Bits), s.agenda = [] → s.dec.held = false →
    (s.dec.phase = .hdr → headerBits ≤ s.dec.inp.bits.length →
      decode s.params.bitOrder .header (s.dec.inp.bits.take headerBits) = .ok (i, r) →
      step s = exec i (s.afterRead headerBits)) ∧
    (∀ w, s.dec.phase = .first → w = s.dec.sync.values.fsm.w → w ≤ s.dec.inp.bits.length →
      decode s.params.bitOrder (.first w) (s.dec.inp.bits.take w) = .ok (i, r) →
      step s = exec i (s.afterRead w)) ∧
    (∀ d w, s.dec.phase = .run → s.dec.begin = .next d → w = d.sync.values.fsm.w →
      w ≤ s.dec.inp.bits.length →
      decode s.params.bitOrder (.run w d.sync.values.n) (s.dec.inp.bits.take w) = .ok (i, r) →
      step s = exec i (State.afterRead w { s with dec := d }))

/-! ## Words and bits -/

/-- Decoding the word of an instruction gives it back, in every bit order, in every context that can hold it, with every
operand, and leaves what follows the word. -/
def Obligations.DecodeEncode : Prop :=
  ∀ (o : BitOrder) (c : Ctx) (i : Instr) (rest : Bits), i.fits c = true →
    decode o c (encode o c i ++ rest) = .ok (i, rest)

/-- A word that decodes is the word of the instruction it decodes to, but for padding, whose bits are not looked at (R79). -/
def Obligations.EncodeDecode : Prop :=
  ∀ (o : BitOrder) (c : Ctx) (i : Instr) (word rest : Bits), word.length = c.width → (∀ k, c ≠ .padding k) →
    decode o c (word ++ rest) = .ok (i, rest) → encode o c i = word

/-- R51, R59, R83: where each bit of a value stands, the value of bits, and `WriteBits`, in both bit orders. `LSB_FIRST` also
packs bytes the other way round. -/
def Obligations.BitOrderOfValues : Prop :=
  State.reset.params.bitOrder = .msbFirst ∧
  (∀ v n k : Nat, k < n →
    (valueBits .msbFirst v n)[k]? = some (v.testBit (n - 1 - k)) ∧ (valueBits .lsbFirst v n)[k]? = some (v.testBit k)) ∧
  (∀ (o : BitOrder) (v n : Nat), v < 2 ^ n → bitsValue o (valueBits o v n) = v) ∧
  (∀ bits : Bits, bitsValue .msbFirst bits =
    ∑ k ∈ Finset.range bits.length, (bits.getD k false).toNat * 2 ^ (bits.length - 1 - k)) ∧
  (∀ bits : Bits, bitsValue .lsbFirst bits = ∑ k ∈ Finset.range bits.length, (bits.getD k false).toNat * 2 ^ k) ∧
  (∀ (o : BitOrder) (v n : Nat) (e : Encoder), 1 ≤ n → v < 2 ^ n → e.out.closed = false →
    e.writeBits o v n = .next { e with
      out := { e.out with bits := e.out.bits ++ valueBits o v n }, nbits := .write (e.nbits.value + n) }) ∧
  (∀ (bits : Bits) (i : Nat) (h : i < bits.length),
    ∃ b, (packBytes .lsbFirst bits)[i / 8]? = some b ∧ b.getLsbD (i % 8) = bits[i])

/-- R52, R56: where each stream bit stands in the bytes, and the padding. -/
def Obligations.BytePacking : Prop :=
  (∀ (bits : Bits) (i : Nat) (h : i < bits.length),
    ∃ b, (packBytes .msbFirst bits)[i / 8]? = some b ∧ b.getLsbD (7 - i % 8) = bits[i]) ∧
  (∀ (o : BitOrder) (bits : Bits),
    (packBytes o bits).length = (bits.length + 7) / 8 ∧
    unpackBytes o (packBytes o bits) = bits ++ List.replicate ((8 - bits.length % 8) % 8) false)

/-- R85, R86: a codeword of the width in use has exactly the class its value says. -/
def Obligations.CodewordClasses : Prop :=
  ∀ (o : BitOrder) (w v : Nat), v < 2 ^ w →
    (v ≤ 255 → decode o (.first w) (valueBits o v w) = .ok (.firstLit v, [])) ∧
    (v = 256 → decode o (.first w) (valueBits o v w) = .ok (.firstSent, [])) ∧
    (257 ≤ v → decode o (.first w) (valueBits o v w) = .ok (.firstBad v, [])) ∧
    ∀ n, 257 ≤ n →
      (v = 256 → decode o (.run w n) (valueBits o v w) = .ok (.sent, [])) ∧
      (v ≤ 255 → decode o (.run w n) (valueBits o v w) = .ok (.lit v, [])) ∧
      (257 ≤ v → v < n → decode o (.run w n) (valueBits o v w) = .ok (.ref v, [])) ∧
      (v = n → decode o (.run w n) (valueBits o v w) = .ok (.selfRef, [])) ∧
      (n < v → decode o (.run w n) (valueBits o v w) = .ok (.bad v, []))

/-- R87: after a FULL arm no readable word is SELF or BAD; after any other arm there is room for a code. -/
def Obligations.FullHasNoSelfOrBad : Prop :=
  ∀ (p : Params) (a : Agent) (y : Sync), p.legal → y.Inv p a →
    (y.branch = .full → (y.pre y.branch).n = 2 ^ (y.pre y.branch).fsm.w ∧
      ∀ (o : BitOrder) (word : Bits), word.length = (y.pre y.branch).fsm.w →
        ∃ i, decode o (.run (y.pre y.branch).fsm.w (y.pre y.branch).n) word = .ok (i, []) ∧
          (i = .sent ∨ (∃ v, i = .lit v) ∨ ∃ v, i = .ref v)) ∧
    (y.branch ≠ .full → (y.pre y.branch).n < 2 ^ (y.pre y.branch).fsm.w)

/-- R78: the eight sentinel patterns, and back. -/
def Obligations.SentinelPatterns : Prop :=
  encode .msbFirst (.sentinel 9) .sentAt9 = [true, false, false, false, false, false, false, false, false] ∧
  ∀ k (i : Instr), i.sentinelWidth = some (9 + k) →
    encode .msbFirst (.sentinel (9 + k)) i =
      List.replicate k false ++ [true, false, false, false, false, false, false, false, false] ∧
    decode .msbFirst (.sentinel (9 + k))
      (List.replicate k false ++ [true, false, false, false, false, false, false, false, false]) = .ok (i, [])

/-- R76, R77, R81, R82, R95: a few words written out from the spec, one for each kind of word. -/
def Obligations.SpecWordsDecode : Prop :=
  decodeBytes .msbFirst .header [0xc4, 0x00] = .ok (.hdr true true,
    [false, false, false, true, false, false, false, false, false, false, false, false, false, false]) ∧
  decode .msbFirst (.first 9) [false, false, true, true, false, false, false, false, true] = .ok (.firstLit 97, []) ∧
  decode .msbFirst (.first 9) [true, false, false, false, false, false, false, false, false] = .ok (.firstSent, []) ∧
  decode .msbFirst (.run 9 257) [true, false, false, false, false, false, false, false, true] = .ok (.selfRef, []) ∧
  decode .msbFirst (.run 9 258) [true, false, false, false, false, false, false, false, true] = .ok (.ref 257, []) ∧
  decode .msbFirst (.run 9 257) [true, false, false, false, false, false, false, true, false] = .ok (.bad 258, []) ∧
  decode .msbFirst (.encByte .first) [false, true, true, false, false, false, false, true] = .ok (.encFirst 0x61, []) ∧
  (∀ a, decode .msbFirst (.br a) [true, false] = .ok (.brReset a, [])) ∧
  (∀ a s c, decode .msbFirst (.op a s c) [true, false] = .ok (.opReinit a, []))

/-! ## adaptive_codewidth_fsm and dictionary_state_sync -/

/-- R96, R109: FSM_INIT and SYNC_INIT. -/
def Obligations.StreamInit : Prop :=
  ∀ (p : Params) (allow fixed : Bool),
    (fsmInit p allow fixed).allow = allow ∧ (fsmInit p allow fixed).fixed = fixed ∧
    (fixed = true → (fsmInit p allow fixed).wMin = p.wFixed ∧ (fsmInit p allow fixed).wMax = p.wFixed) ∧
    (fixed = false → (fsmInit p allow fixed).wMin = p.wMinDyn ∧ (fsmInit p allow fixed).wMax = p.wMaxDyn) ∧
    (fsmInit p allow fixed).w = (fsmInit p allow fixed).wMin ∧ (fsmInit p allow fixed).l = 2 ^ (fsmInit p allow fixed).wMin ∧
    (Sync.init p allow fixed).fsm = fsmInit p allow fixed ∧ (Sync.init p allow fixed).n = 257 ∧
    (∀ s, lookupStr (Sync.init p allow fixed).table s = match s with
      | [b] => some b.toNat
      | _ => none) ∧
    (∀ c, lookupCode (Sync.init p allow fixed).table c = if c ≤ 255 then some [BitVec.ofNat 8 c] else none)

/-- R97: which arm FSM_CLASSIFY chooses. -/
def Obligations.ClassifyArms : Prop :=
  ∀ (f : Fsm) (n : Nat),
    (n < f.l → fsmClassify f n = .insert) ∧
    (f.l ≤ n → f.w < f.wMax → fsmClassify f n = .grow) ∧
    (f.l ≤ n → f.wMax ≤ f.w → f.allow = true → fsmClassify f n = .reset) ∧
    (f.l ≤ n → f.wMax ≤ f.w → f.allow = false → fsmClassify f n = .full)

/-- R100 to R103: the four arms on the fsm of either instance, each wherever its rule allows it. Nothing else changes. -/
def Obligations.BranchRows : Prop :=
  ∀ (a : Agent) (s : State),
    exec (.brInsert a) s = .next s ∧
    ∀ f, (s.syncOf a).fsm = .write f →
      (f.w < f.wMax → exec (.brGrow a) s =
        .next (s.withSync a { s.syncOf a with fsm := .write { f with w := f.w + 1, l := 2 * f.l } })) ∧
      ((s.syncOf a).n = .write f.l → f.w = f.wMax →
        (f.allow = true → exec (.brReset a) s =
          .next (s.withSync a { s.syncOf a with fsm := .write { f with w := f.wMin, l := 2 ^ f.wMin } })) ∧
        (f.allow = false → exec (.brFull a) s = .next s))

/-- R104, with R99: the width after the arm is the anticipated width, which is within the bounds. -/
def Obligations.AnticipatedWidth : Prop :=
  ∀ (p : Params) (f : Fsm) (n : Nat), f.Inv p →
    (fsmApply (fsmClassify f n) f).w = fsmNextWidth f n ∧
    (f.fixed = true → fsmNextWidth f n = p.wFixed) ∧
    f.wMin ≤ fsmNextWidth f n ∧ fsmNextWidth f n ≤ f.wMax ∧
    (n < f.l → fsmNextWidth f n = f.w) ∧
    (f.l ≤ n → f.w < f.wMax → fsmNextWidth f n = f.w + 1) ∧
    (f.l ≤ n → f.w = f.wMax → f.allow = true → fsmNextWidth f n = f.wMin) ∧
    (f.l ≤ n → f.w = f.wMax → f.allow = false → fsmNextWidth f n = f.w)

/-- R105, R184, with the widths of R25 to R29: no value leaves its register, and no arm makes one leave it. -/
def Obligations.RegistersNeverOverflow : Prop :=
  ∀ (p : Params) (a : Agent) (y : Sync), p.legal → p.fitsRegisters → y.Inv p a →
    y.fsm.wMin < 2 ^ 5 ∧ y.fsm.wMax < 2 ^ 5 ∧ y.fsm.w < 2 ^ 5 ∧
    y.fsm.l < 2 ^ (max p.wMaxDyn p.wFixed + 1) ∧ y.n < 2 ^ (max p.wMaxDyn p.wFixed + 1) ∧
    (y.pre y.branch).fsm.w < 2 ^ 5 ∧ (y.pre y.branch).fsm.l < 2 ^ (max p.wMaxDyn p.wFixed + 1) ∧
    (y.branch ≠ .full → (y.pre y.branch).n + 1 < 2 ^ (max p.wMaxDyn p.wFixed + 1))

/-- R106: once FSM_CLASSIFY answers FULL for an instance, every later step of the stream leaves its fsm, counter and dictionary,
and it answers FULL again. -/
def Obligations.FullIsAbsorbing : Prop :=
  ∀ s t : State, s.Inv → step s = .next t →
    (s.enc.busy = true → s.enc.sync.values.branch = .full →
      t.enc.sync.values = s.enc.sync.values ∧ t.enc.sync.values.branch = .full) ∧
    (s.dec.phase = .run → s.dec.sync.values.branch = .full →
      t.dec.sync.values = s.dec.sync.values ∧ t.dec.sync.values.branch = .full)

/-- R107: static mode. -/
def Obligations.StaticWidth : Prop :=
  ∀ (p : Params) (a : Agent) (y : Sync), p.legal → y.Inv p a → y.fsm.fixed = true →
    y.fsm.w = p.wFixed ∧ y.branch ≠ .grow ∧ (y.pre y.branch).fsm.w = p.wFixed ∧
    (y.branch = .reset → (y.pre y.branch).table = baseTable ∧ (y.pre y.branch).fsm = y.fsm)

/-- R110: PRE. -/
def Obligations.PreOfGrowth : Prop :=
  ∀ (p : Params) (a : Agent) (y : Sync), p.legal → y.Inv p a →
    (y.pre y.branch).fsm = fsmApply y.branch y.fsm ∧
    (y.branch = .reset → (y.pre y.branch).table = baseTable ∧ (y.pre y.branch).n = 257) ∧
    (y.branch ≠ .reset → (y.pre y.branch).table = y.table ∧ (y.pre y.branch).n = y.n) ∧
    (y.branch ≠ .full → (y.pre y.branch).n < (y.pre y.branch).fsm.l) ∧
    (y.branch = .full → (y.pre y.branch).n = (y.pre y.branch).fsm.l)

/-- R111, R117: ADD, on either side. -/
def Obligations.AddOfGrowth : Prop :=
  ∀ (p : Params) (a : Agent) (y : Sync) (br : Branch) (entry : Str), y.Inv p a → 2 ≤ entry.length →
    (a = .encoder → lookupStr y.table entry = none) →
    (br = .full → y.add a br entry = .next y) ∧
    (br ≠ .full → ∃ t, y.add a br entry = .next t ∧ t.fsm = y.fsm ∧ t.n = y.n + 1 ∧
      (∀ c, lookupCode t.table c = if c = y.n then some entry else lookupCode y.table c) ∧
      (a = .encoder → ∀ s, lookupStr t.table s = if s = entry then some y.n else lookupStr y.table s))

/-- R112: SYNC_GROW, arm by arm. -/
def Obligations.GrowthEvent : Prop :=
  ∀ (p : Params) (y : Sync) (entry : Str), p.legal → y.Inv p .encoder → 2 ≤ entry.length →
    lookupStr y.table entry = none →
    ∃ t, y.grow entry = .next t ∧
      (y.branch = .insert → t.fsm = y.fsm) ∧
      (y.branch = .grow → t.fsm = { y.fsm with w := y.fsm.w + 1, l := 2 * y.fsm.l }) ∧
      (y.branch = .insert ∨ y.branch = .grow → t.n = y.n + 1 ∧
        ∀ s, lookupStr t.table s = if s = entry then some y.n else lookupStr y.table s) ∧
      (y.branch = .reset → t.fsm = { y.fsm with w := y.fsm.wMin, l := 2 ^ y.fsm.wMin } ∧ t.n = 258 ∧
        ∀ s, lookupStr t.table s = if s = entry then some 257 else lookupStr baseTable s) ∧
      (y.branch = .full → t = y)

/-- R115, R116 (3) to (5): one growth event of the encoder, `val` being the string it has just written and `c` the byte that
ended it, and the decoder's step on the next codeword `v`, the code of `cur`, which begins with `c`. The decoder reads at the
width written, resolves `v` to `cur`, by its table or as the self-reference, and ends in the encoder's state. -/
def Obligations.DecoderFollowsEncoder : Prop :=
  ∀ (p : Params) (y t : Sync) (val cur : Str) (c : Byte) (v : Nat), p.legal → y.Inv p .encoder → val ≠ [] →
    lookupStr y.table (val ++ [c]) = none → cur.head? = some c →
    y.grow (val ++ [c]) = .next t → lookupStr t.table cur = some v →
    (y.pre y.branch).fsm.w = t.fsm.w ∧ v < 2 ^ t.fsm.w ∧ v ≠ 256 ∧
    (v < (y.pre y.branch).n ∧ lookupCode (y.pre y.branch).table v = some cur ∨
      v = (y.pre y.branch).n ∧ cur = val ++ val.take 1) ∧
    (y.pre y.branch).add .decoder y.branch (val ++ cur.take 1) = .next t

/-! ## The CodeTable -/

/-- R64 to R67: what a lookup answers after each operation. -/
def Obligations.TableReads : Prop :=
  (∀ (t t' : CodeTable) (s : Str) (c : Nat), insertEntry .encoder s c t = .next t' →
    ∀ k, lookupStr t' k = if k = s then some c else lookupStr t k) ∧
  (∀ (t t' : CodeTable) (s : Str) (c : Nat), insertEntry .decoder s c t = .next t' →
    ∀ k, lookupCode t' k = if k = c then some s else lookupCode t k) ∧
  (∀ (t : CodeTable) (b : Byte), lookupStr t [b] = some b.toNat ∧ lookupCode t b.toNat = some [b]) ∧
  (∀ s : Str, 2 ≤ s.length → lookupStr baseTable s = none) ∧ (∀ c, 256 ≤ c → lookupCode baseTable c = none)

/-- The canonical form of a table is kept by every table operation, and a sound sync has it, with nothing at code 256 (R89). -/
def Obligations.TableKeepsForm : Prop :=
  CodeTable.wf baseTable = true ∧
  (∀ (a b : Agent) (str : Str) (c : Nat) (s t : State), exec (.opInsert a str c) s = .next t →
    CodeTable.wf (s.syncOf b).table.value = true → CodeTable.wf (t.syncOf b).table.value = true) ∧
  (∀ (a b : Agent) (s t : State), exec (.opReinit a) s = .next t →
    CodeTable.wf (s.syncOf b).table.value = true → CodeTable.wf (t.syncOf b).table.value = true) ∧
  (∀ (p : Params) (a : Agent) (y : Sync), y.Inv p a → CodeTable.wf y.table = true ∧ lookupCode y.table 256 = none)

/-- R64 to R67 as rows, on either side: what an operation answers, what a lookup answers after it, and that nothing else
changes. That an insert stores a string longer than a finite `STR_CAP` too is the model's choice (R11; log entry 25). -/
def Obligations.TableRows : Prop :=
  ∀ (a : Agent) (s : State) (t : CodeTable), (s.syncOf a).table = .write t →
    (∀ str, a = .encoder → str ≠ [] →
      exec (.opLookup (.str str)) s = .next { s with reply := some (.code (lookupStr t str)) }) ∧
    (∀ c, a = .decoder → exec (.opLookup (.code c)) s = .next { s with reply := some (.string (lookupCode t c)) }) ∧
    (∀ str c, ((s.syncOf a).fsm.written = true → c < 2 ^ (s.syncOf a).fsm.value.wMax) → 257 ≤ c → lookupCode t c = none →
      (a = .encoder → lookupStr t str = none) → (a = .decoder → str ≠ []) →
      ∃ t', exec (.opInsert a str c) s = .next (s.withSync a { s.syncOf a with table := .write t' }) ∧
        (a = .encoder → ∀ k, lookupStr t' k = if k = str then some c else lookupStr t k) ∧
        ∀ k, lookupCode t' k = if k = c then some str else lookupCode t k) ∧
    ∃ t', exec (.opReinit a) s = .next (s.withSync a { s.syncOf a with table := .write t' }) ∧
      (∀ str, lookupStr t' str = match str with
        | [b] => some b.toNat
        | _ => none) ∧
      ∀ c, lookupCode t' c = if c ≤ 255 then some [BitVec.ofNat 8 c] else none

/-- R82: the operation codes, and the reserved one. -/
def Obligations.ReservedOpRefused : Prop :=
  ∀ (o : BitOrder) (a : Agent) (str : Str) (c : Nat),
    decode o (.op a str c) [false, false] = .ok (.opLookup (lookupKey a str c), []) ∧
    decode o (.op a str c) [false, true] = .ok (.opInsert a str c, []) ∧
    decode o (.op a str c) [true, false] = .ok (.opReinit a, []) ∧
    decode o (.op a str c) [true, true] = .ok (.opReserved a, []) ∧
    ∀ s, exec (.opReserved a) s = .refused .reservedTableOp

/-! ## The encoder -/

/-- R88: what a word of a host interface is. -/
def Obligations.HostTransactionClasses : Prop :=
  ∀ (s : State) (b : Byte) (r f : Bool), s.Inv →
    (s.enc.phase = .empty → requestFetch .encByte (bitsMsb b.toNat 8) s = .next (.encFirst b)) ∧
    (∀ c, s.enc.phase = .run → lookupStr s.enc.sync.values.table (s.enc.cur.value ++ [b]) = some c →
      requestFetch .encByte (bitsMsb b.toNat 8) s = .next (.encExtend b)) ∧
    (s.enc.phase = .run → lookupStr s.enc.sync.values.table (s.enc.cur.value ++ [b]) = none →
      requestFetch .encByte (bitsMsb b.toNat 8) s = .next (.encEmit b)) ∧
    (s.enc.phase = .empty → requestFetch .encEnd [] s = .next .encEndEmpty) ∧
    (s.enc.phase = .run → requestFetch .encEnd [] s = .next .encEndRun) ∧
    (s.enc.phase = .idle ∨ s.enc.phase = .done →
      requestFetch .encByte (bitsMsb b.toNat 8) s = .refused .transaction ∧
      requestFetch .encEnd [] s = .refused .transaction) ∧
    requestFetch .encStart [r, f] s = .next (.encStart r f) ∧ requestFetch .decStart [] s = .next .decStart ∧
    (s.enc.phase = .empty ∨ s.enc.phase = .run → exec (.encStart r f) s = .refused .transaction)

/-- R130, R149: the transactions that are refused change nothing but the answer to the host (R171), and the decoder takes no
step by itself in `IDLE`, `DONE` or `ERROR`. -/
def Obligations.RefusedTransactionsChangeNothing : Prop :=
  ∀ (s : State) (bits : Bits),
    (s.enc.phase = .idle ∨ s.enc.phase = .done → bits.length = 8 →
      runRequest .encByte bits s = .next { s with response := .refused }) ∧
    (s.enc.phase = .idle ∨ s.enc.phase = .done →
      runRequest .encEnd [] s = .next { s with response := .refused }) ∧
    (∀ r f, s.enc.phase = .empty ∨ s.enc.phase = .run →
      runRequest .encStart [r, f] s = .next { s with response := .refused }) ∧
    (s.dec.phase = .hdr ∨ s.dec.phase = .first ∨ s.dec.phase = .run →
      runRequest .decStart [] s = .next { s with response := .refused }) ∧
    (s.dec.phase = .idle ∨ s.dec.phase = .done ∨ s.dec.phase = .error → runDecoder s = .next s)

/-- R120, R176: ENC_START overwrites every register; `cur` gets some value, which R46 leaves undefined (log entry 4). Everything
but the encoder keeps its value, and so does the encoder's `held`. That the output is a fresh stream, of just the header bits and
not closed, is the model's choice of log entry 13 (R176 leaves it to the host). -/
def Obligations.EncStartOpensStream : Prop :=
  ∀ (r f : Bool) (s : State), s.params.legal →
    (s.enc.phase = .idle ∨ s.enc.phase = .done →
      ∃ e, exec (.encStart r f) s = .next { s with enc := e } ∧ e.phase = .empty ∧
        e.sync = .put (Sync.init s.params r f) ∧ e.nbits = .write 2 ∧ e.out = { bits := [r, f], closed := false } ∧
        (∃ str, e.cur = .write str) ∧ e.held = s.enc.held) ∧
    (s.enc.phase = .empty ∨ s.enc.phase = .run → exec (.encStart r f) s = .refused .transaction)

/-- R122, R123: the two classes of a byte that write nothing. -/
def Obligations.ByteRowsWithoutOutput : Prop :=
  ∀ (b : Byte) (s : State),
    (s.enc.phase = .empty →
      exec (.encFirst b) s = .next { s with enc := { s.enc with cur := .write [b], phase := .run } }) ∧
    (∀ c, s.enc.phase = .run → lookupStr s.enc.sync.values.table (s.enc.cur.value ++ [b]) = some c →
      exec (.encExtend b) s = .next { s with enc := { s.enc with cur := .write (s.enc.cur.value ++ [b]) } })

/-- R124, R178: ENC_EMIT writes the code of `cur` at the width before the growth, then grows. -/
def Obligations.EncEmitWritesThenGrows : Prop :=
  ∀ (b : Byte) (s : State), s.Inv → s.enc.phase = .run →
    lookupStr s.enc.sync.values.table (s.enc.cur.value ++ [b]) = none →
    ∃ c y, lookupStr s.enc.sync.values.table s.enc.cur.value = some c ∧ c ≠ 256 ∧ c < s.enc.sync.values.n ∧
      c < 2 ^ s.enc.sync.values.fsm.w ∧ s.enc.sync.values.grow (s.enc.cur.value ++ [b]) = .next y ∧
      exec (.encEmit b) s = .next { s with enc := { s.enc with
        out := { s.enc.out with bits := s.enc.out.bits ++ valueBits s.params.bitOrder c s.enc.sync.values.fsm.w }
        nbits := .write (s.enc.nbits.value + s.enc.sync.values.fsm.w), sync := .put y, cur := .write [b] } }

/-- R125: ENC_END_RUN writes the code of `cur`, the sentinel at the anticipated width, and the padding, and closes. -/
def Obligations.EncEndRunClosesStream : Prop :=
  ∀ s : State, s.Inv → s.enc.phase = .run →
    ∃ c, lookupStr s.enc.sync.values.table s.enc.cur.value = some c ∧
      let y := s.enc.sync.values
      let N := s.enc.nbits.value + y.fsm.w + fsmNextWidth y.fsm y.n
      exec .encEndRun s = .next { s with enc := { s.enc with
        out := { bits := s.enc.out.bits ++ valueBits s.params.bitOrder c y.fsm.w ++
                    valueBits s.params.bitOrder 256 (fsmNextWidth y.fsm y.n) ++ List.replicate ((8 - N % 8) % 8) false
                 closed := true }
        nbits := .write N, phase := .done } }

/-- R126: ENC_END_EMPTY writes the sentinel at `WMIN`, and the padding, and closes. -/
def Obligations.EncEndEmptyClosesStream : Prop :=
  ∀ s : State, s.Inv → s.enc.phase = .empty →
    let w := s.enc.sync.values.fsm.wMin
    let N := s.enc.nbits.value + w
    exec .encEndEmpty s = .next { s with enc := { s.enc with
      out := { bits := s.enc.out.bits ++ valueBits s.params.bitOrder 256 w ++ List.replicate ((8 - N % 8) % 8) false
               closed := true }
      nbits := .write N, phase := .done } }

/-- R127: the eight SENT@w rows write the sentinel at the anticipated width `w`, and change nothing else. -/
def Obligations.SentinelRows : Prop :=
  ∀ (i : Instr) (w : Nat) (s : State), i.sentinelWidth = some w → s.Inv → s.enc.busy = true →
    w = fsmNextWidth s.enc.sync.values.fsm s.enc.sync.values.n →
    exec i s = .next { s with enc := { s.enc with
      out := { s.enc.out with bits := s.enc.out.bits ++ valueBits s.params.bitOrder 256 w }
      nbits := .write (s.enc.nbits.value + w) } }

/-- R128: PAD fills the last byte with zero bits, closes the output, and changes nothing else. -/
def Obligations.PadRow : Prop :=
  ∀ (k : Nat) (s : State), s.enc.busy = true → s.enc.out.closed = false →
    k = (8 - s.enc.nbits.value % 8) % 8 →
    exec (.pad k) s = .next { s with enc := { s.enc with
      out := { bits := s.enc.out.bits ++ List.replicate k false, closed := true } } }

/-- R10, R34: the bound on `cur`, by the counter. -/
def Obligations.CurLengthBound : Prop :=
  ∀ s : State, s.Inv → s.enc.phase = .run →
    s.enc.cur.value.length + 256 ≤ s.enc.sync.values.n ∧ s.enc.cur.value.length + 256 ≤ 2 ^ s.enc.sync.values.fsm.wMax

/-! ## The decoder -/

/-- R133, R174: DEC_START. The fsm, the counter, the dictionary and `val`, which the header writes (R176), are as they were:
unwritten, or stale from an earlier stream. The streams of the decoder are the model's choice of log entry 13 (R176): the input is
the one lined up for the next stream, and the output and the input after it are fresh. Everything but the decoder is unchanged. -/
def Obligations.DecStartOpensStream : Prop :=
  ∀ s : State,
    (s.dec.phase = .idle ∨ s.dec.phase = .done ∨ s.dec.phase = .error →
      ∃ d, exec .decStart s = .next { s with dec := d } ∧ d.err = .none ∧ d.pos = .write 0 ∧ d.phase = .hdr ∧
        d.sync = s.dec.sync ∧ d.val = s.dec.val ∧ d.held = s.dec.held ∧
        d.inp = s.dec.nextInp ∧ d.nextInp = .fresh ∧ d.out = { bytes := [], closed := false } ∧ d.midStep = none) ∧
    (s.dec.phase = .hdr ∨ s.dec.phase = .first ∨ s.dec.phase = .run → exec .decStart s = .refused .transaction)

/-- R134, R176: the header row, and the step in phase `HDR`. It writes every register that DEC_START did not; `val` gets some
value, which R46 leaves undefined, and the model's own counter of such values some number (log entry 4). -/
def Obligations.HeaderStep : Prop :=
  ∀ s : State, s.dec.phase = .hdr →
    (∀ r f, ∃ str k, exec (.hdr r f) s =
      .next { s with dec := { s.dec with
        sync := .put (Sync.init s.params r f), phase := .first, val := .write str, freeVals := k } }) ∧
    (∀ r f rest, s.dec.inp.bits = r :: f :: rest →
      ∃ str k, runDecoder s = .next { s with dec := { s.dec with
        sync := .put (Sync.init s.params r f), phase := .first, val := .write str, freeVals := k
        inp := { s.dec.inp with bits := rest }, pos := .write (s.dec.pos.value + 2) } }) ∧
    (s.readsShort 2 → runDecoder s = .next (s.afterShort .truncHeader))

/-- R135: the step in phase `FIRST`. -/
def Obligations.FirstStep : Prop :=
  ∀ s : State, s.Inv → s.dec.phase = .first →
    let w := s.dec.sync.values.fsm.wMin
    (w ≤ s.dec.inp.bits.length →
      (bitsValue s.params.bitOrder (s.dec.inp.bits.take w) ≤ 255 →
        runDecoder s = exec (.firstLit (bitsValue s.params.bitOrder (s.dec.inp.bits.take w))) (s.afterRead w)) ∧
      (bitsValue s.params.bitOrder (s.dec.inp.bits.take w) = 256 → runDecoder s = exec .firstSent (s.afterRead w)) ∧
      (257 ≤ bitsValue s.params.bitOrder (s.dec.inp.bits.take w) →
        runDecoder s = exec (.firstBad (bitsValue s.params.bitOrder (s.dec.inp.bits.take w))) (s.afterRead w))) ∧
    (s.readsShort w → runDecoder s = .next (s.afterShort .truncCodeword))

/-- R136 to R138: the three classes of the first codeword. -/
def Obligations.FirstRows : Prop :=
  ∀ s : State, s.dec.phase = .first →
    (∀ b : Byte, exec (.firstLit b.toNat) s = .next { s with dec := { s.dec with val := .write [b], phase := .run } }) ∧
    (s.dec.out.closed = false → s.dec.midStep = none →
      exec .firstSent s = .next { s with dec := { s.dec with out := { s.dec.out with closed := true }, phase := .done } }) ∧
    (∀ v, 257 ≤ v → exec (.firstBad v) s = .next { s with dec := s.dec.trap .badCode })

/-- R139: a step in phase `RUN`: `val` is emitted, PRE runs, and then the codeword is read at the new width; `n` in the classes is
the counter after PRE. -/
def Obligations.RunStep : Prop :=
  ∀ s : State, s.Inv → s.dec.phase = .run → s.dec.midStep = none →
    let z := s.dec.sync.values.pre s.dec.sync.values.branch
    let u := { s with dec := { s.dec with
      out := { s.dec.out with bytes := s.dec.out.bytes ++ s.dec.val.value }, sync := .put z
      midStep := some s.dec.sync.values.branch } }
    let v := bitsValue s.params.bitOrder (s.dec.inp.bits.take z.fsm.w)
    z.fsm.w = fsmNextWidth s.dec.sync.values.fsm s.dec.sync.values.n ∧
    (z.fsm.w ≤ s.dec.inp.bits.length →
      (v = 256 → runDecoder s = exec .sent (u.afterRead z.fsm.w)) ∧
      (v ≤ 255 → runDecoder s = exec (.lit v) (u.afterRead z.fsm.w)) ∧
      (257 ≤ v → v < z.n → runDecoder s = exec (.ref v) (u.afterRead z.fsm.w)) ∧
      (v = z.n → runDecoder s = exec .selfRef (u.afterRead z.fsm.w)) ∧
      (z.n < v → runDecoder s = exec (.bad v) (u.afterRead z.fsm.w))) ∧
    (s.readsShort z.fsm.w → runDecoder s = .next (u.afterShort .truncCodeword))

/-- R140, R144: SENT and BAD. -/
def Obligations.SentAndBadRows : Prop :=
  ∀ (br : Branch) (s : State), s.dec.phase = .run → s.dec.midStep = some br →
    (s.dec.out.closed = false → exec .sent s = .next { s with dec := { s.dec with
      out := { s.dec.out with closed := true }, phase := .done, midStep := none } }) ∧
    ∀ v, s.dec.sync.values.n < v → exec (.bad v) s = .next { s with dec := s.dec.trap .badCode }

/-- R141 to R143, R145, R146: the classes that are strings. -/
def Obligations.StringRows : Prop :=
  ∀ (br : Branch) (s : State), s.Inv → s.dec.midStep = some br →
    (∀ b : Byte, s.endsStep (.lit b.toNat) br [b]) ∧
    (∀ v, 257 ≤ v → v < s.dec.sync.values.n →
      ∃ str, lookupCode s.dec.sync.values.table v = some str ∧ str ≠ [] ∧ s.endsStep (.ref v) br str) ∧
    (br ≠ .full → s.endsStep .selfRef br (s.dec.val.value ++ s.dec.val.value.take 1)) ∧
    ∀ str, overCapacity s.params.strCap br s.dec.val.value str = true ↔
      ∃ c, s.params.strCap = some c ∧ (c < str.length ∨ br ≠ .full ∧ c < s.dec.val.value.length + 1)

/-- The model's own choice (log entry 19, with 6 for the BR rows, 7 for SENT@w and PAD, 21 for SELF; 18 and 22 for OP_INSERT):
where the condition of a row does not hold, the row does nothing but say so. A lookup of the empty string, whose answer the spec
does not state, runs and answers some value (log entry 24). A row that reads a register that
nothing has written since power-on goes on with what it holds, and the read is put on record (log entry 3). -/
def Obligations.RowsOutsideTheirConditions : Prop :=
  ∀ (s : State) (r f : Bool) (v : Nat) (b : Byte),
    (s.dec.phase ≠ .hdr → exec (.hdr r f) s = .refused .notThisClass) ∧
    (s.dec.phase ≠ .first ∨ 255 < v → exec (.firstLit v) s = .refused .notThisClass) ∧
    (s.dec.phase ≠ .first → exec .firstSent s = .refused .notThisClass) ∧
    (s.dec.phase ≠ .first ∨ v < 257 → exec (.firstBad v) s = .refused .notThisClass) ∧
    (s.dec.phase ≠ .run ∨ s.dec.midStep = none → exec .sent s = .refused .notThisClass) ∧
    (s.dec.phase ≠ .run ∨ s.dec.midStep = none ∨ 255 < v → exec (.lit v) s = .refused .notThisClass) ∧
    (s.dec.phase ≠ .run ∨ s.dec.midStep = none ∨ s.dec.midStep = some .full →
      exec .selfRef s = .refused .notThisClass) ∧
    (s.dec.phase ≠ .run ∨ s.dec.midStep = none ∨ v < 257 ∨ s.dec.sync.values.n ≤ v →
      exec (.ref v) s = .refused .notThisClass) ∧
    (s.dec.phase ≠ .run ∨ s.dec.midStep = none ∨ v ≤ s.dec.sync.values.n →
      exec (.bad v) s = .refused .notThisClass) ∧
    (s.enc.phase = .run → exec (.encFirst b) s = .refused .notThisClass ∧ exec .encEndEmpty s = .refused .notThisClass) ∧
    (s.enc.phase = .empty → exec (.encExtend b) s = .refused .notThisClass ∧
      exec (.encEmit b) s = .refused .notThisClass ∧ exec .encEndRun s = .refused .notThisClass) ∧
    (s.enc.phase = .run →
      (lookupStr s.enc.sync.values.table (s.enc.cur.value ++ [b]) = none →
        exec (.encExtend b) s = .refused .notThisClass) ∧
      (lookupStr s.enc.sync.values.table (s.enc.cur.value ++ [b]) ≠ none →
        exec (.encEmit b) s = .refused .notThisClass)) ∧
    (∀ i w, i.sentinelWidth = some w → s.enc.busy = false ∨
      w ≠ fsmNextWidth s.enc.sync.values.fsm s.enc.sync.values.n → exec i s = .refused .notThisClass) ∧
    (s.enc.busy = false ∨ v ≠ (8 - s.enc.nbits.value % 8) % 8 →
      exec (.pad v) s = .refused .notThisClass) ∧
    (∀ a g n, g = (s.syncOf a).fsm.value → n = (s.syncOf a).n.value →
      (g.wMax ≤ g.w → exec (.brGrow a) s = .refused .notThisClass) ∧
      (g.w ≠ g.wMax ∨ n ≠ g.l ∨ g.allow = false → exec (.brReset a) s = .refused .notThisClass) ∧
      (g.w ≠ g.wMax ∨ n ≠ g.l ∨ g.allow = true → exec (.brFull a) s = .refused .notThisClass)) ∧
    (s.enc.sync.table.written = true → ∃ c, exec (.opLookup (.str [])) s =
      .next { s with reply := some (.code c), freeReplies := s.freeReplies + 1 }) ∧
    (∀ a str t, t = (s.syncOf a).table.value →
      ((s.syncOf a).fsm.written = true ∧ 2 ^ (s.syncOf a).fsm.value.wMax ≤ v) ∨ v < 257 ∨ lookupCode t v ≠ none ∨
        (a = .encoder ∧ lookupStr t str ≠ none) ∨ (a = .decoder ∧ str = []) →
      exec (.opInsert a str v) s = .fault .insertConflict) ∧
    (∀ a x, x = s.syncOf a → x.fsm.written = false → x.fsm.value.w < x.fsm.value.wMax →
      exec (.brGrow a) s =
        .next (s.withSync a { x with fsm := .write (fsmApply .grow x.fsm.value), readUnwritten := true })) ∧
    (∀ a x, x = s.syncOf a → x.fsm.written = false ∨ x.n.written = false →
      x.fsm.value.w = x.fsm.value.wMax → x.n.value = x.fsm.value.l →
      (x.fsm.value.allow = true → exec (.brReset a) s =
        .next (s.withSync a { x with fsm := .write (fsmApply .reset x.fsm.value), readUnwritten := true })) ∧
      (x.fsm.value.allow = false → exec (.brFull a) s = .next (s.withSync a { x with readUnwritten := true }))) ∧
    (∀ (k : TableKey) (x : SyncRegs), x = s.syncOf k.agent → x.table.written = false →
      ∃ q m, exec (.opLookup k) s =
        .next { s.withSync k.agent { x with readUnwritten := true } with reply := some q, freeReplies := m }) ∧
    (∀ a str x, x = s.syncOf a → x.table.written = false →
      (x.fsm.written = true → v < 2 ^ x.fsm.value.wMax) → 257 ≤ v → lookupCode x.table.value v = none →
      (a = .encoder → lookupStr x.table.value str = none) → (a = .decoder → str ≠ []) →
      ∃ t, exec (.opInsert a str v) s = .next (s.withSync a { x with table := .write t, readUnwritten := true }))

/-- R154, R155, R156: a step that raises an exception. The output keeps what was emitted, with the `val` of the step, and closes;
`PRE` stays applied, no `ADD` runs, `val` is unchanged; a short read leaves `pos`, and any other cause leaves it just after the
codeword. The truncation comes before the other causes. -/
def Obligations.TrapEntry : Prop :=
  ∀ s t : State, s.Inv → s.dec.busy = true → runDecoder s = .next t → t.dec.err ≠ .none →
    let starts : Bool := s.dec.phase = .run && s.dec.midStep = none
    let y := if starts then s.dec.sync.values.pre s.dec.sync.values.branch else s.dec.sync.values
    let w := if s.dec.phase = .hdr then 2 else y.fsm.w
    t.dec.phase = .error ∧ t.dec.midStep = none ∧ t.dec.val = s.dec.val ∧ t.dec.sync.values = y ∧ t.enc = s.enc ∧
    t.dec.out = { bytes := s.dec.out.bytes ++ (if starts then s.dec.val.value else []), closed := true } ∧
    (s.readsShort w → t.dec.pos = s.dec.pos ∧ t.dec.err = if s.dec.phase = .hdr then .truncHeader else .truncCodeword) ∧
    (¬ s.readsShort w → t.dec.pos = .write (s.dec.pos.value + w) ∧ (t.dec.err = .badCode ∨ t.dec.err = .capacity))

/-- R157: `ERROR` is left by a new DEC_START and by nothing else. -/
def Obligations.ErrorIsTerminal : Prop :=
  ∀ s t : State, s.Inv → s.dec.phase = .error → step s = .next t →
    (t.dec.phase = .error ∧ t.dec.err = s.dec.err ∧ t.dec.out = s.dec.out ∧ t.dec.sync = s.dec.sync ∧
      t.dec.val = s.dec.val ∧ t.dec.pos = s.dec.pos) ∨
    (t.dec.phase = .hdr ∧ t.dec.err = .none ∧ ∃ rest, nextEvent s s.agenda = some (.request .decStart [], rest))

/-- R72, R187: a step whose read does not answer waits: nothing more happens than the part of a `RUN` step before the read, and
that once. -/
def Obligations.BlockedReadWaits : Prop :=
  ∀ s : State, s.Inv →
    (s.dec.phase = .hdr → s.readsBlock 2 → runDecoder s = .next s) ∧
    (s.dec.phase = .first → s.readsBlock s.dec.sync.values.fsm.w → runDecoder s = .next s) ∧
    (∀ br, s.dec.midStep = some br → s.readsBlock s.dec.sync.values.fsm.w → runDecoder s = .next s) ∧
    (s.dec.phase = .run → s.dec.midStep = none →
      s.readsBlock (fsmNextWidth s.dec.sync.values.fsm s.dec.sync.values.n) →
      runDecoder s = .next { s with dec := { s.dec with
        out := { s.dec.out with bytes := s.dec.out.bytes ++ s.dec.val.value }
        sync := .put (s.dec.sync.values.pre s.dec.sync.values.branch)
        midStep := some s.dec.sync.values.branch } })

/-- R147: what follows the sentinel has no effect: the stream ends just past it, and no later step of the decoder reads on. -/
def Obligations.BitsAfterSentinelIgnored : Prop :=
  ∀ (s : State) (word rest : Bits), s.Inv → s.dec.phase = .first ∨ s.dec.phase = .run ∧ s.dec.midStep = none →
    word.length = fsmNextWidth s.dec.sync.values.fsm s.dec.sync.values.n →
    bitsValue s.params.bitOrder word = 256 → s.dec.inp.bits = word ++ rest →
    ∃ t, runDecoder s = .next t ∧ t.dec.phase = .done ∧ t.dec.err = .none ∧
      t.dec.pos = .write (s.dec.pos.value + word.length) ∧ t.dec.inp.bits = rest ∧ runDecoder t = .next t ∧
      ∀ other, runDecoder { s with dec := { s.dec with inp := { s.dec.inp with bits := word ++ other } } } =
        .next { t with dec := { t.dec with inp := { t.dec.inp with bits := other } } }

/-! ## Whole runs -/

/-- R151: a step of a decoder whose input has ended consumes bits, or ends the stream; and so, from just after DEC_START with the
whole input there, the decoder ends within the bound of the rule. -/
def Obligations.DecoderTerminates : Prop :=
  (∀ s t : State, s.Inv → s.dec.busy = true → s.dec.inp.ended = true → runDecoder s = .next t →
    t.dec.phase = .done ∨ t.dec.phase = .error ∨
      t.dec.busy = true ∧ t.dec.inp.ended = true ∧
        t.dec.inp.bits.length + (if s.dec.phase = .hdr then 2 else 9) ≤ s.dec.inp.bits.length) ∧
  ∀ s : State, s.Inv → s.agenda = [] → s.dec.held = false → s.dec.phase = .hdr → s.dec.inp.ended = true →
    ∃ k t, k ≤ 1 + (s.dec.inp.bits.length + 8) / 9 + 1 ∧ runSteps k s = .next t ∧
      (t.dec.phase = .done ∨ t.dec.phase = .error)

/-- R152: compressing any input from any sound state, and expanding the bytes from any sound state with the same parameters,
gives the input back. The two runs need not be from power-on, and the output bytes are those of the encoder's bit stream. -/
def Obligations.RoundTrip : Prop :=
  ∀ (s u : State) (r f : Bool) (S : Str), s.Inv → u.Inv → u.params = s.params → s.params.capLargeEnough →
    s.enc.phase = .idle ∨ s.enc.phase = .done → s.enc.held = false → s.agenda = compressInputs r f S →
    u.dec.busy = false → u.dec.held = false → u.dec.nextInp = .fresh →
    ∃ t, runSteps (S.length + 2) s = .next t ∧ t.enc.phase = .done ∧ t.enc.out.closed = true ∧
      t.enc.out.bits.length % 8 = 0 ∧
      ∃ k v, runSteps k { u with agenda := expandInputs (packBytes s.params.bitOrder t.enc.out.bits) } = .next v ∧
        v.dec.phase = .done ∧ v.dec.err = .none ∧ v.dec.out = { bytes := S, closed := true }
end

