-- ==== Sys2Proof/Laws/Bits.lean ====
section
/-! SUPPORT. The bits of a value and the bytes of a stream: lengths, round trips, padding. -/

namespace Sys2Proof

@[simp] theorem length_bitsMsb (v n : Nat) : (bitsMsb v n).length = n := by
  induction n with
  | zero => rfl
  | succ n ih => simp [bitsMsb, ih]

@[simp] theorem length_valueBits (o : BitOrder) (v n : Nat) : (valueBits o v n).length = n := by
  cases o <;> simp [valueBits]

@[simp] theorem length_byteBits (o : BitOrder) (b : Byte) : (byteBits o b).length = 8 := by
  simp [byteBits]

theorem foldl_valueMsb (bits : Bits) (acc : Nat) :
    bits.foldl (fun a b => 2 * a + b.toNat) acc = acc * 2 ^ bits.length + valueMsb bits := by
  induction bits generalizing acc with
  | nil => simp [valueMsb]
  | cons b bs ih =>
    simp only [List.foldl_cons, List.length_cons, valueMsb] at *
    rw [ih, ih (2 * 0 + b.toNat)]
    ring

theorem valueMsb_cons (b : Bool) (bits : Bits) :
    valueMsb (b :: bits) = b.toNat * 2 ^ bits.length + valueMsb bits := by
  have h := foldl_valueMsb bits (2 * 0 + b.toNat)
  simpa [valueMsb] using h

/-- R83: what is read back is the value modulo the width. -/
theorem valueMsb_bitsMsb (v n : Nat) : valueMsb (bitsMsb v n) = v % 2 ^ n := by
  induction n with
  | zero => simp [bitsMsb, valueMsb, Nat.mod_one]
  | succ n ih =>
    rw [bitsMsb, valueMsb_cons, ih, length_bitsMsb, Nat.mod_pow_succ, Nat.toNat_testBit]
    ring

/-- R51: a value that fits its width is read back. -/
theorem bitsValue_valueBits (o : BitOrder) {v n : Nat} (h : v < 2 ^ n) : bitsValue o (valueBits o v n) = v := by
  cases o <;> simp [bitsValue, valueBits, valueMsb_bitsMsb, Nat.mod_eq_of_lt h]

theorem valueMsb_lt (bits : Bits) : valueMsb bits < 2 ^ bits.length := by
  induction bits with
  | nil => simp [valueMsb]
  | cons b bs ih =>
    rw [valueMsb_cons, List.length_cons, pow_succ]
    cases b <;> simp <;> omega

theorem bitsValue_lt (o : BitOrder) (bits : Bits) : bitsValue o bits < 2 ^ bits.length := by
  cases o
  · exact valueMsb_lt bits
  · simpa [bitsValue] using valueMsb_lt bits.reverse

theorem bitsMsb_add_mul (b v n : Nat) : bitsMsb (b * 2 ^ n + v) n = bitsMsb v n := by
  suffices h : ∀ m ≤ n, bitsMsb (b * 2 ^ n + v) m = bitsMsb v m from h n (Nat.le_refl n)
  intro m hm
  induction m with
  | zero => rfl
  | succ m ih =>
    rw [bitsMsb, bitsMsb, ih (by omega)]
    congr 1
    have : (b * 2 ^ n + v) % 2 ^ (m + 1) = v % 2 ^ (m + 1) := by
      obtain ⟨k, rfl⟩ : ∃ k, n = (m + 1) + k := ⟨n - (m + 1), by omega⟩
      rw [pow_add, show b * (2 ^ (m + 1) * 2 ^ k) = 2 ^ (m + 1) * (b * 2 ^ k) by ring, Nat.mul_add_mod]
    have cut : ∀ x, x.testBit m = (x % 2 ^ (m + 1)).testBit m := fun x => by
      rw [Nat.testBit_mod_two_pow]; simp
    rw [cut, this, ← cut]

/-- R83: the bits of the value of some bits are those bits. -/
theorem bitsMsb_valueMsb (bits : Bits) : bitsMsb (valueMsb bits) bits.length = bits := by
  induction bits with
  | nil => rfl
  | cons b bs ih =>
    rw [List.length_cons, bitsMsb, valueMsb_cons, bitsMsb_add_mul, ih]
    congr 1
    have hlt := valueMsb_lt bs
    cases b
    · simp only [Bool.toNat_false, Nat.zero_mul, Nat.zero_add]
      exact Nat.testBit_lt_two_pow hlt
    · simp only [Bool.toNat_true, Nat.one_mul]
      rw [Nat.testBit_two_pow_add_eq, Nat.testBit_lt_two_pow hlt]; rfl

theorem valueBits_bitsValue (o : BitOrder) (bits : Bits) : valueBits o (bitsValue o bits) bits.length = bits := by
  cases o
  · exact bitsMsb_valueMsb bits
  · have h := bitsMsb_valueMsb bits.reverse
    rw [List.length_reverse] at h
    simp [valueBits, bitsValue, h]

/-- R52: a byte's bits are read back. -/
theorem byteOfBits_byteBits (o : BitOrder) (b : Byte) : byteOfBits o (byteBits o b) = b := by
  have : b.toNat < 2 ^ 8 := b.isLt
  simp [byteOfBits, byteBits, bitsValue_valueBits o this]

/-- R52: eight bits are the bits of their byte. -/
theorem byteBits_byteOfBits (o : BitOrder) {bits : Bits} (h : bits.length = 8) :
    byteBits o (byteOfBits o bits) = bits := by
  have hlt : bitsValue o bits < 256 := by
    have := bitsValue_lt o bits
    rwa [h] at this
  have hv := valueBits_bitsValue o bits
  rw [h] at hv
  simp [byteBits, byteOfBits, Nat.mod_eq_of_lt hlt, hv]

theorem unpackBytes_append (o : BitOrder) (s t : Str) : unpackBytes o (s ++ t) = unpackBytes o s ++ unpackBytes o t := by
  simp [unpackBytes]

/-- R52, R56: the bits of the packed bytes are the stream's bits and then the zero padding. -/
theorem unpackBytes_packBytes (o : BitOrder) (bits : Bits) :
    unpackBytes o (packBytes o bits) = bits ++ List.replicate ((8 - bits.length % 8) % 8) false := by
  induction bits using packBytes.induct with
  | case1 => rfl
  | case2 b0 b1 b2 b3 b4 b5 b6 b7 rest ih =>
    rw [packBytes, unpackBytes, List.flatMap_cons, byteBits_byteOfBits o (by rfl)]
    rw [unpackBytes] at ih
    rw [ih]
    have : (b0 :: b1 :: b2 :: b3 :: b4 :: b5 :: b6 :: b7 :: rest).length % 8 = rest.length % 8 := by
      simp only [List.length_cons]; omega
    rw [this]; rfl
  | case3 short h1 h2 =>
    have hlen : 1 ≤ short.length ∧ short.length ≤ 7 := by
      match short, h1, h2 with
      | [], h1, _ => exact absurd rfl h1
      | b0 :: b1 :: b2 :: b3 :: b4 :: b5 :: b6 :: b7 :: rest, _, h2 => exact absurd rfl (h2 b0 b1 b2 b3 b4 b5 b6 b7 rest)
      | [_], _, _ | [_, _], _, _ | [_, _, _], _, _ | [_, _, _, _], _, _ | [_, _, _, _, _], _, _
      | [_, _, _, _, _, _], _, _ | [_, _, _, _, _, _, _], _, _ => simp
    rw [packBytes.eq_3 o short h1 h2, unpackBytes, List.flatMap_singleton, byteBits_byteOfBits]
    · congr 2; omega
    · simp; omega

/-- R56: the number of bytes of a stream of `N` bits. -/
theorem length_packBytes (o : BitOrder) (bits : Bits) : (packBytes o bits).length = (bits.length + 7) / 8 := by
  induction bits using packBytes.induct with
  | case1 => rfl
  | case2 b0 b1 b2 b3 b4 b5 b6 b7 rest ih => rw [packBytes]; simp only [List.length_cons, ih]; omega
  | case3 short h1 h2 =>
    have hlen : 1 ≤ short.length ∧ short.length ≤ 7 := by
      match short, h1, h2 with
      | [], h1, _ => exact absurd rfl h1
      | b0 :: b1 :: b2 :: b3 :: b4 :: b5 :: b6 :: b7 :: rest, _, h2 => exact absurd rfl (h2 b0 b1 b2 b3 b4 b5 b6 b7 rest)
      | [_], _, _ | [_, _], _, _ | [_, _, _], _, _ | [_, _, _, _], _, _ | [_, _, _, _, _], _, _
      | [_, _, _, _, _, _], _, _ | [_, _, _, _, _, _, _], _, _ => simp
    rw [packBytes.eq_3 o short h1 h2]; simp; omega

/-- R51: where the bits of a value stand. -/
theorem bitsMsb_get (v n k : Nat) (h : k < n) : (bitsMsb v n)[k]? = some (v.testBit (n - 1 - k)) := by
  induction n generalizing k with
  | zero => omega
  | succ n ih =>
    rw [bitsMsb]
    cases k with
    | zero => simp
    | succ k => rw [List.getElem?_cons_succ, ih k (by omega)]; congr 2; omega

/-- R52: where a stream bit stands in the bytes. -/
theorem packBytes_get (o : BitOrder) (bits : Bits) : ∀ (i : Nat) (h : i < bits.length),
    ∃ b, (packBytes o bits)[i / 8]? = some b ∧ (byteBits o b)[i % 8]? = some bits[i] := by
  induction bits using packBytes.induct with
  | case1 => intro i h; simp at h
  | case2 b0 b1 b2 b3 b4 b5 b6 b7 rest ih =>
    intro i h
    rw [packBytes]
    by_cases h8 : i < 8
    · refine ⟨_, by rw [show i / 8 = 0 by omega]; rfl, ?_⟩
      rw [byteBits_byteOfBits o (by rfl), Nat.mod_eq_of_lt h8]
      have : i < 8 := h8
      interval_cases i <;> rfl
    · obtain ⟨j, rfl⟩ : ∃ j, i = j + 8 := ⟨i - 8, by omega⟩
      obtain ⟨b, hb1, hb2⟩ := ih j (by simpa using h)
      refine ⟨b, by rw [show (j + 8) / 8 = j / 8 + 1 by omega]; simpa using hb1, ?_⟩
      rw [show (j + 8) % 8 = j % 8 by omega, hb2]; rfl
  | case3 short h1 h2 =>
    intro i h
    have hlen : short.length ≤ 7 := by
      match short, h1, h2 with
      | b0 :: b1 :: b2 :: b3 :: b4 :: b5 :: b6 :: b7 :: rest, _, h2 => exact absurd rfl (h2 b0 b1 b2 b3 b4 b5 b6 b7 rest)
      | [], _, _ | [_], _, _ | [_, _], _, _ | [_, _, _], _, _ | [_, _, _, _], _, _ | [_, _, _, _, _], _, _
      | [_, _, _, _, _, _], _, _ | [_, _, _, _, _, _, _], _, _ => simp
    rw [packBytes.eq_3 o short h1 h2]
    refine ⟨_, by rw [show i / 8 = 0 by omega]; rfl, ?_⟩
    rw [byteBits_byteOfBits o (by simp; omega), Nat.mod_eq_of_lt (by omega), List.getElem?_append_left h, List.getElem?_eq_getElem h]

end Sys2Proof
end

