-- ==== Sys2Proof/Laws/Classes.lean ====
section
/-! SUPPORT. The classes of a codeword (R85, R86): which condition gives which class, and back. -/

namespace Sys2Proof

theorem classFirst_lit {v : Nat} (h : v ≤ 255) : classFirst v = .firstLit v := if_pos h
theorem classFirst_sent : classFirst sentinelCode = .firstSent := rfl
theorem classFirst_bad {v : Nat} (h : 257 ≤ v) : classFirst v = .firstBad v := by
  unfold classFirst sentinelCode; split_ifs <;> first | omega | rfl

theorem classRun_sent (n : Nat) : classRun n sentinelCode = .sent := rfl
theorem classRun_lit {n : Nat} {v : Nat} (h : v ≤ 255) : classRun n v = .lit v := by
  unfold classRun sentinelCode; split_ifs <;> first | omega | rfl
theorem classRun_ref {n : Nat} {v : Nat} (h : 257 ≤ v) (hn : v < n) : classRun n v = .ref v := by
  unfold classRun sentinelCode; split_ifs <;> first | omega | rfl
theorem classRun_self {n : Nat} (h : 257 ≤ n) : classRun n n = .selfRef := by
  unfold classRun sentinelCode; split_ifs <;> first | omega | rfl
theorem classRun_bad {n : Nat} {v : Nat} (h : 257 ≤ v) (hn : n < v) : classRun n v = .bad v := by
  unfold classRun sentinelCode; split_ifs <;> first | omega | rfl

/-- R85: every first codeword is of exactly one class, and which one its value says. -/
theorem classFirst_cases (v : Nat) :
    (v ≤ 255 ∧ classFirst v = .firstLit v) ∨ (v = 256 ∧ classFirst v = .firstSent) ∨
    (257 ≤ v ∧ classFirst v = .firstBad v) := by
  rcases Nat.lt_trichotomy v 256 with h | rfl | h
  · exact .inl ⟨by omega, classFirst_lit (by omega)⟩
  · exact .inr (.inl ⟨rfl, rfl⟩)
  · exact .inr (.inr ⟨h, classFirst_bad h⟩)

/-- R86: every later codeword is of exactly one class, and which one its value and `n` say. -/
theorem classRun_cases {n : Nat} (hn : 257 ≤ n) (v : Nat) :
    (v = 256 ∧ classRun n v = .sent) ∨ (v ≤ 255 ∧ classRun n v = .lit v) ∨
    ((257 ≤ v ∧ v < n) ∧ classRun n v = .ref v) ∨ (v = n ∧ classRun n v = .selfRef) ∨
    (n < v ∧ classRun n v = .bad v) := by
  rcases Nat.lt_trichotomy v 256 with h | rfl | h
  · exact .inr (.inl ⟨by omega, classRun_lit (by omega)⟩)
  · exact .inl ⟨rfl, rfl⟩
  · rcases Nat.lt_trichotomy v n with h' | rfl | h'
    · exact .inr (.inr (.inl ⟨⟨h, h'⟩, classRun_ref h h'⟩))
    · exact .inr (.inr (.inr (.inl ⟨rfl, classRun_self hn⟩)))
    · exact .inr (.inr (.inr (.inr ⟨h', classRun_bad h h'⟩)))

end Sys2Proof
end

