-- ==== Sys2Proof/Laws/State.lean ====
section
/-! SUPPORT. One lemma per field per named update, and the laws of sequencing and of registers. -/

namespace Sys2Proof.Machine

/-! ## Sequencing -/

@[simp] theorem andThen_next {α β : Type} (a : α) (f : α → Out β) : andThen (.next a) f = f a := rfl
@[simp] theorem andThen_fault {α β : Type} (r : Fault) (f : α → Out β) : andThen (.fault r : Out α) f = .fault r := rfl
@[simp] theorem andThen_refused {α β : Type} (r : Refusal) (f : α → Out β) :
    andThen (.refused r : Out α) f = .refused r := rfl

/-- A sequence answers next exactly when both parts do. -/
theorem andThen_eq_next {α β : Type} {x : Out α} {f : α → Out β} {b : β} :
    andThen x f = .next b ↔ ∃ a, x = .next a ∧ f a = .next b := by
  cases x <;> simp [andThen]

/-! ## Registers -/

@[simp] theorem Reg.value_write {α : Type} (v : α) : (Reg.write v).value = v := rfl
@[simp] theorem Reg.written_write {α : Type} (v : α) : (Reg.write v).written = true := rfl

@[simp] theorem SyncRegs.values_put (y : Sync) : (SyncRegs.put y).values = y := rfl
@[simp] theorem SyncRegs.written_put (y : Sync) : (SyncRegs.put y).written = true := rfl
@[simp] theorem SyncRegs.readUnwritten_put (y : Sync) : (SyncRegs.put y).readUnwritten = false := rfl
@[simp] theorem SyncRegs.noteRead_true (r : SyncRegs) : r.noteRead true = r := by simp [SyncRegs.noteRead]
@[simp] theorem SyncRegs.noteRead_fsm (b : Bool) (r : SyncRegs) : (r.noteRead b).fsm = r.fsm := rfl
@[simp] theorem SyncRegs.noteRead_n (b : Bool) (r : SyncRegs) : (r.noteRead b).n = r.n := rfl
@[simp] theorem SyncRegs.noteRead_table (b : Bool) (r : SyncRegs) : (r.noteRead b).table = r.table := rfl
@[simp] theorem SyncRegs.noteRead_values (b : Bool) (r : SyncRegs) : (r.noteRead b).values = r.values := rfl
@[simp] theorem SyncRegs.noteRead_written (b : Bool) (r : SyncRegs) : (r.noteRead b).written = r.written := rfl

/-- An unwritten read is put on record. -/
theorem SyncRegs.noteRead_false (r : SyncRegs) : r.noteRead false = { r with readUnwritten := true } := by
  simp [SyncRegs.noteRead]

@[simp] theorem State.withSync_self (s : State) (a : Agent) : s.withSync a (s.syncOf a) = s := by cases a <;> rfl

/-! ## Named updates of the state -/

@[simp] theorem onEncoder_next (s : State) (e : Encoder) : onEncoder s (.next e) = .next { s with enc := e } := rfl
@[simp] theorem onEncoder_fault (s : State) (r : Fault) : onEncoder s (.fault r) = .fault r := rfl
@[simp] theorem onEncoder_refused (s : State) (r : Refusal) : onEncoder s (.refused r) = .refused r := rfl
@[simp] theorem onDecoder_next (s : State) (d : Decoder) : onDecoder s (.next d) = .next { s with dec := d } := rfl
@[simp] theorem onDecoder_fault (s : State) (r : Fault) : onDecoder s (.fault r) = .fault r := rfl
@[simp] theorem onDecoder_refused (s : State) (r : Refusal) : onDecoder s (.refused r) = .refused r := rfl

/-- All an operation of the encoder can do to the machine. -/
theorem onEncoder_eq_next {s t : State} {x : Out Encoder} :
    onEncoder s x = .next t ↔ ∃ e, x = .next e ∧ t = { s with enc := e } := by
  simp only [onEncoder, andThen_eq_next]
  constructor
  · rintro ⟨e, he, ht⟩; exact ⟨e, he, by simpa using ht.symm⟩
  · rintro ⟨e, he, rfl⟩; exact ⟨e, he, rfl⟩

/-- All an operation of the decoder can do to the machine. -/
theorem onDecoder_eq_next {s t : State} {x : Out Decoder} :
    onDecoder s x = .next t ↔ ∃ d, x = .next d ∧ t = { s with dec := d } := by
  simp only [onDecoder, andThen_eq_next]
  constructor
  · rintro ⟨d, hd, ht⟩; exact ⟨d, hd, by simpa using ht.symm⟩
  · rintro ⟨d, hd, rfl⟩; exact ⟨d, hd, rfl⟩

@[simp] theorem State.syncOf_withSync (s : State) (a : Agent) (r : SyncRegs) : (s.withSync a r).syncOf a = r := by
  cases a <;> rfl
@[simp] theorem State.params_withSync (s : State) (a : Agent) (r : SyncRegs) : (s.withSync a r).params = s.params := by
  cases a <;> rfl
@[simp] theorem State.agenda_withSync (s : State) (a : Agent) (r : SyncRegs) : (s.withSync a r).agenda = s.agenda := by
  cases a <;> rfl

@[simp] theorem Decoder.trap_err (e : DecErr) (d : Decoder) : (d.trap e).err = e := rfl
@[simp] theorem Decoder.trap_phase (e : DecErr) (d : Decoder) : (d.trap e).phase = .error := rfl
@[simp] theorem Decoder.trap_midStep (e : DecErr) (d : Decoder) : (d.trap e).midStep = none := rfl
@[simp] theorem Decoder.trap_sync (e : DecErr) (d : Decoder) : (d.trap e).sync = d.sync := rfl
@[simp] theorem Decoder.trap_val (e : DecErr) (d : Decoder) : (d.trap e).val = d.val := rfl
@[simp] theorem Decoder.trap_pos (e : DecErr) (d : Decoder) : (d.trap e).pos = d.pos := rfl
@[simp] theorem Decoder.trap_inp (e : DecErr) (d : Decoder) : (d.trap e).inp = d.inp := rfl
@[simp] theorem Decoder.trap_nextInp (e : DecErr) (d : Decoder) : (d.trap e).nextInp = d.nextInp := rfl
@[simp] theorem Decoder.trap_freeVals (e : DecErr) (d : Decoder) : (d.trap e).freeVals = d.freeVals := rfl
@[simp] theorem Decoder.trap_held (e : DecErr) (d : Decoder) : (d.trap e).held = d.held := rfl
@[simp] theorem Decoder.trap_bytes (e : DecErr) (d : Decoder) : (d.trap e).out.bytes = d.out.bytes := rfl
@[simp] theorem Decoder.trap_closed (e : DecErr) (d : Decoder) : (d.trap e).out.closed = true := rfl

@[simp] theorem Decoder.start_err (d : Decoder) : d.start.err = .none := rfl
@[simp] theorem Decoder.start_phase (d : Decoder) : d.start.phase = .hdr := rfl
@[simp] theorem Decoder.start_midStep (d : Decoder) : d.start.midStep = none := rfl
@[simp] theorem Decoder.start_pos (d : Decoder) : d.start.pos = .write 0 := rfl
@[simp] theorem Decoder.start_inp (d : Decoder) : d.start.inp = d.nextInp := rfl
@[simp] theorem Decoder.start_nextInp (d : Decoder) : d.start.nextInp = .fresh := rfl
@[simp] theorem Decoder.start_out (d : Decoder) : d.start.out = .fresh := rfl
@[simp] theorem Decoder.start_freeVals (d : Decoder) : d.start.freeVals = d.freeVals := rfl
@[simp] theorem Decoder.start_held (d : Decoder) : d.start.held = d.held := rfl

@[simp] theorem Decoder.withSlot_phase (t : Slot) (i : BitIn) (d : Decoder) : (d.withSlot t i).phase = d.phase := by cases t <;> rfl
@[simp] theorem Decoder.withSlot_err (t : Slot) (i : BitIn) (d : Decoder) : (d.withSlot t i).err = d.err := by cases t <;> rfl
@[simp] theorem Decoder.withSlot_sync (t : Slot) (i : BitIn) (d : Decoder) : (d.withSlot t i).sync = d.sync := by cases t <;> rfl
@[simp] theorem Decoder.withSlot_val (t : Slot) (i : BitIn) (d : Decoder) : (d.withSlot t i).val = d.val := by cases t <;> rfl
@[simp] theorem Decoder.withSlot_pos (t : Slot) (i : BitIn) (d : Decoder) : (d.withSlot t i).pos = d.pos := by cases t <;> rfl
@[simp] theorem Decoder.withSlot_midStep (t : Slot) (i : BitIn) (d : Decoder) : (d.withSlot t i).midStep = d.midStep := by cases t <;> rfl
@[simp] theorem Decoder.withSlot_out (t : Slot) (i : BitIn) (d : Decoder) : (d.withSlot t i).out = d.out := by cases t <;> rfl
@[simp] theorem Decoder.withSlot_freeVals (t : Slot) (i : BitIn) (d : Decoder) : (d.withSlot t i).freeVals = d.freeVals := by
  cases t <;> rfl
@[simp] theorem Decoder.withSlot_held (t : Slot) (i : BitIn) (d : Decoder) : (d.withSlot t i).held = d.held := by cases t <;> rfl
@[simp] theorem Decoder.slot_withSlot (t : Slot) (i : BitIn) (d : Decoder) : (d.withSlot t i).slot t = i := by cases t <;> rfl

end Sys2Proof.Machine
end

