-- ==== Sys2Proof/Laws/Table.lean ====
section
/-! SUPPORT. The CodeTable: read after insert, insert elsewhere, and the canonical form (R64 to R67). -/

namespace Sys2Proof.Machine

/-- The canonical form, as a property of lists. -/
theorem CodeTable.wf_iff {t : CodeTable} :
    CodeTable.wf t = true ↔ t.Pairwise (fun a b => a.1 < b.1) ∧ ∀ e ∈ t, firstCode ≤ e.1 := by
  simp [CodeTable.wf]

@[simp] theorem CodeTable.wf_base : CodeTable.wf baseTable = true := rfl

@[simp] theorem entryAt_nil (c : Nat) : entryAt [] c = none := rfl
@[simp] theorem entryOf_nil (s : Str) : entryOf [] s = none := rfl

theorem entryAt_cons (e : Nat × Str) (t : CodeTable) (c : Nat) :
    entryAt (e :: t) c = if e.1 = c then some e.2 else entryAt t c := by
  by_cases h : e.1 = c <;> simp [entryAt, h]

theorem entryOf_cons (e : Nat × Str) (t : CodeTable) (s : Str) :
    entryOf (e :: t) s = if e.2 = s then some e.1 else entryOf t s := by
  by_cases h : e.2 = s <;> simp [entryOf, h]

theorem entryAt_eq_none {t : CodeTable} {c : Nat} : entryAt t c = none ↔ c ∉ t.map (·.1) := by
  induction t with
  | nil => simp
  | cons e t ih => rw [entryAt_cons]; by_cases h : e.1 = c <;> simp_all [eq_comm]

theorem entryOf_eq_none {t : CodeTable} {s : Str} : entryOf t s = none ↔ s ∉ t.map (·.2) := by
  induction t with
  | nil => simp
  | cons e t ih => rw [entryOf_cons]; by_cases h : e.2 = s <;> simp_all [eq_comm]

theorem mem_of_entryAt {t : CodeTable} {c : Nat} {s : Str} (h : entryAt t c = some s) : (c, s) ∈ t := by
  induction t with
  | nil => simp at h
  | cons e t ih =>
    rw [entryAt_cons] at h
    split at h
    · cases h; subst_vars; exact List.mem_cons_self
    · exact List.mem_cons_of_mem _ (ih h)

theorem mem_of_entryOf {t : CodeTable} {c : Nat} {s : Str} (h : entryOf t s = some c) : (c, s) ∈ t := by
  induction t with
  | nil => simp at h
  | cons e t ih =>
    rw [entryOf_cons] at h
    split at h
    · cases h; subst_vars; exact List.mem_cons_self
    · exact List.mem_cons_of_mem _ (ih h)

/-- With distinct codes, the table has an entry exactly where a lookup by code finds it. -/
theorem entryAt_of_mem {t : CodeTable} (hd : (t.map (·.1)).Nodup) {c : Nat} {s : Str} (h : (c, s) ∈ t) :
    entryAt t c = some s := by
  induction t with
  | nil => simp at h
  | cons e t ih =>
    rw [List.map_cons, List.nodup_cons] at hd
    rw [entryAt_cons]
    rcases List.mem_cons.mp h with rfl | h
    · simp
    · have : e.1 ≠ c := fun hc => hd.1 (hc ▸ List.mem_map_of_mem h)
      rw [if_neg this]; exact ih hd.2 h

/-- With distinct strings, the table has an entry exactly where a lookup by string finds it. -/
theorem entryOf_of_mem {t : CodeTable} (hd : (t.map (·.2)).Nodup) {c : Nat} {s : Str} (h : (c, s) ∈ t) :
    entryOf t s = some c := by
  induction t with
  | nil => simp at h
  | cons e t ih =>
    rw [List.map_cons, List.nodup_cons] at hd
    rw [entryOf_cons]
    rcases List.mem_cons.mp h with rfl | h
    · simp
    · have : e.2 ≠ s := fun hc => hd.1 (hc ▸ List.mem_map_of_mem h)
      rw [if_neg this]; exact ih hd.2 h

/-! ## Placing an entry -/

theorem mem_placeEntry {c : Nat} {s : Str} {t : CodeTable} {e : Nat × Str} :
    e ∈ placeEntry c s t ↔ e = (c, s) ∨ e ∈ t := by
  induction t with
  | nil => simp [placeEntry]
  | cons x t ih =>
    rw [placeEntry]
    split
    · simp
    · rw [List.mem_cons, ih, List.mem_cons]; tauto

/-- R66: what an insert at a free code makes a lookup by code answer. -/
theorem entryAt_placeEntry {c : Nat} {s : Str} {t : CodeTable} (h : entryAt t c = none) (k : Nat) :
    entryAt (placeEntry c s t) k = if k = c then some s else entryAt t k := by
  induction t with
  | nil => simp [placeEntry, entryAt_cons, eq_comm]
  | cons x t ih =>
    rw [entryAt_cons] at h
    split at h
    · cases h
    · rename_i hx
      rw [placeEntry]
      split
      · rw [entryAt_cons]; simp [eq_comm]
      · rw [entryAt_cons, ih h, entryAt_cons]
        by_cases hk : x.1 = k
        · have : k ≠ c := fun e => hx (hk.trans e)
          simp [hk, this]
        · simp [hk]

/-- R65: what an insert of a new string makes a lookup by string answer. -/
theorem entryOf_placeEntry {c : Nat} {s : Str} {t : CodeTable} (h : entryOf t s = none) (k : Str) :
    entryOf (placeEntry c s t) k = if k = s then some c else entryOf t k := by
  induction t with
  | nil => simp [placeEntry, entryOf_cons, eq_comm]
  | cons x t ih =>
    rw [entryOf_cons] at h
    split at h
    · cases h
    · rename_i hx
      rw [placeEntry]
      split
      · rw [entryOf_cons]; simp [eq_comm]
      · rw [entryOf_cons, ih h, entryOf_cons]
        by_cases hk : x.2 = k
        · have : k ≠ s := fun e => hx (hk.trans e)
          simp [hk, this]
        · simp [hk]

/-- An entry above all others goes to the end. -/
theorem placeEntry_append {c : Nat} {s : Str} {t : CodeTable} (h : ∀ e ∈ t, e.1 < c) :
    placeEntry c s t = t ++ [(c, s)] := by
  induction t with
  | nil => rfl
  | cons x t ih =>
    have hx := h x List.mem_cons_self
    rw [placeEntry, if_neg (by omega), ih (fun e he => h e (List.mem_cons_of_mem _ he))]; rfl

theorem placeEntry_wf {c : Nat} {s : Str} {t : CodeTable} (hw : CodeTable.wf t = true) (hc : firstCode ≤ c)
    (hf : entryAt t c = none) : CodeTable.wf (placeEntry c s t) = true := by
  rw [CodeTable.wf_iff] at *
  constructor
  · obtain ⟨hp, -⟩ := hw
    induction t with
    | nil => simp [placeEntry]
    | cons x t ih =>
      rw [entryAt_cons] at hf
      split at hf
      · cases hf
      · rename_i hx
        rw [List.pairwise_cons] at hp
        rw [placeEntry]
        split
        · rename_i hlt
          rw [List.pairwise_cons, List.pairwise_cons]
          refine ⟨fun e he => ?_, hp⟩
          rcases List.mem_cons.mp he with rfl | he
          · exact hlt
          · exact Nat.lt_trans hlt (hp.1 e he)
        · rw [List.pairwise_cons]
          refine ⟨fun e he => ?_, ih hf hp.2⟩
          rcases mem_placeEntry.mp he with rfl | he
          · show x.1 < c; omega
          · exact hp.1 e he
  · intro e he
    rcases mem_placeEntry.mp he with rfl | he
    · exact hc
    · exact hw.2 e he

/-! ## Insert -/

/-- All `Insert` can do: it places the entry, where its requirement holds. -/
theorem insertEntry_eq_next {a : Agent} {s : Str} {c : Nat} {t t' : CodeTable} :
    insertEntry a s c t = .next t' ↔
      (firstCode ≤ c ∧ entryAt t c = none ∧ (a = .encoder → lookupStr t s = none) ∧ (a = .decoder → s ≠ [])) ∧
        t' = placeEntry c s t := by
  have hreq : insertAllowed a s c t = true ↔
      firstCode ≤ c ∧ entryAt t c = none ∧ (a = .encoder → lookupStr t s = none) ∧ (a = .decoder → s ≠ []) := by
    cases a <;> simp [insertAllowed, and_assoc]
  unfold insertEntry
  split
  · rename_i h
    simp only [Host.Outcome.next.injEq]
    exact ⟨fun e => ⟨hreq.mp h, e.symm⟩, fun e => e.2.symm⟩
  · rename_i h
    exact ⟨fun e => (by cases e), fun e => absurd (hreq.mpr e.1) h⟩

/-- Every insert keeps the canonical form. -/
theorem insertEntry_wf {a : Agent} {s : Str} {c : Nat} {t t' : CodeTable} (h : insertEntry a s c t = .next t')
    (hw : CodeTable.wf t = true) : CodeTable.wf t' = true := by
  obtain ⟨⟨hc, hf, -⟩, rfl⟩ := insertEntry_eq_next.mp h
  exact placeEntry_wf hw hc hf

/-! ## Lookup -/

@[simp] theorem lookupStr_single (t : CodeTable) (b : Byte) : lookupStr t [b] = some b.toNat := rfl

theorem lookupStr_long {t : CodeTable} {s : Str} (h : 2 ≤ s.length) : lookupStr t s = entryOf t s := by
  match s, h with
  | _ :: _ :: _, _ => rfl

theorem lookupCode_base {t : CodeTable} {c : Nat} (h : c ≤ 255) : lookupCode t c = some [BitVec.ofNat 8 c] := if_pos h

theorem lookupCode_entry {t : CodeTable} {c : Nat} (h : 256 ≤ c) : lookupCode t c = entryAt t c :=
  if_neg (by omega)

end Sys2Proof.Machine
end

