-- ==== Sys2Proof/Laws/Sync.lean ====
section
/-! SUPPORT. The growth event: what PRE, ADD and SYNC_GROW do, and that they keep the invariants (R28, R32, R104, R110, R111,
R117). -/

namespace Sys2Proof.Machine

variable {p : Params} {a : Agent}

/-! ## adaptive_codewidth_fsm -/

/-- Both bounds of R9, under R8. -/
theorem bounds_le (hp : p.legal) (fixed : Bool) : 9 ≤ (p.bounds fixed).1 ∧ (p.bounds fixed).1 ≤ (p.bounds fixed).2 := by
  obtain ⟨h1, h2, h3⟩ := hp
  cases fixed <;> simp [Params.bounds] <;> omega

theorem fsmInit_inv (hp : p.legal) (allow fixed : Bool) : (fsmInit p allow fixed).Inv p :=
  ⟨rfl, Nat.le_refl _, (bounds_le hp fixed).2, rfl⟩

theorem Fsm.Inv.nine_le {f : Fsm} (h : f.Inv p) (hp : p.legal) : 9 ≤ f.wMin := by
  have := (bounds_le hp f.fixed).1
  rw [← h.bounds] at this; exact this

/-- In static mode the two bounds are one. -/
theorem Fsm.Inv.static {f : Fsm} (h : f.Inv p) (hf : f.fixed = true) : f.wMin = p.wFixed ∧ f.wMax = p.wFixed ∧ f.w = p.wFixed := by
  have hb := h.bounds
  have h1 := h.min_le
  have h2 := h.le_max
  simp only [hf, Params.bounds, if_true, Prod.mk.injEq] at hb
  omega

/-- A table of the smallest width still has room for code 257 (R8, R110). -/
theorem firstCode_lt (w : Nat) (h : 9 ≤ w) : firstCode < 2 ^ w :=
  calc firstCode < 2 ^ 9 := by decide
    _ ≤ 2 ^ w := Nat.pow_le_pow_right (by decide) h

/-- R97: what each answer of FSM_CLASSIFY says. -/
theorem fsmClassify_cases (f : Fsm) (n : Nat) :
    (fsmClassify f n = .insert ∧ n < f.l) ∨ (fsmClassify f n = .grow ∧ f.l ≤ n ∧ f.w < f.wMax) ∨
    (fsmClassify f n = .reset ∧ f.l ≤ n ∧ f.wMax ≤ f.w ∧ f.allow = true) ∨
    (fsmClassify f n = .full ∧ f.l ≤ n ∧ f.wMax ≤ f.w ∧ f.allow = false) := by
  unfold fsmClassify
  split_ifs with h1 h2 h3
  · exact .inl ⟨rfl, h1⟩
  · exact .inr (.inl ⟨rfl, by omega, h2⟩)
  · exact .inr (.inr (.inl ⟨rfl, by omega, by omega, h3⟩))
  · exact .inr (.inr (.inr ⟨rfl, by omega, by omega, by simpa using h3⟩))

/-- R104: the width after the arm is the anticipated width. -/
theorem fsmApply_w {f : Fsm} (h : f.Inv p) (n : Nat) : (fsmApply (fsmClassify f n) f).w = fsmNextWidth f n := by
  unfold fsmNextWidth
  split
  · rename_i hf
    obtain ⟨h1, h2, h3⟩ := h.static hf
    rcases fsmClassify_cases f n with ⟨e, _⟩ | ⟨e, _, hlt⟩ | ⟨e, _⟩ | ⟨e, _⟩ <;> rw [e] <;> simp only [fsmApply] <;> omega
  · rcases fsmClassify_cases f n with ⟨e, _⟩ | ⟨e, _⟩ | ⟨e, _⟩ | ⟨e, _⟩ <;> rw [e] <;> rfl

/-- The arm FSM_CLASSIFY chose keeps R28. -/
theorem fsmApply_inv {f : Fsm} (h : f.Inv p) (n : Nat) : (fsmApply (fsmClassify f n) f).Inv p := by
  have h1 := h.min_le
  have h2 := h.le_max
  rcases fsmClassify_cases f n with ⟨e, _⟩ | ⟨e, _, hlt⟩ | ⟨e, _⟩ | ⟨e, _⟩ <;> rw [e]
  · exact h
  · exact ⟨h.bounds, by simp only [fsmApply]; omega, hlt, by simp only [fsmApply, h.cap]; ring⟩
  · exact ⟨h.bounds, Nat.le_refl _, by simp only [fsmApply]; omega, rfl⟩
  · exact h

@[simp] theorem fsmApply_allow (br : Branch) (f : Fsm) : (fsmApply br f).allow = f.allow := by cases br <;> rfl
@[simp] theorem fsmApply_fixed (br : Branch) (f : Fsm) : (fsmApply br f).fixed = f.fixed := by cases br <;> rfl
@[simp] theorem fsmApply_wMin (br : Branch) (f : Fsm) : (fsmApply br f).wMin = f.wMin := by cases br <;> rfl
@[simp] theorem fsmApply_wMax (br : Branch) (f : Fsm) : (fsmApply br f).wMax = f.wMax := by cases br <;> rfl

/-! ## dictionary_state_sync -/

theorem Sync.init_inv (hp : p.legal) (allow fixed : Bool) : (Sync.init p allow fixed).Inv p a := by
  refine ⟨fsmInit_inv hp allow fixed, Nat.le_refl _, ?_, by simp [Sync.init, baseTable], by simp [Sync.init, baseTable], by simp [Sync.init, baseTable]⟩
  exact Nat.le_of_lt (firstCode_lt _ (bounds_le hp fixed).1)

@[simp] theorem Sync.pre_fsm (br : Branch) (y : Sync) : (y.pre br).fsm = fsmApply br y.fsm := by cases br <;> rfl

/-- The codes of a sound table are below the counter. -/
theorem Sync.Inv.code_range {y : Sync} (h : y.Inv p a) {e : Nat × Str} (he : e ∈ y.table) : firstCode ≤ e.1 ∧ e.1 < y.n := by
  have : e.1 ∈ y.table.map (·.1) := List.mem_map_of_mem he
  rw [h.codes, List.mem_range'_1] at this
  have := h.low
  omega

theorem Sync.Inv.codes_nodup {y : Sync} (h : y.Inv p a) : (y.table.map (·.1)).Nodup := by
  rw [h.codes]; exact List.nodup_range'

/-- R32: the counter's own code is not defined. -/
theorem Sync.Inv.entryAt_n {y : Sync} (h : y.Inv p a) : entryAt y.table y.n = none := by
  rw [entryAt_eq_none, h.codes, List.mem_range'_1]
  have := h.low
  omega

/-- R32, R114: every code from 257 below the counter is defined. -/
theorem Sync.Inv.entryAt_some {y : Sync} (h : y.Inv p a) {c : Nat} (h1 : firstCode ≤ c) (h2 : c < y.n) :
    ∃ s, entryAt y.table c = some s ∧ 2 ≤ s.length := by
  cases he : entryAt y.table c with
  | none =>
    rw [entryAt_eq_none, h.codes, List.mem_range'_1] at he
    omega
  | some s => exact ⟨s, rfl, h.long _ (mem_of_entryAt he)⟩

/-- R110: PRE keeps the invariants. -/
theorem Sync.pre_inv {y : Sync} (h : y.Inv p a) (hp : p.legal) : (y.pre y.branch).Inv p a := by
  have hf := fsmApply_inv h.fsm y.n
  have h9 := h.fsm.nine_le hp
  unfold Sync.branch
  rcases fsmClassify_cases y.fsm y.n with ⟨e, hlt⟩ | ⟨e, hge, hlt⟩ | ⟨e, hge, _⟩ | ⟨e, hge, _⟩ <;> rw [e] at hf ⊢
  · exact ⟨hf, h.low, h.high, h.codes, h.long, h.unique⟩
  · refine ⟨hf, h.low, ?_, h.codes, h.long, h.unique⟩
    have := h.high
    simp only [Sync.pre, fsmApply]; omega
  · refine ⟨hf, Nat.le_refl _, ?_, by simp [Sync.pre, baseTable], by simp [Sync.pre, baseTable], by simp [Sync.pre, baseTable]⟩
    exact Nat.le_of_lt (firstCode_lt _ h9)
  · exact ⟨hf, h.low, h.high, h.codes, h.long, h.unique⟩

/-- R110, R87: after PRE there is room, unless the arm was FULL, and then the table is full. -/
theorem Sync.pre_room {y : Sync} (h : y.Inv p a) (hp : p.legal) :
    y.branch = .full ↔ (y.pre y.branch).n = (y.pre y.branch).fsm.l := by
  have h9 := h.fsm.nine_le hp
  have hi := h.high
  have hl := h.low
  have hc := h.fsm.cap
  unfold Sync.branch
  rcases fsmClassify_cases y.fsm y.n with ⟨e, hlt⟩ | ⟨e, hge, hlt⟩ | ⟨e, hge, _⟩ | ⟨e, hge, _⟩ <;> rw [e]
  · simp only [Sync.pre, fsmApply]; constructor
    · intro hh; cases hh
    · omega
  · simp only [Sync.pre, fsmApply, firstCode] at *; constructor
    · intro hh; cases hh
    · omega
  · simp only [Sync.pre, fsmApply]; constructor
    · intro hh; cases hh
    · have := firstCode_lt _ h9; omega
  · simp only [Sync.pre, fsmApply]; constructor
    · intro; omega
    · intro; trivial

/-- What ADD leaves: the entry at the end of the table, unless the arm was FULL. -/
def Sync.added (br : Branch) (entry : Str) (y : Sync) : Sync :=
  if br = .full then y else { y with n := y.n + 1, table := y.table ++ [(y.n, entry)] }

@[simp] theorem Sync.added_fsm (br : Branch) (entry : Str) (y : Sync) : (y.added br entry).fsm = y.fsm := by
  unfold Sync.added; split <;> rfl

/-- R111, R117: ADD meets the requirement of its `Insert`, and what it leaves. -/
theorem Sync.add_eq {y : Sync} (h : y.Inv p a) {br : Branch} {entry : Str} (he : 2 ≤ entry.length)
    (hk : a = .encoder → lookupStr y.table entry = none) : y.add a br entry = .next (y.added br entry) := by
  have hins : insertEntry a entry y.n y.table = .next (y.table ++ [(y.n, entry)]) := by
    rw [insertEntry_eq_next]
    refine ⟨⟨h.low, h.entryAt_n, hk, ?_⟩, ?_⟩
    · rintro - rfl; simp at he
    · exact (placeEntry_append fun e he => (h.code_range he).2).symm
  cases br <;> simp [Sync.add, Sync.added, hins]

/-- R111: ADD keeps the invariants where there is room. -/
theorem Sync.added_inv {y : Sync} (h : y.Inv p a) {br : Branch} (hroom : br = .full ↔ y.n = y.fsm.l) {entry : Str}
    (he : 2 ≤ entry.length) (hk : a = .encoder → lookupStr y.table entry = none) : (y.added br entry).Inv p a := by
  unfold Sync.added
  split
  · exact h
  · rename_i hb
    have hn : y.n ≠ y.fsm.l := fun e => hb (hroom.mpr e)
    have hi := h.high
    have hl := h.low
    refine ⟨h.fsm, by show firstCode ≤ y.n + 1; omega, by show y.n + 1 ≤ y.fsm.l; omega, ?_, ?_, ?_⟩
    · have : y.n + 1 - firstCode = (y.n - firstCode) + 1 := by omega
      simp only [List.map_append, List.map_cons, List.map_nil, h.codes, this, List.range'_concat]
      simp; omega
    · intro e hm
      rcases List.mem_append.mp hm with hm | hm
      · exact h.long e hm
      · simp at hm; subst hm; exact he
    · intro ha
      have hnone := hk ha
      rw [lookupStr_long he, entryOf_eq_none] at hnone
      simp only [List.map_append, List.map_cons, List.map_nil]
      rw [List.nodup_append]
      refine ⟨h.unique ha, by simp, ?_⟩
      intro x hx z hz
      simp at hz; subst hz
      rintro rfl; exact hnone hx

/-- The sides do not matter to what ADD leaves (R115). -/
theorem Sync.Inv.side {y : Sync} (h : y.Inv p a) : y.Inv p .decoder :=
  ⟨h.fsm, h.low, h.high, h.codes, h.long, by intro hh; cases hh⟩

/-- R112: the growth event as one operation, in a state that has no such entry yet. -/
def Sync.grown (entry : Str) (y : Sync) : Sync := (y.pre y.branch).added y.branch entry

/-- A string that is no key stays none after PRE. -/
theorem Sync.pre_lookupStr {y : Sync} {s : Str} (h : lookupStr y.table s = none) (br : Branch) :
    lookupStr (y.pre br).table s = none := by
  cases br <;> try exact h
  match s, h with
  | [], _ => rfl
  | _ :: _ :: _, _ => rfl

theorem Sync.grow_eq {y : Sync} (h : y.Inv p .encoder) (hp : p.legal) {entry : Str} (he : 2 ≤ entry.length)
    (hk : lookupStr y.table entry = none) : y.grow entry = .next (y.grown entry) :=
  Sync.add_eq (Sync.pre_inv h hp) he fun _ => Sync.pre_lookupStr hk _

theorem Sync.grown_inv {y : Sync} (h : y.Inv p a) (hp : p.legal) {entry : Str} (he : 2 ≤ entry.length)
    (hk : a = .encoder → lookupStr y.table entry = none) : (y.grown entry).Inv p a :=
  Sync.added_inv (Sync.pre_inv h hp) (Sync.pre_room h hp) he fun ha => Sync.pre_lookupStr (hk ha) _

/-- R104, R116: the width after a growth event is the anticipated width before it. -/
theorem Sync.grown_w {y : Sync} (h : y.Inv p a) (entry : Str) : (y.grown entry).fsm.w = fsmNextWidth y.fsm y.n := by
  rw [Sync.grown, Sync.added_fsm, Sync.pre_fsm]
  exact fsmApply_w h.fsm y.n

end Sys2Proof.Machine
end

