-- ==== Sys2Proof/Laws/Decoder.lean ====
section
/-! SUPPORT. What the operations of the decoder do, and that they keep its invariant (R133 to R151). -/

namespace Sys2Proof.Machine

variable {p : Params}

/-! ## Leaving and entering a stream -/

theorem Decoder.trap_inv (d : Decoder) {e : DecErr} (he : e ≠ .none) : (d.trap e).Inv p where
  busy := fun h => by simp [Decoder.busy] at h
  started := fun h => by simp at h
  first := fun h => by cases h
  run := fun h => by cases h
  step := fun br h => by cases h
  idle := fun h => by cases h
  done := fun h => by cases h
  error := fun _ => ⟨he, rfl⟩

theorem Decoder.start_inv (d : Decoder) : d.start.Inv p where
  busy := fun _ => ⟨rfl, rfl, rfl⟩
  started := fun h => by simp at h
  first := fun h => by cases h
  run := fun h => by cases h
  step := fun br h => by cases h
  idle := fun h => by cases h
  done := fun h => by cases h
  error := fun h => by cases h

/-- The decoder after the normal end of a stream. -/
def Decoder.finished (d : Decoder) : Decoder :=
  { d with out := { d.out with closed := true }, phase := .done, midStep := none }

theorem Decoder.finish_eq {d : Decoder} (h : d.out.closed = false) : d.finish = .next d.finished := by
  simp [Decoder.finish, Decoder.closeOut, h, Decoder.finished]

theorem Decoder.finished_inv {d : Decoder} (h : d.err = .none) : d.finished.Inv p where
  busy := fun hh => by simp [Decoder.busy, Decoder.finished] at hh
  started := fun hh => by simp [Decoder.finished] at hh
  first := fun hh => by cases hh
  run := fun hh => by cases hh
  step := fun br hh => by cases hh
  idle := fun hh => by cases hh
  done := fun _ => ⟨h, rfl⟩
  error := fun hh => by cases hh

/-! ## HDR and FIRST (R134, R136) -/

@[simp] theorem Decoder.headed_phase (p : Params) (r f : Bool) (d : Decoder) : (d.headed p r f).phase = .first := rfl
@[simp] theorem Decoder.headed_sync (p : Params) (r f : Bool) (d : Decoder) :
    (d.headed p r f).sync = .put (Sync.init p r f) := rfl
@[simp] theorem Decoder.headed_val (p : Params) (r f : Bool) (d : Decoder) :
    (d.headed p r f).val = .write (Config.valAtHeader d.freeVals) := rfl
@[simp] theorem Decoder.headed_freeVals (p : Params) (r f : Bool) (d : Decoder) :
    (d.headed p r f).freeVals = d.freeVals + 1 := rfl
@[simp] theorem Decoder.headed_err (p : Params) (r f : Bool) (d : Decoder) : (d.headed p r f).err = d.err := rfl
@[simp] theorem Decoder.headed_pos (p : Params) (r f : Bool) (d : Decoder) : (d.headed p r f).pos = d.pos := rfl
@[simp] theorem Decoder.headed_inp (p : Params) (r f : Bool) (d : Decoder) : (d.headed p r f).inp = d.inp := rfl
@[simp] theorem Decoder.headed_out (p : Params) (r f : Bool) (d : Decoder) : (d.headed p r f).out = d.out := rfl

theorem Decoder.Inv.headed {d : Decoder} (h : d.Inv p) (hp : p.legal) (hph : d.phase = .hdr) (r f : Bool) :
    (d.headed p r f).Inv p where
  busy := fun _ => h.busy (by simp [Decoder.busy, hph])
  started := fun _ => ⟨rfl, Sync.init_inv hp r f⟩
  first := fun _ => ⟨rfl, rfl⟩
  run := fun hh => by cases hh
  step := fun br hh => by
    have := (h.step br hh).1
    rw [hph] at this; cases this
  idle := fun hh => by cases hh
  done := fun hh => by cases hh
  error := fun hh => by cases hh

/-- The decoder after a first codeword that is the string `s`. -/
def Decoder.opened (s : Str) (d : Decoder) : Decoder := { d with val := .write s, phase := .run }

theorem Decoder.Inv.opened {d : Decoder} (h : d.Inv p) (hph : d.phase = .first) {s : Str} (hs : s ≠ []) :
    (d.opened s).Inv p where
  busy := fun _ => h.busy (by simp [Decoder.busy, hph])
  started := fun _ => h.started (.inl hph)
  first := fun hh => by cases hh
  run := fun _ => ⟨rfl, hs⟩
  step := fun br hh => by
    have := (h.step br hh).1
    rw [hph] at this; cases this
  idle := fun hh => by cases hh
  done := fun hh => by cases hh
  error := fun hh => by cases hh

/-! ## The beginning of a `RUN` step (R139) -/

/-- The decoder after the beginning of a `RUN` step: unchanged, if the step has begun already. -/
def Decoder.begun (d : Decoder) : Decoder :=
  match d.midStep with
  | some _ => d
  | none =>
    { d with
      out := { d.out with bytes := d.out.bytes ++ d.val.value }
      sync := .put (d.sync.values.pre d.sync.values.branch), midStep := some d.sync.values.branch }

theorem Decoder.begin_eq {d : Decoder} (ho : d.out.closed = false) : d.begin = .next d.begun := by
  unfold Decoder.begin Decoder.begun
  cases d.midStep with
  | some br => rfl
  | none => simp [Decoder.emit, ho]

@[simp] theorem Decoder.begun_phase (d : Decoder) : d.begun.phase = d.phase := by
  unfold Decoder.begun; split <;> rfl
@[simp] theorem Decoder.begun_err (d : Decoder) : d.begun.err = d.err := by
  unfold Decoder.begun; split <;> rfl
@[simp] theorem Decoder.begun_val (d : Decoder) : d.begun.val = d.val := by
  unfold Decoder.begun; split <;> rfl
@[simp] theorem Decoder.begun_pos (d : Decoder) : d.begun.pos = d.pos := by
  unfold Decoder.begun; split <;> rfl
@[simp] theorem Decoder.begun_inp (d : Decoder) : d.begun.inp = d.inp := by
  unfold Decoder.begun; split <;> rfl
@[simp] theorem Decoder.begun_nextInp (d : Decoder) : d.begun.nextInp = d.nextInp := by
  unfold Decoder.begun; split <;> rfl
@[simp] theorem Decoder.begun_freeVals (d : Decoder) : d.begun.freeVals = d.freeVals := by
  unfold Decoder.begun; split <;> rfl
@[simp] theorem Decoder.begun_held (d : Decoder) : d.begun.held = d.held := by
  unfold Decoder.begun; split <;> rfl
@[simp] theorem Decoder.begun_closed (d : Decoder) : d.begun.out.closed = d.out.closed := by
  unfold Decoder.begun; split <;> rfl

/-- A step that has begun is in progress. -/
theorem Decoder.begun_midStep (d : Decoder) : ∃ br, d.begun.midStep = some br := by
  unfold Decoder.begun
  split
  · rename_i br h; exact ⟨br, h⟩
  · exact ⟨_, rfl⟩

theorem Decoder.Inv.begun {d : Decoder} (h : d.Inv p) (hp : p.legal) (hph : d.phase = .run) : d.begun.Inv p where
  busy := fun _ => by simpa using h.busy (by simp [Decoder.busy, hph])
  started := fun _ => by
    obtain ⟨hs, hi⟩ := h.started (.inr hph)
    unfold Decoder.begun
    split
    · exact ⟨hs, hi⟩
    · exact ⟨rfl, Sync.pre_inv hi hp⟩
  first := fun hh => by simp [hph] at hh
  run := fun _ => by simpa using h.run hph
  step := fun br hh => by
    refine ⟨by simpa using hph, ?_⟩
    unfold Decoder.begun at hh ⊢
    split at hh
    · exact (h.step br hh).2
    · cases hh
      exact Sync.pre_room (h.started (.inr hph)).2 hp
  idle := fun hh => by simp [hph] at hh
  done := fun hh => by simp [hph] at hh
  error := fun hh => by simp [hph] at hh

/-! ## The end of a `RUN` step (R145) -/

/-- The decoder after DEC_TAIL(s) where the capacity is not exceeded. -/
def Decoder.tailed (br : Branch) (s : Str) (d : Decoder) : Decoder :=
  { d with
    sync := .put (d.sync.values.added br (d.val.value ++ s.take 1)), val := .write s, midStep := none }

theorem Decoder.tail_eq {d : Decoder} (hne : d.val.value ≠ [])
    (hi : d.sync.values.Inv p .decoder) (cap : Option Nat) (br : Branch) {s : Str} (h : s ≠ []) :
    d.tail cap br s = .next (if overCapacity cap br d.val.value s then d.trap .capacity else d.tailed br s) := by
  unfold Decoder.tail
  split
  · rfl
  · match s, h with
    | b :: s', _ =>
      have hlen : 2 ≤ (d.val.value ++ [b]).length := by
        have := List.length_pos_iff.mpr hne
        simp; omega
      simp only
      rw [Sync.add_eq hi hlen (by intro hh; cases hh), andThen_next]
      rfl

theorem Decoder.Inv.tailed {d : Decoder} (h : d.Inv p) {br : Branch} (hbr : d.midStep = some br) {s : Str}
    (hs : s ≠ []) : (d.tailed br s).Inv p := by
  obtain ⟨hph, hroom⟩ := h.step br hbr
  obtain ⟨-, hi⟩ := h.started (.inr hph)
  have hlen : 2 ≤ (d.val.value ++ s.take 1).length := by
    have h1 := List.length_pos_iff.mpr (h.run hph).2
    have h2 := List.length_pos_iff.mpr hs
    simp; omega
  exact
    { busy := fun _ => h.busy (by simp [Decoder.busy, hph])
      started := fun _ => ⟨rfl, Sync.added_inv hi hroom hlen (by intro hh; cases hh)⟩
      first := fun hh => by simp [Decoder.tailed, hph] at hh
      run := fun _ => ⟨rfl, hs⟩
      step := fun br hh => by cases hh
      idle := fun hh => by simp [Decoder.tailed, hph] at hh
      done := fun hh => by simp [Decoder.tailed, hph] at hh
      error := fun hh => by simp [Decoder.tailed, hph] at hh }

/-- What DEC_TAIL leaves, in either case. -/
def Decoder.tailOf (cap : Option Nat) (br : Branch) (s : Str) (d : Decoder) : Decoder :=
  if overCapacity cap br d.val.value s then d.trap .capacity else d.tailed br s

theorem Decoder.Inv.tailOf {d : Decoder} (h : d.Inv p) {br : Branch} (hbr : d.midStep = some br) (cap : Option Nat)
    {s : Str} (hs : s ≠ []) : (d.tailOf cap br s).Inv p := by
  unfold Decoder.tailOf
  split
  · exact d.trap_inv (by decide)
  · exact Decoder.Inv.tailed h hbr hs

theorem Decoder.tail_eq_tailOf {d : Decoder} (h : d.Inv p) {br : Branch} (hbr : d.midStep = some br) (cap : Option Nat)
    {s : Str} (hs : s ≠ []) : d.tail cap br s = .next (d.tailOf cap br s) := by
  obtain ⟨hph, -⟩ := h.step br hbr
  obtain ⟨-, hi⟩ := h.started (.inr hph)
  obtain ⟨-, hne⟩ := h.run hph
  exact Decoder.tail_eq hne hi cap br hs

/-! ## Resolving a codeword (R114, R141, R142) -/

/-- Every code up to 255, and every code from 257 below the counter, is defined, by a non-empty string. -/
theorem lookupCode_some {y : Sync} {a : Agent} (h : y.Inv p a) {v : Nat} (hv : v ≤ 255 ∨ (firstCode ≤ v ∧ v < y.n)) :
    ∃ s, lookupCode y.table v = some s ∧ s ≠ [] := by
  rcases hv with hv | ⟨h1, h2⟩
  · exact ⟨_, lookupCode_base hv, by simp⟩
  · obtain ⟨s, hs, hl⟩ := h.entryAt_some h1 h2
    refine ⟨s, ?_, by rintro rfl; simp at hl⟩
    rw [lookupCode_entry (by simp only [firstCode] at h1; omega), hs]

theorem Decoder.resolve_eq {d : Decoder} (h : d.Inv p) {br : Branch} (hbr : d.midStep = some br) (cap : Option Nat)
    {v : Nat} {s : Str} (hs : lookupCode d.sync.values.table v = some s) (hne : s ≠ []) :
    d.resolve cap br v = .next (d.tailOf cap br s) := by
  obtain ⟨hph, -⟩ := h.step br hbr
  unfold Decoder.resolve
  simp only [hs]
  exact Decoder.tail_eq_tailOf h hbr cap hne

theorem Decoder.inStep_eq {d : Decoder} {br : Branch} (hph : d.phase = .run) (hbr : d.midStep = some br) :
    d.inStep = .next br := by
  simp [Decoder.inStep, hph, hbr]

theorem Decoder.inStep_eq_next {d : Decoder} {br : Branch} : d.inStep = .next br ↔ d.phase = .run ∧ d.midStep = some br := by
  unfold Decoder.inStep
  split
  · rename_i b h1 h2; simp [h1, h2]
  · rename_i h
    constructor
    · intro hh; cases hh
    · rintro ⟨h1, h2⟩; exact absurd h2 (h br h1)

/-! ## The input -/

/-- Reading moves along the input and the position: nothing the invariant speaks of. -/
theorem Decoder.Inv.moved {d : Decoder} (h : d.Inv p) (i : BitIn) (k : Nat) :
    ({ d with inp := i, pos := .write k } : Decoder).Inv p where
  busy := fun hh => ⟨(h.busy hh).1, (h.busy hh).2.1, rfl⟩
  started := h.started
  first := h.first
  run := h.run
  step := h.step
  idle := h.idle
  done := h.done
  error := h.error

theorem Decoder.Inv.withInputs {d : Decoder} (h : d.Inv p) (i j : BitIn) (b : Bool) :
    ({ d with inp := i, nextInp := j, held := b } : Decoder).Inv p where
  busy := h.busy
  started := h.started
  first := h.first
  run := h.run
  step := h.step
  idle := h.idle
  done := h.done
  error := h.error

/-- All the answers of a read, with what each says. -/
theorem BitIn.read_cases (u : Underrun) (n : Nat) (i : BitIn) :
    (n ≤ i.bits.length ∧ i.read u n = .bits (i.bits.take n) (i.bits.drop n)) ∨
    (i.bits.length < n ∧ (i.ended = true ∨ u = .short) ∧ i.read u n = .short) ∨
    (i.bits.length < n ∧ i.ended = false ∧ u = .block ∧ i.read u n = .blocked) := by
  unfold BitIn.read
  by_cases h : n ≤ i.bits.length
  · exact .inl ⟨h, if_pos h⟩
  · rw [if_neg h]
    cases hi : i.ended <;> cases u <;> simp <;> omega

end Sys2Proof.Machine
end

