-- ==== Sys2Proof/Laws/Encoder.lean ====
section
/-! SUPPORT. What the operations of the encoder do, and that they keep its invariant (R120 to R132). -/

namespace Sys2Proof.Machine

variable {p : Params}

/-! ## The output -/

/-- The encoder after `WriteBits(v, n)`. -/
def Encoder.wrote (o : BitOrder) (v n : Nat) (e : Encoder) : Encoder :=
  { e with out := { e.out with bits := e.out.bits ++ valueBits o v n }, nbits := .write (e.nbits.value + n) }

/-- R59: `WriteBits` where its requirement holds and the output is open. -/
theorem Encoder.writeBits_eq {e : Encoder} (ho : e.out.closed = false) (o : BitOrder)
    {v n : Nat} (h0 : n ≠ 0) (hv : v < 2 ^ n) : e.writeBits o v n = .next (e.wrote o v n) := by
  have : ¬ (n = 0 ∨ 2 ^ n ≤ v) := by omega
  simp [Encoder.writeBits, ho, this, Encoder.wrote]

/-- All `WriteBits` can do. -/
theorem Encoder.writeBits_eq_next {o : BitOrder} {v n : Nat} {e e' : Encoder} (h : e.writeBits o v n = .next e') :
    e.out.closed = false ∧ n ≠ 0 ∧ v < 2 ^ n ∧ e' = e.wrote o v n := by
  unfold Encoder.writeBits at h
  split at h
  · cases h
  · rename_i ho
    split at h
    · cases h
    · rename_i hv
      cases h
      exact ⟨by simpa using ho, by omega, by omega, rfl⟩

@[simp] theorem Encoder.wrote_phase (o : BitOrder) (v n : Nat) (e : Encoder) : (e.wrote o v n).phase = e.phase := rfl
@[simp] theorem Encoder.wrote_sync (o : BitOrder) (v n : Nat) (e : Encoder) : (e.wrote o v n).sync = e.sync := rfl
@[simp] theorem Encoder.wrote_cur (o : BitOrder) (v n : Nat) (e : Encoder) : (e.wrote o v n).cur = e.cur := rfl
@[simp] theorem Encoder.wrote_freeCurs (o : BitOrder) (v n : Nat) (e : Encoder) : (e.wrote o v n).freeCurs = e.freeCurs := rfl
@[simp] theorem Encoder.wrote_held (o : BitOrder) (v n : Nat) (e : Encoder) : (e.wrote o v n).held = e.held := rfl
@[simp] theorem Encoder.wrote_nbits (o : BitOrder) (v n : Nat) (e : Encoder) :
    (e.wrote o v n).nbits = .write (e.nbits.value + n) := rfl
@[simp] theorem Encoder.wrote_closed (o : BitOrder) (v n : Nat) (e : Encoder) :
    (e.wrote o v n).out.closed = e.out.closed := rfl
@[simp] theorem Encoder.wrote_bits (o : BitOrder) (v n : Nat) (e : Encoder) :
    (e.wrote o v n).out.bits = e.out.bits ++ valueBits o v n := rfl

/-- The encoder after `CloseOut()`. -/
def Encoder.flushed (e : Encoder) : Encoder :=
  { e with out := { bits := e.out.bits ++ List.replicate (padLength e.nbits.value) false, closed := true } }

theorem Encoder.closeOut_eq {e : Encoder} (ho : e.out.closed = false) :
    e.closeOut = .next e.flushed := by
  simp [Encoder.closeOut, ho, Encoder.flushed]

@[simp] theorem Encoder.flushed_phase (e : Encoder) : e.flushed.phase = e.phase := rfl
@[simp] theorem Encoder.flushed_sync (e : Encoder) : e.flushed.sync = e.sync := rfl
@[simp] theorem Encoder.flushed_cur (e : Encoder) : e.flushed.cur = e.cur := rfl
@[simp] theorem Encoder.flushed_nbits (e : Encoder) : e.flushed.nbits = e.nbits := rfl
@[simp] theorem Encoder.flushed_freeCurs (e : Encoder) : e.flushed.freeCurs = e.freeCurs := rfl
@[simp] theorem Encoder.flushed_held (e : Encoder) : e.flushed.held = e.held := rfl
@[simp] theorem Encoder.flushed_closed (e : Encoder) : e.flushed.out.closed = true := rfl
@[simp] theorem Encoder.flushed_bits (e : Encoder) :
    e.flushed.out.bits = e.out.bits ++ List.replicate (padLength e.nbits.value) false := rfl

/-- R56, R79: the padding fills the last byte. -/
theorem add_padLength (N : Nat) : (N + padLength N) % 8 = 0 := by unfold padLength; omega

/-- A one-bit write is that bit, in either bit order. -/
theorem valueBits_bit (o : BitOrder) (b : Bool) : valueBits o b.toNat 1 = [b] := by
  cases o <;> cases b <;> rfl

/-! ## ENC_START (R120) -/

/-- The encoder just started: header written, `EMPTY`. -/
def Encoder.started (p : Params) (r f : Bool) (e : Encoder) : Encoder :=
  { e with
    phase := .empty, sync := .put (Sync.init p r f), nbits := .write headerBits
    cur := .write (Config.curAtStart e.freeCurs), freeCurs := e.freeCurs + 1
    out := { bits := [r, decide ((p.bounds f).1 = (p.bounds f).2)], closed := false } }

theorem Encoder.start_eq (p : Params) (r f : Bool) (e : Encoder) : e.start p r f = .next (e.started p r f) := by
  unfold Encoder.start
  simp only
  have hw : ∀ b : Bool, b.toNat < 2 ^ 1 := by decide
  have hb : (if (Sync.init p r f).fsm.wMin = (Sync.init p r f).fsm.wMax then 1 else 0) =
      (decide ((p.bounds f).1 = (p.bounds f).2)).toNat := by
    by_cases h : (p.bounds f).1 = (p.bounds f).2 <;> simp [Sync.init, fsmInit, h]
  rw [Encoder.writeBits_eq (by rfl) _ (by decide) (hw _)]
  rw [andThen_next, hb, Encoder.writeBits_eq (by rfl) _ (by decide) (hw _), andThen_next]
  simp [Encoder.wrote, valueBits_bit, Encoder.started, headerBits, BitOut.fresh, Sync.init, fsmInit]

/-- R24, R120: the second header bit is the fixed-width flag. -/
theorem bounds_eq_iff (hp : p.legal) (f : Bool) : decide ((p.bounds f).1 = (p.bounds f).2) = f := by
  obtain ⟨h1, h2, h3⟩ := hp
  cases f
  · simp [Params.bounds]; omega
  · simp [Params.bounds]

theorem Encoder.started_inv (hp : p.legal) (r f : Bool) (e : Encoder) : (e.started p r f).Inv p where
  started := fun _ => ⟨rfl, rfl, Sync.init_inv hp r f⟩
  opened := fun _ => ⟨rfl, rfl⟩
  empty := fun _ => ⟨rfl, rfl⟩
  run := fun h => by cases h
  done := fun h => by cases h

/-! ## ENC_FIRST and ENC_EXTEND (R122, R123) -/

/-- A one-byte string is known in every dictionary. -/
theorem curKnown_single (t : CodeTable) (b : Byte) : curKnown t [b] := by
  refine ⟨by simp, fun k h1 h2 => ?_⟩
  have : k = 1 := by simp at h2; omega
  subst this; rfl

theorem curKnown.extend {t : CodeTable} {cur : Str} {b : Byte} (h : curKnown t cur) (hk : (lookupStr t (cur ++ [b])).isSome) :
    curKnown t (cur ++ [b]) := by
  refine ⟨by simp, fun k h1 h2 => ?_⟩
  rw [List.length_append, List.length_singleton] at h2
  by_cases hle : k ≤ cur.length
  · rw [List.take_append_of_le_length hle]; exact h.2 k h1 hle
  · have : k = (cur ++ [b]).length := by simp; omega
    rw [this, List.take_length]; exact hk

/-- R34, R113: `cur` is a key. -/
theorem curKnown.isSome {t : CodeTable} {cur : Str} (h : curKnown t cur) : (lookupStr t cur).isSome := by
  have := h.2 cur.length (List.length_pos_iff.mpr h.1) (Nat.le_refl _)
  rwa [List.take_length] at this

theorem Encoder.Inv.first {e : Encoder} (h : e.Inv p) (hph : e.phase = .empty) (b : Byte) :
    ({ e with cur := .write [b], phase := .run } : Encoder).Inv p where
  started := fun _ => h.started (by simp [hph])
  opened := fun _ => h.opened (by simp [Encoder.busy, hph])
  empty := fun hh => by cases hh
  run := fun _ => ⟨rfl, curKnown_single _ b⟩
  done := fun hh => by cases hh

theorem Encoder.Inv.extend {e : Encoder} (h : e.Inv p) (hph : e.phase = .run) {b : Byte}
    (hk : (lookupStr e.sync.values.table (e.cur.value ++ [b])).isSome) :
    ({ e with cur := .write (e.cur.value ++ [b]) } : Encoder).Inv p where
  started := fun hh => h.started hh
  opened := fun hh => h.opened hh
  empty := fun hh => by rw [hph] at hh; cases hh
  run := fun _ => ⟨rfl, (h.run hph).2.extend hk⟩
  done := fun hh => by rw [hph] at hh; cases hh

/-! ## Writing a codeword -/

/-- R124: a code of the dictionary fits the width. -/
theorem lookupStr_lt {y : Sync} {a : Agent} (h : y.Inv p a) {s : Str} {c : Nat}
    (hc : lookupStr y.table s = some c) : c < y.n ∧ c ≠ sentinelCode ∧ c < 2 ^ y.fsm.w := by
  have hl := h.low
  have hh := h.high
  have hw := h.fsm.cap
  simp only [firstCode, sentinelCode] at *
  by_cases h2 : 2 ≤ s.length
  · rw [lookupStr_long h2] at hc
    have := h.code_range (mem_of_entryOf hc)
    simp only [firstCode] at this
    omega
  · match s, h2, hc with
    | [], _, hc =>
      have := h.long _ (mem_of_entryOf hc)
      simp at this
    | [b], _, hc =>
      have hb := b.isLt
      simp only [lookupStr_single, Option.some.injEq] at hc
      omega
    | _ :: _ :: _, h2, _ => simp at h2

theorem Sync.Inv.w_pos {y : Sync} {a : Agent} (h : y.Inv p a) (hp : p.legal) : 9 ≤ y.fsm.w :=
  Nat.le_trans (h.fsm.nine_le hp) h.fsm.min_le

/-- R105: the anticipated width is within the bounds. -/
theorem fsmNextWidth_range {f : Fsm} (h : f.Inv p) (n : Nat) : f.wMin ≤ fsmNextWidth f n ∧ fsmNextWidth f n ≤ f.wMax := by
  have := fsmApply_inv h n
  rw [← fsmApply_w h n]
  exact ⟨by simpa using this.min_le, by simpa using this.le_max⟩

/-- R127: the sentinel fits the anticipated width. -/
theorem sentinel_fits {y : Sync} {a : Agent} (h : y.Inv p a) (hp : p.legal) :
    fsmNextWidth y.fsm y.n ≠ 0 ∧ sentinelCode < 2 ^ fsmNextWidth y.fsm y.n := by
  have h9 := h.fsm.nine_le hp
  have := (fsmNextWidth_range h.fsm y.n).1
  refine ⟨by omega, ?_⟩
  calc sentinelCode < 2 ^ 9 := by decide
    _ ≤ _ := Nat.pow_le_pow_right (by decide) (by omega)

/-! ## ENC_EMIT (R124) -/

/-- The encoder after ENC_EMIT, `c` being the code of `cur`. -/
def Encoder.emitted (o : BitOrder) (c : Nat) (b : Byte) (e : Encoder) : Encoder :=
  { e.wrote o c e.sync.values.fsm.w with
    sync := .put (e.sync.values.grown (e.cur.value ++ [b])), cur := .write [b] }

theorem Encoder.emit_eq {e : Encoder} (h : e.Inv p) (hp : p.legal) (hph : e.phase = .run) {b : Byte} {c : Nat}
    (hc : lookupStr e.sync.values.table e.cur.value = some c)
    (hk : lookupStr e.sync.values.table (e.cur.value ++ [b]) = none) (o : BitOrder) :
    e.emit o b = .next (e.emitted o c b) := by
  obtain ⟨hs, hn, hi⟩ := h.started (by simp [hph])
  obtain ⟨-, hck⟩ := h.run hph
  have hbusy := h.opened (by simp [Encoder.busy, hph])
  have hlen : 2 ≤ (e.cur.value ++ [b]).length := by
    have := List.length_pos_iff.mpr hck.1
    simp; omega
  have hw := hi.w_pos hp
  unfold Encoder.emit
  simp only [codeOfCur, hc, andThen_next, fsmWidth]
  rw [Encoder.writeBits_eq hbusy.1 o (by omega) (lookupStr_lt hi hc).2.2, andThen_next,
    Sync.grow_eq hi hp hlen hk, andThen_next]
  rfl

theorem Encoder.Inv.emitted {e : Encoder} (h : e.Inv p) (hp : p.legal) (hph : e.phase = .run) {b : Byte} {c : Nat}
    (hk : lookupStr e.sync.values.table (e.cur.value ++ [b]) = none) (o : BitOrder) : (e.emitted o c b).Inv p where
  started := fun _ => by
    obtain ⟨hs, hn, hi⟩ := h.started (by simp [hph])
    have hlen : 2 ≤ (e.cur.value ++ [b]).length := by
      have := List.length_pos_iff.mpr (h.run hph).2.1
      simp; omega
    exact ⟨rfl, rfl, Sync.grown_inv hi hp hlen fun _ => hk⟩
  opened := fun _ => by
    have hb := h.opened (by simp [Encoder.busy, hph])
    exact ⟨hb.1, by simp [Encoder.emitted, hb.2]⟩
  empty := fun hh => by simp [Encoder.emitted, hph] at hh
  run := fun _ => ⟨rfl, curKnown_single _ b⟩
  done := fun hh => by simp [Encoder.emitted, hph] at hh

/-! ## The end of a stream (R125 to R128) -/

/-- The encoder after SENTINEL_WRITE, CLOSE and `phase <- DONE`. -/
def Encoder.ended (o : BitOrder) (e : Encoder) : Encoder :=
  { (e.wrote o sentinelCode (fsmNextWidth e.sync.values.fsm e.sync.values.n)).flushed with phase := .done }

theorem Encoder.sentinelWrite_eq {e : Encoder}
    (ho : e.out.closed = false) {a : Agent} (hi : e.sync.values.Inv p a) (hp : p.legal) (o : BitOrder) :
    e.sentinelWrite o = .next (e.wrote o sentinelCode (fsmNextWidth e.sync.values.fsm e.sync.values.n)) := by
  obtain ⟨h0, hv⟩ := sentinel_fits hi hp
  simp [Encoder.sentinelWrite, Encoder.writeBits_eq ho o h0 hv]

theorem Encoder.endEmpty_eq {e : Encoder} (h : e.Inv p) (hp : p.legal) (hph : e.phase = .empty) (o : BitOrder) :
    e.endEmpty o = .next (e.ended o) := by
  obtain ⟨hs, hn, hi⟩ := h.started (by simp [hph])
  have hb := h.opened (by simp [Encoder.busy, hph])
  unfold Encoder.endEmpty
  rw [Encoder.sentinelWrite_eq hb.1 hi hp o, andThen_next,
    Encoder.closeOut_eq (by simpa using hb.1), andThen_next]
  rfl

theorem Encoder.endRun_eq {e : Encoder} (h : e.Inv p) (hp : p.legal) (hph : e.phase = .run) {c : Nat}
    (hc : lookupStr e.sync.values.table e.cur.value = some c) (o : BitOrder) :
    e.endRun o = .next ((e.wrote o c e.sync.values.fsm.w).ended o) := by
  obtain ⟨hs, hn, hi⟩ := h.started (by simp [hph])
  have hb := h.opened (by simp [Encoder.busy, hph])
  have hw := hi.w_pos hp
  unfold Encoder.endRun
  simp only [codeOfCur, hc, andThen_next, fsmWidth]
  rw [Encoder.writeBits_eq hb.1 o (by omega) (lookupStr_lt hi hc).2.2, andThen_next,
    Encoder.sentinelWrite_eq (by simpa using hb.1) (by simpa using hi) hp o, andThen_next,
    Encoder.closeOut_eq (by simpa using hb.1), andThen_next]
  rfl

theorem Encoder.ended_inv {e : Encoder} (hs : e.sync.written = true) (hi : e.sync.values.Inv p .encoder)
    (hl : e.out.bits.length = e.nbits.value) (o : BitOrder) : (e.ended o).Inv p where
  started := fun _ => ⟨hs, rfl, hi⟩
  opened := fun hh => by simp [Encoder.busy, Encoder.ended] at hh
  empty := fun hh => by cases hh
  run := fun hh => by cases hh
  done := fun _ => ⟨rfl, by simp [Encoder.ended, hl, Nat.add_assoc]⟩

end Sys2Proof.Machine
end

