-- ==== Sys2Proof/Laws/PerInstr.lean ====
section
/-! SUPPORT. Statements about every instruction as syntax, one lemma for each constructor.

Family `Encoding`: where a context can hold the instruction, decoding its word gives the instruction back and leaves
nothing over. -/

namespace Sys2Proof.Laws.Encoding

open Sys2Proof

/-- Decode after encode, in every bit order and every context that can hold the instruction. -/
def Statement (i : Instr) : Prop :=
  ∀ (o : BitOrder) (c : Ctx), i.fits c = true → decode o c (encode o c i) = .ok (i, [])

/-- A word of exactly the context's width decodes as a whole. -/
theorem decode_whole {o : BitOrder} {c : Ctx} {word : Bits} {i : Instr} (hl : word.length = c.width)
    (h : decodeWord o c word = .ok i) : decode o c word = .ok (i, []) := by
  simp [decode, ← hl, h]

/-- The codeword contexts of the decoder's phase `FIRST`. -/
theorem first_whole {o : BitOrder} {w : Nat} {v : Nat} {i : Instr} (hv : v < 2 ^ w) (h : classFirst v = i) :
    decode o (.first w) (valueBits o v w) = .ok (i, []) :=
  decode_whole (by simp [Ctx.width]) (by simp [decodeWord, bitsValue_valueBits o hv, h])

/-- The codeword contexts of the decoder's phase `RUN`. -/
theorem run_whole {o : BitOrder} {w n : Nat} {v : Nat} {i : Instr} (hv : v < 2 ^ w) (h : classRun n v = i) :
    decode o (.run w n) (valueBits o v w) = .ok (i, []) :=
  decode_whole (by simp [Ctx.width]) (by simp [decodeWord, bitsValue_valueBits o hv, h])

/-- The sentinel rows. -/
theorem sentinel_whole {o : BitOrder} {w : Nat} {i : Instr} (hv : 256 < 2 ^ w) (h : sentinelRow w = some i) :
    decode o (.sentinel w) (valueBits o sentinelCode w) = .ok (i, []) :=
  decode_whole (by simp [Ctx.width]) (by simp [decodeWord, bitsValue_valueBits o (show sentinelCode < 2 ^ w from hv), h])

theorem hdr (r f : Bool) : Statement (.hdr r f) := by
  intro o c h
  cases c <;> simp [Instr.fits, Instr.sentinelWidth, Instr.wf] at h
  rfl

theorem firstLit (v : Nat) : Statement (.firstLit v) := by
  intro o c h
  cases c <;> simp [Instr.fits, Instr.sentinelWidth, Instr.wf] at h
  exact first_whole h.2 (classFirst_lit h.1)

theorem firstSent : Statement .firstSent := by
  intro o c h
  cases c <;> simp [Instr.fits, Instr.sentinelWidth, Instr.wf] at h
  exact first_whole h classFirst_sent

theorem firstBad (v : Nat) : Statement (.firstBad v) := by
  intro o c h
  cases c <;> simp [Instr.fits, Instr.sentinelWidth, Instr.wf] at h
  exact first_whole h.2 (classFirst_bad h.1)

theorem sent : Statement .sent := by
  intro o c h
  cases c <;> simp [Instr.fits, Instr.sentinelWidth, Instr.wf] at h
  exact run_whole h (classRun_sent _)

theorem lit (v : Nat) : Statement (.lit v) := by
  intro o c h
  cases c <;> simp [Instr.fits, Instr.sentinelWidth, Instr.wf] at h
  exact run_whole h.2 (classRun_lit h.1)

theorem ref (v : Nat) : Statement (.ref v) := by
  intro o c h
  cases c <;> simp [Instr.fits, Instr.sentinelWidth, Instr.wf] at h
  exact run_whole h.2.2 (classRun_ref h.1 h.2.1)

theorem selfRef : Statement .selfRef := by
  intro o c h
  cases c <;> simp [Instr.fits, Instr.sentinelWidth, Instr.wf] at h
  exact run_whole h.2 (classRun_self h.1)

theorem bad (v : Nat) : Statement (.bad v) := by
  intro o c h
  cases c <;> simp [Instr.fits, Instr.sentinelWidth, Instr.wf] at h
  exact run_whole h.2.2 (classRun_bad (Nat.le_trans (by decide) h.1) h.2.1)

theorem sentAt9 : Statement .sentAt9 := by
  intro o c h
  cases c <;> simp [Instr.fits, Instr.sentinelWidth, Instr.wf] at h
  subst h; exact sentinel_whole (by decide) rfl

theorem sentAt10 : Statement .sentAt10 := by
  intro o c h
  cases c <;> simp [Instr.fits, Instr.sentinelWidth, Instr.wf] at h
  subst h; exact sentinel_whole (by decide) rfl

theorem sentAt11 : Statement .sentAt11 := by
  intro o c h
  cases c <;> simp [Instr.fits, Instr.sentinelWidth, Instr.wf] at h
  subst h; exact sentinel_whole (by decide) rfl

theorem sentAt12 : Statement .sentAt12 := by
  intro o c h
  cases c <;> simp [Instr.fits, Instr.sentinelWidth, Instr.wf] at h
  subst h; exact sentinel_whole (by decide) rfl

theorem sentAt13 : Statement .sentAt13 := by
  intro o c h
  cases c <;> simp [Instr.fits, Instr.sentinelWidth, Instr.wf] at h
  subst h; exact sentinel_whole (by decide) rfl

theorem sentAt14 : Statement .sentAt14 := by
  intro o c h
  cases c <;> simp [Instr.fits, Instr.sentinelWidth, Instr.wf] at h
  subst h; exact sentinel_whole (by decide) rfl

theorem sentAt15 : Statement .sentAt15 := by
  intro o c h
  cases c <;> simp [Instr.fits, Instr.sentinelWidth, Instr.wf] at h
  subst h; exact sentinel_whole (by decide) rfl

theorem sentAt16 : Statement .sentAt16 := by
  intro o c h
  cases c <;> simp [Instr.fits, Instr.sentinelWidth, Instr.wf] at h
  subst h; exact sentinel_whole (by decide) rfl

theorem pad (k : Nat) : Statement (.pad k) := by
  intro o c h
  cases c <;> simp [Instr.fits, Instr.sentinelWidth, Instr.wf] at h
  exact decode_whole (by simp [encode, Ctx.width, h.2]) (by simp [decodeWord, h.2])

theorem encStart (r f : Bool) : Statement (.encStart r f) := by
  intro o c h
  cases c <;> simp [Instr.fits, Instr.sentinelWidth, Instr.wf] at h
  rfl

/-- The byte of an `ENC_BYTE` is read back. -/
theorem byte_back (b : Byte) : byteOfBits .msbFirst (bitsMsb b.toNat 8) = b :=
  byteOfBits_byteBits .msbFirst b

theorem encFirst (b : Byte) : Statement (.encFirst b) := by
  intro o c h
  cases c with
  | encByte k => cases k <;> simp [Instr.fits, Instr.wf] at h; exact decode_whole (by simp [encode, Ctx.width]) (by simp [decodeWord, encode, byte_back])
  | _ => simp [Instr.fits, Instr.sentinelWidth, Instr.wf] at h

theorem encExtend (b : Byte) : Statement (.encExtend b) := by
  intro o c h
  cases c with
  | encByte k => cases k <;> simp [Instr.fits, Instr.wf] at h; exact decode_whole (by simp [encode, Ctx.width]) (by simp [decodeWord, encode, byte_back])
  | _ => simp [Instr.fits, Instr.sentinelWidth, Instr.wf] at h

theorem encEmit (b : Byte) : Statement (.encEmit b) := by
  intro o c h
  cases c with
  | encByte k => cases k <;> simp [Instr.fits, Instr.wf] at h; exact decode_whole (by simp [encode, Ctx.width]) (by simp [decodeWord, encode, byte_back])
  | _ => simp [Instr.fits, Instr.sentinelWidth, Instr.wf] at h

theorem encEndRun : Statement .encEndRun := by
  intro o c h
  cases c with
  | encEnd k => cases k <;> simp [Instr.fits, Instr.wf] at h; rfl
  | _ => simp [Instr.fits, Instr.sentinelWidth, Instr.wf] at h

theorem encEndEmpty : Statement .encEndEmpty := by
  intro o c h
  cases c with
  | encEnd k => cases k <;> simp [Instr.fits, Instr.wf] at h; rfl
  | _ => simp [Instr.fits, Instr.sentinelWidth, Instr.wf] at h

theorem decStart : Statement .decStart := by
  intro o c h
  cases c <;> simp [Instr.fits, Instr.sentinelWidth, Instr.wf] at h
  rfl

theorem brInsert (a : Agent) : Statement (.brInsert a) := by
  intro o c h
  cases c <;> simp [Instr.fits, Instr.sentinelWidth, Instr.wf] at h
  subst h; rfl

theorem brGrow (a : Agent) : Statement (.brGrow a) := by
  intro o c h
  cases c <;> simp [Instr.fits, Instr.sentinelWidth, Instr.wf] at h
  subst h; rfl

theorem brReset (a : Agent) : Statement (.brReset a) := by
  intro o c h
  cases c <;> simp [Instr.fits, Instr.sentinelWidth, Instr.wf] at h
  subst h; rfl

theorem brFull (a : Agent) : Statement (.brFull a) := by
  intro o c h
  cases c <;> simp [Instr.fits, Instr.sentinelWidth, Instr.wf] at h
  subst h; rfl

theorem opLookup (k : TableKey) : Statement (.opLookup k) := by
  intro o c h
  cases c with
  | op a s c =>
    cases a <;> cases k <;> simp [Instr.fits, Instr.wf] at h
    · subst h; rfl
    · subst h; rfl
  | _ => simp [Instr.fits, Instr.sentinelWidth, Instr.wf] at h

theorem opInsert (a : Agent) (s : Str) (c : Nat) : Statement (.opInsert a s c) := by
  intro o x h
  cases x with
  | op a' s' c' => cases a' <;> (simp [Instr.fits, Instr.wf] at h; obtain ⟨-, ⟨rfl, rfl⟩, rfl⟩ := h; rfl)
  | _ => simp [Instr.fits, Instr.sentinelWidth, Instr.wf] at h

theorem opReinit (a : Agent) : Statement (.opReinit a) := by
  intro o x h
  cases x with
  | op a' s' c' => cases a' <;> (simp [Instr.fits, Instr.wf] at h; subst h; rfl)
  | _ => simp [Instr.fits, Instr.sentinelWidth, Instr.wf] at h

theorem opReserved (a : Agent) : Statement (.opReserved a) := by
  intro o x h
  cases x with
  | op a' s' c' => cases a' <;> (simp [Instr.fits, Instr.wf] at h; subst h; rfl)
  | _ => simp [Instr.fits, Instr.sentinelWidth, Instr.wf] at h

end Sys2Proof.Laws.Encoding
end

