-- ==== Sys2Proof/Laws/Step.lean ====
section
/-! SUPPORT. What a step can do: the read of a word, each meaning on a sound state, the autonomous step of the decoder, a
request, and the choice of the input that moves. -/

namespace Sys2Proof.Machine

/-! ## The choice of what moves -/

/-- R72: an instance whose collaborators answer is not suspended. -/
theorem State.isBlocked_of_answered {s : State} {a : Agent} (h : s.isHeld a = false) : s.isBlocked a = false := by
  simp [State.isBlocked, h]

/-- R72: a suspended instance is one whose collaborators do not answer. -/
theorem State.isHeld_of_isBlocked {s : State} {a : Agent} (h : s.isBlocked a = true) : s.isHeld a = true := by
  simp only [State.isBlocked, Bool.and_eq_true] at h; exact h.1

/-- R72: the first input waits exactly where its instance's collaborators do not answer and its step calls one. -/
theorem isHeld_head {s : State} {p : Port} {bits : Bits} {rest : List Event} (ha : s.agenda = .request p bits :: rest) :
    (Event.request p bits).isHeld s = (s.isHeld p.agent && p.callsPrimitive s) := by
  simp [Event.isHeld, State.isBlocked, ha, Event.asksStep, Event.callsPrimitive]

/-- The input taken is one of the agenda, is not held up, and what is left is the agenda without it. -/
theorem nextEvent_some {s : State} {l rest : List Event} {ev : Event} (h : nextEvent s l = some (ev, rest)) :
    ev ∈ l ∧ ev.isHeld s = false ∧ ∀ x ∈ rest, x ∈ l := by
  induction l generalizing rest with
  | nil => cases h
  | cons x l ih =>
    rw [nextEvent] at h
    split at h
    · cases hq : nextEvent s l with
      | none => rw [hq] at h; cases h
      | some q =>
        rw [hq] at h
        cases h
        obtain ⟨h1, h2, h3⟩ := ih hq
        refine ⟨List.mem_cons_of_mem _ h1, h2, fun y hy => ?_⟩
        rcases List.mem_cons.mp hy with rfl | hy
        · exact List.mem_cons_self
        · exact List.mem_cons_of_mem _ (h3 y hy)
    · rename_i hx
      cases h
      exact ⟨List.mem_cons_self, by simpa using hx, fun y hy => List.mem_cons_of_mem _ hy⟩

/-- With no instance held up, the first input is taken. -/
theorem nextEvent_head {s : State} {ev : Event} {l : List Event} (h : ev.isHeld s = false) :
    nextEvent s (ev :: l) = some (ev, l) := by
  simp [nextEvent, h]

/-- The three things one step can be. -/
theorem step_cases (s : State) :
    (∃ ev rest, nextEvent s s.agenda = some (ev, rest) ∧ step s = takeEvent ev { s with agenda := rest }) ∨
    (nextEvent s s.agenda = none ∧ s.dec.busy = true ∧ s.dec.held = false ∧ step s = runDecoder s) ∨
    (nextEvent s s.agenda = none ∧ (s.dec.busy = false ∨ s.dec.held = true) ∧ step s = .next s) := by
  unfold step cycle
  cases h : nextEvent s s.agenda with
  | some q => exact .inl ⟨q.1, q.2, rfl, rfl⟩
  | none =>
    cases hb : s.dec.busy <;> cases hh : s.dec.held <;> simp

/-! ## Reading a word -/

/-- The contexts that a word of their width always decodes in: the header and the codewords (R91). -/
theorem decode_header (o : BitOrder) {word : Bits} (h : word.length = 2) :
    decode o .header word = .ok (.hdr (word.getD 0 false) (word.getD 1 false), []) :=
  Laws.Encoding.decode_whole (by simpa [Ctx.width, headerBits] using h) rfl

theorem decode_first (o : BitOrder) {word : Bits} {w : Nat} (h : word.length = w) :
    decode o (.first w) word = .ok (classFirst (bitsValue o word), []) :=
  Laws.Encoding.decode_whole (by simpa [Ctx.width] using h) rfl

theorem decode_run (o : BitOrder) {word : Bits} {w n : Nat} (h : word.length = w) :
    decode o (.run w n) word = .ok (classRun n (bitsValue o word), []) :=
  Laws.Encoding.decode_whole (by simpa [Ctx.width] using h) rfl

theorem readToken_bits {n : Nat} {c : Ctx} {e : DecErr} {s : State} {i : Instr} {r : Bits} (hl : n ≤ s.dec.inp.bits.length)
    (hd : decode s.params.bitOrder c (s.dec.inp.bits.take n) = .ok (i, r)) :
    readToken n c e s = .next (some i, s.afterRead n) := by
  unfold readToken
  have hr : s.dec.inp.read s.params.underrun n = .bits (s.dec.inp.bits.take n) (s.dec.inp.bits.drop n) := if_pos hl
  simp only [hr, hd]
  rfl

theorem readToken_short {n : Nat} {c : Ctx} {e : DecErr} {s : State} (hl : s.dec.inp.bits.length < n)
    (h : s.dec.inp.ended = true ∨ s.params.underrun = .short) :
    readToken n c e s = .next (none, s.afterShort e) := by
  unfold readToken
  have hr : s.dec.inp.read s.params.underrun n = .short := by
    unfold BitIn.read
    rw [if_neg (by omega)]
    rcases h with h | h
    · simp [h]
    · cases s.dec.inp.ended <;> simp [h]
  simp only [hr]
  rfl

theorem readToken_blocked {n : Nat} {c : Ctx} {e : DecErr} {s : State} (hl : s.dec.inp.bits.length < n)
    (h : s.dec.inp.ended = false) (hu : s.params.underrun = .block) : readToken n c e s = .next (none, s) := by
  unfold readToken
  have hr : s.dec.inp.read s.params.underrun n = .blocked := by
    unfold BitIn.read
    rw [if_neg (by omega)]
    simp [h, hu]
  simp only [hr]

/-! ## The meanings of the decoder on a sound state -/

variable {s : State}

theorem State.Inv.withDec (h : s.Inv) {d : Decoder} (hd : d.Inv s.params) : ({ s with dec := d } : State).Inv :=
  ⟨h.params, h.agenda, h.enc, hd⟩

theorem State.Inv.withEnc (h : s.Inv) {e : Encoder} (he : e.Inv s.params) : ({ s with enc := e } : State).Inv :=
  ⟨h.params, h.agenda, he, h.dec⟩

theorem State.Inv.afterShort (h : s.Inv) {e : DecErr} (he : e ≠ .none) : (s.afterShort e).Inv :=
  ⟨h.params, h.agenda, h.enc, Decoder.trap_inv _ he⟩

theorem State.Inv.afterRead (h : s.Inv) (n : Nat) : (s.afterRead n).Inv :=
  h.withDec (h.dec.moved _ _)

/-- Every class of a first codeword runs, and keeps the machine sound. -/
theorem execFirst_sound (h : s.Inv) (hph : s.dec.phase = .first) (v : Nat) :
    ∃ t, exec (classFirst v) s = .next t ∧ t.Inv := by
  have hb := h.dec.busy (by simp [Decoder.busy, hph])
  rcases classFirst_cases v with ⟨hv, e⟩ | ⟨-, e⟩ | ⟨hv, e⟩ <;> rw [e]
  · refine ⟨_, ?_, h.withDec (h.dec.opened hph (s := [BitVec.ofNat 8 v]) (by simp))⟩
    simp [exec, execFirstLit, hph, hv, Decoder.opened]
  · refine ⟨_, ?_, h.withDec (Decoder.finished_inv (d := s.dec) hb.1)⟩
    simp [exec, execFirstSent, hph, Decoder.finish_eq hb.2.1]
  · refine ⟨_, ?_, h.withDec (s.dec.trap_inv (e := .badCode) (by decide))⟩
    simp [exec, execFirstBad, hph, firstCode, hv]

/-- A codeword that is a string: its class runs DEC_TAIL on that string (R141 to R143). -/
theorem execRun_string (h : s.Inv) {br : Branch} (hm : s.dec.midStep = some br) {v : Nat} {str : Str} (hne : str ≠ [])
    (hstr : (v ≤ 255 ∨ (firstCode ≤ v ∧ v < s.dec.sync.values.n)) ∧ lookupCode s.dec.sync.values.table v = some str ∨
      (v = s.dec.sync.values.n ∧ br ≠ .full) ∧ str = s.dec.val.value ++ s.dec.val.value.take 1) :
    exec (classRun s.dec.sync.values.n v) s = .next { s with dec := s.dec.tailOf s.params.strCap br str } := by
  obtain ⟨hph, -⟩ := h.dec.step br hm
  obtain ⟨hs, hi⟩ := h.dec.started (.inr hph)
  obtain ⟨hvw, hvne⟩ := h.dec.run hph
  have hin := Decoder.inStep_eq hph hm
  rcases hstr with ⟨hv | ⟨h1, h2⟩, hlk⟩ | ⟨⟨rfl, hfull⟩, rfl⟩
  · rw [classRun_lit hv]
    simp [exec, execLit, hin, hv, Decoder.resolve_eq h.dec hm _ hlk hne]
  · rw [classRun_ref h1 h2]
    simp [exec, execRef, hin, h1, h2, Decoder.resolve_eq h.dec hm _ hlk hne]
  · rw [classRun_self hi.low]
    obtain ⟨b, l, hbl⟩ := List.exists_cons_of_ne_nil hvne
    have htail := Decoder.tail_eq_tailOf h.dec hm s.params.strCap (s := s.dec.val.value ++ [b]) (by simp)
    rw [hbl, List.cons_append] at htail
    rw [hbl]
    simp [exec, execSelfRef, hin, hfull, hbl, htail]

/-- Every class of a later codeword runs, and keeps the machine sound: a codeword of the width in use, `n` being the
counter after the pre-adjust. -/
theorem execRun_sound (h : s.Inv) {br : Branch} (hm : s.dec.midStep = some br) {v : Nat}
    (hv : v < 2 ^ s.dec.sync.values.fsm.w) : ∃ t, exec (classRun s.dec.sync.values.n v) s = .next t ∧ t.Inv := by
  obtain ⟨hph, hroom⟩ := h.dec.step br hm
  have hb := h.dec.busy (by simp [Decoder.busy, hph])
  obtain ⟨hs, hi⟩ := h.dec.started (.inr hph)
  have hin := Decoder.inStep_eq hph hm
  have string : ∀ str, str ≠ [] → _ → _ := fun str hne hstr =>
    (⟨_, execRun_string h hm (v := v) (str := str) hne hstr, h.withDec (h.dec.tailOf hm s.params.strCap hne)⟩ :
      ∃ t, exec (classRun s.dec.sync.values.n v) s = .next t ∧ t.Inv)
  have hlow := hi.low
  rcases classRun_cases (by simpa [firstCode] using hlow) v with ⟨-, e⟩ | ⟨hv, -⟩ | ⟨h12, -⟩ | ⟨hv, -⟩ | ⟨hv, e⟩
  · refine ⟨_, ?_, h.withDec (Decoder.finished_inv (d := s.dec) hb.1)⟩
    simp [e, exec, execSent, hin, Decoder.finish_eq hb.2.1]
  · obtain ⟨str, hstr, hne⟩ := lookupCode_some hi (.inl hv)
    exact string str hne (.inl ⟨.inl hv, hstr⟩)
  · obtain ⟨str, hstr, hne⟩ := lookupCode_some hi (.inr h12)
    exact string str hne (.inl ⟨.inr h12, hstr⟩)
  · refine string (s.dec.val.value ++ s.dec.val.value.take 1) (by simp [(h.dec.run hph).2]) (.inr ⟨⟨hv, fun hf => ?_⟩, rfl⟩)
    have := hroom.mp hf
    have := hi.fsm.cap
    omega
  · refine ⟨_, ?_, h.withDec (s.dec.trap_inv (e := .badCode) (by decide))⟩
    simp [e, exec, execBad, hin, hv]

/-! ## The autonomous step of the decoder -/

/-- R139, R151: an autonomous step always ends, and keeps the machine sound. -/
theorem runDecoder_sound (h : s.Inv) : ∃ t, runDecoder s = .next t ∧ t.Inv := by
  unfold runDecoder decoderFetch
  cases hph : s.dec.phase with
  | idle | done | error => exact ⟨s, rfl, h⟩
  | hdr =>
    simp only
    rcases s.dec.inp.read_cases s.params.underrun headerBits with ⟨hl, -⟩ | ⟨hl, hu, -⟩ | ⟨hl, he, hu, -⟩
    · have hlen : (s.dec.inp.bits.take headerBits).length = 2 := by simp [headerBits] at *; omega
      rw [readToken_bits hl (decode_header _ hlen)]
      have h1 := h.afterRead headerBits
      refine ⟨_, ?_, h1.withDec (h1.dec.headed h.params hph ((s.dec.inp.bits.take headerBits).getD 0 false)
        ((s.dec.inp.bits.take headerBits).getD 1 false))⟩
      have hph' : (s.afterRead headerBits).dec.phase = .hdr := hph
      simp only [andThen_next, exec, execHdr, hph']
    · rw [readToken_short hl hu]
      exact ⟨_, rfl, h.afterShort (by decide)⟩
    · rw [readToken_blocked hl he hu]
      exact ⟨_, rfl, h⟩
  | first =>
    simp only [fsmWidth]
    rcases s.dec.inp.read_cases s.params.underrun s.dec.sync.values.fsm.w with ⟨hl, -⟩ | ⟨hl, hu, -⟩ | ⟨hl, he, hu, -⟩
    · rw [readToken_bits hl (decode_first _ (by simpa using hl))]
      exact execFirst_sound (h.afterRead _) hph _
    · rw [readToken_short hl hu]
      exact ⟨_, rfl, h.afterShort (by decide)⟩
    · rw [readToken_blocked hl he hu]
      exact ⟨_, rfl, h⟩
  | run =>
    have hb := h.dec.busy (by simp [Decoder.busy, hph])
    simp only [Decoder.begin_eq hb.2.1, andThen_next]
    have h1 : ({ s with dec := s.dec.begun } : State).Inv := h.withDec (h.dec.begun h.params hph)
    simp only [fsmWidth]
    obtain ⟨br, hm⟩ := s.dec.begun_midStep
    rcases s.dec.begun.inp.read_cases s.params.underrun s.dec.begun.sync.values.fsm.w with
      ⟨hl, -⟩ | ⟨hl, hu, -⟩ | ⟨hl, he, hu, -⟩
    · rw [readToken_bits hl (decode_run _ (by simpa using hl))]
      have hv : bitsValue s.params.bitOrder (s.dec.begun.inp.bits.take s.dec.begun.sync.values.fsm.w) <
          2 ^ s.dec.begun.sync.values.fsm.w := by
        have := bitsValue_lt s.params.bitOrder (s.dec.begun.inp.bits.take s.dec.begun.sync.values.fsm.w)
        rwa [List.length_take, Nat.min_eq_left hl] at this
      exact execRun_sound (h1.afterRead _) hm hv
    · rw [readToken_short hl hu]
      exact ⟨_, rfl, h1.afterShort (by decide)⟩
    · rw [readToken_blocked (s := { s with dec := s.dec.begun }) hl he hu]
      exact ⟨_, rfl, h1⟩

/-! ## Steps of the decoder on its own -/

theorem State.Inv.begun (h : s.Inv) (hph : s.dec.phase = .run) : ({ s with dec := s.dec.begun } : State).Inv :=
  h.withDec (h.dec.begun h.params hph)

/-- A `RUN` step with enough bits: the beginning, the read, and the codeword's instruction. -/
theorem runDecoder_run (h : s.Inv) (hph : s.dec.phase = .run)
    (hl : s.dec.begun.sync.values.fsm.w ≤ s.dec.inp.bits.length) :
    runDecoder s = exec (classRun s.dec.begun.sync.values.n
        (bitsValue s.params.bitOrder (s.dec.inp.bits.take s.dec.begun.sync.values.fsm.w)))
      (({ s with dec := s.dec.begun } : State).afterRead s.dec.begun.sync.values.fsm.w) := by
  have hb := h.dec.busy (by simp [Decoder.busy, hph])
  unfold runDecoder decoderFetch
  simp only [hph, Decoder.begin_eq hb.2.1, andThen_next, fsmWidth]
  rw [readToken_bits (s := { s with dec := s.dec.begun }) (by simpa using hl)
    (decode_run _ (by simpa using hl))]
  simp

/-- A `FIRST` step with enough bits. -/
theorem runDecoder_first (hph : s.dec.phase = .first)
    (hl : s.dec.sync.values.fsm.w ≤ s.dec.inp.bits.length) :
    runDecoder s = exec (classFirst (bitsValue s.params.bitOrder (s.dec.inp.bits.take s.dec.sync.values.fsm.w)))
      (s.afterRead s.dec.sync.values.fsm.w) := by
  unfold runDecoder decoderFetch
  simp only [hph, fsmWidth]
  rw [readToken_bits hl (decode_first _ (by simpa using hl))]
  simp

/-- An `HDR` step with enough bits. -/
theorem runDecoder_hdr (hph : s.dec.phase = .hdr) (hl : headerBits ≤ s.dec.inp.bits.length) :
    runDecoder s = .next { s.afterRead headerBits with
      dec := Decoder.headed s.params (s.dec.inp.bits.getD 0 false) (s.dec.inp.bits.getD 1 false) (s.afterRead headerBits).dec } := by
  have hlen : (s.dec.inp.bits.take headerBits).length = 2 := by simp [headerBits] at *; omega
  have hph' : (s.afterRead headerBits).dec.phase = .hdr := hph
  unfold runDecoder decoderFetch
  simp only [hph]
  rw [readToken_bits hl (decode_header _ hlen)]
  simp only [andThen_next, exec, execHdr, hph']
  match hin : s.dec.inp.bits, hl with
  | b0 :: b1 :: l, _ => simp [headerBits, State.afterRead, Decoder.headed, hin]

/-- With nothing to take, the decoder steps. -/
theorem step_decoder (ha : s.agenda = []) (hb : s.dec.busy = true) (hh : s.dec.held = false) : step s = runDecoder s := by
  rcases step_cases s with ⟨ev, rest, h, -⟩ | ⟨-, -, -, h⟩ | ⟨-, h, -⟩
  · rw [ha] at h; cases h
  · exact h
  · simp [hb, hh] at h

/-! ## Requests -/

/-- A word of a host interface, and its width. -/
theorem requestFetch_eq {p : Port} {bits : Bits} {c : Ctx} {i : Instr} {r : Bits} (hw : bits.length = p.width)
    (hc : requestContext p bits s = .next c) (hd : decode s.params.bitOrder c bits = .ok (i, r)) :
    requestFetch p bits s = .next i := by
  simp [requestFetch, hw, hc, hd]

/-- The machine after an accepted transaction that leaves this encoder. -/
def State.tookEnc (s : State) (e : Encoder) : State := { s with enc := e, response := .accepted }

/-- The machine after an accepted transaction that leaves this decoder. -/
def State.tookDec (s : State) (d : Decoder) : State := { s with dec := d, response := .accepted }

/-- The machine after a refused transaction. -/
def State.turnedAway (s : State) : State := { s with response := .refused }

theorem State.Inv.tookEnc (h : s.Inv) {e : Encoder} (he : e.Inv s.params) : (s.tookEnc e).Inv :=
  ⟨h.params, h.agenda, he, h.dec⟩

theorem State.Inv.tookDec (h : s.Inv) {d : Decoder} (hd : d.Inv s.params) : (s.tookDec d).Inv :=
  ⟨h.params, h.agenda, h.enc, hd⟩

theorem State.Inv.turnedAway (h : s.Inv) : s.turnedAway.Inv := ⟨h.params, h.agenda, h.enc, h.dec⟩

section
variable {bits : Bits} {b : Byte}

/-- R120: ENC_START in `IDLE` or `DONE`. -/
theorem runRequest_encStart (hph : s.enc.phase = .idle ∨ s.enc.phase = .done) (r f : Bool) :
    runRequest .encStart [r, f] s = .next (s.tookEnc (s.enc.started s.params r f)) := by
  have hf : requestFetch .encStart [r, f] s = .next (.encStart r f) :=
    requestFetch_eq rfl rfl (Laws.Encoding.decode_whole rfl rfl)
  simp only [runRequest, hf, andThen_next, exec, execEncStart]
  rcases hph with hph | hph <;> simp only [hph, Encoder.start_eq, onEncoder_next, answer] <;> rfl

/-- R133: DEC_START in `IDLE`, `DONE` or `ERROR`. -/
theorem runRequest_decStart (hph : s.dec.busy = false) :
    runRequest .decStart [] s = .next (s.tookDec s.dec.start) := by
  have hf : requestFetch .decStart [] s = .next .decStart :=
    requestFetch_eq rfl rfl (Laws.Encoding.decode_whole rfl rfl)
  simp only [runRequest, hf, andThen_next, exec, execDecStart]
  cases h : s.dec.phase <;> simp [Decoder.busy, h] at hph <;> rfl

/-- R122: a byte in `EMPTY`. -/
theorem runRequest_first (hph : s.enc.phase = .empty) (hw : bits.length = 8) (hb : byteOfBits .msbFirst bits = b) :
    runRequest .encByte bits s = .next (s.tookEnc { s.enc with cur := .write [b], phase := .run }) := by
  subst hb
  have hf : requestFetch .encByte bits s = .next (.encFirst (byteOfBits .msbFirst bits)) :=
    requestFetch_eq hw (c := .encByte .first) (by simp [requestContext, byteClass, hph])
      (Laws.Encoding.decode_whole hw rfl)
  simp [runRequest, hf, exec, execEncFirst, hph, answer, State.tookEnc]

/-- R88: the class of a byte in `RUN`. -/
theorem byteClass_run (hph : s.enc.phase = .run) :
    byteClass b s.enc = .next (match lookupStr s.enc.sync.values.table (s.enc.cur.value ++ [b]) with
      | some _ => .extend
      | none => .emit) := by
  simp only [byteClass, hph]
  cases lookupStr s.enc.sync.values.table (s.enc.cur.value ++ [b]) <;> rfl

/-- R123: a byte that extends `cur` to a string of the dictionary. -/
theorem runRequest_extend (hph : s.enc.phase = .run) (hw : bits.length = 8)
    (hb : byteOfBits .msbFirst bits = b) {k : Nat}
    (hk : lookupStr s.enc.sync.values.table (s.enc.cur.value ++ [b]) = some k) :
    runRequest .encByte bits s = .next (s.tookEnc { s.enc with cur := .write (s.enc.cur.value ++ [b]) }) := by
  subst hb
  have hcl := byteClass_run (b := byteOfBits .msbFirst bits) hph
  simp only [hk] at hcl
  have hf : requestFetch .encByte bits s = .next (.encExtend (byteOfBits .msbFirst bits)) :=
    requestFetch_eq hw (c := .encByte .extend) (by simp [requestContext, hcl]) (Laws.Encoding.decode_whole hw rfl)
  simp [runRequest, hf, exec, execEncExtend, hcl, answer, State.tookEnc]

/-- R124: a byte that extends `cur` to a new string, `c` being the code of `cur`. -/
theorem runRequest_emit (h : s.Inv) (hph : s.enc.phase = .run) (hw : bits.length = 8)
    (hb : byteOfBits .msbFirst bits = b) {c : Nat} (hc : lookupStr s.enc.sync.values.table s.enc.cur.value = some c)
    (hk : lookupStr s.enc.sync.values.table (s.enc.cur.value ++ [b]) = none) :
    runRequest .encByte bits s = .next (s.tookEnc (s.enc.emitted s.params.bitOrder c b)) := by
  subst hb
  have hcl := byteClass_run (b := byteOfBits .msbFirst bits) hph
  simp only [hk] at hcl
  have hf : requestFetch .encByte bits s = .next (.encEmit (byteOfBits .msbFirst bits)) :=
    requestFetch_eq hw (c := .encByte .emit) (by simp [requestContext, hcl]) (Laws.Encoding.decode_whole hw rfl)
  simp [runRequest, hf, exec, execEncEmit, hcl, Encoder.emit_eq h.enc h.params hph hc hk, answer, State.tookEnc]

/-- R126: the end of an empty input. -/
theorem runRequest_endEmpty (h : s.Inv) (hph : s.enc.phase = .empty) :
    runRequest .encEnd [] s = .next (s.tookEnc (s.enc.ended s.params.bitOrder)) := by
  have hf : requestFetch .encEnd [] s = .next .encEndEmpty :=
    requestFetch_eq rfl (c := .encEnd .inEmpty) (by simp [requestContext, endClass, hph])
      (Laws.Encoding.decode_whole rfl rfl)
  simp [runRequest, hf, exec, execEncEndEmpty, hph, Encoder.endEmpty_eq h.enc h.params hph, answer, State.tookEnc]

/-- R125: the end of an input, `c` being the code of `cur`. -/
theorem runRequest_endRun (h : s.Inv) (hph : s.enc.phase = .run) {c : Nat}
    (hc : lookupStr s.enc.sync.values.table s.enc.cur.value = some c) :
    runRequest .encEnd [] s =
      .next (s.tookEnc ((s.enc.wrote s.params.bitOrder c s.enc.sync.values.fsm.w).ended s.params.bitOrder)) := by
  have hf : requestFetch .encEnd [] s = .next .encEndRun :=
    requestFetch_eq rfl (c := .encEnd .inRun) (by simp [requestContext, endClass, hph])
      (Laws.Encoding.decode_whole rfl rfl)
  simp [runRequest, hf, exec, execEncEndRun, hph, Encoder.endRun_eq h.enc h.params hph hc, answer, State.tookEnc]

/-- R130: a start while a stream is open. -/
theorem runRequest_encStart_refused (hph : s.enc.phase = .empty ∨ s.enc.phase = .run) (r f : Bool) :
    runRequest .encStart [r, f] s = .next s.turnedAway := by
  have hf : requestFetch .encStart [r, f] s = .next (.encStart r f) :=
    requestFetch_eq rfl rfl (Laws.Encoding.decode_whole rfl rfl)
  simp only [runRequest, hf, andThen_next, exec, execEncStart]
  rcases hph with hph | hph <;> simp only [hph, answer] <;> rfl

/-- R149: a start while a stream is open. -/
theorem runRequest_decStart_refused (hph : s.dec.busy = true) : runRequest .decStart [] s = .next s.turnedAway := by
  have hf : requestFetch .decStart [] s = .next .decStart :=
    requestFetch_eq rfl rfl (Laws.Encoding.decode_whole rfl rfl)
  simp only [runRequest, hf, andThen_next, exec, execDecStart]
  cases h : s.dec.phase <;> simp [Decoder.busy, h] at hph <;> rfl

/-- R130: a byte with no stream open. -/
theorem runRequest_byte_refused (hph : s.enc.phase = .idle ∨ s.enc.phase = .done) (hw : bits.length = 8) :
    runRequest .encByte bits s = .next s.turnedAway := by
  rcases hph with hph | hph <;>
    simp [runRequest, requestFetch, hw, Port.width, requestContext, byteClass, hph, answer, State.turnedAway]

/-- R130: an end with no stream open. -/
theorem runRequest_end_refused (hph : s.enc.phase = .idle ∨ s.enc.phase = .done) :
    runRequest .encEnd [] s = .next s.turnedAway := by
  rcases hph with hph | hph <;>
    simp [runRequest, requestFetch, Port.width, requestContext, endClass, hph, answer, State.turnedAway]

end

/-- R171, R88: a host transaction is taken or turned away, and keeps the machine sound either way. -/
theorem runRequest_sound (h : s.Inv) {p : Port} {bits : Bits} (hp : p.isHost = true) (hw : bits.length = p.width) :
    ∃ t, runRequest p bits s = .next t ∧ t.Inv := by
  cases p with
  | sentinel w => cases hp
  | padding k => cases hp
  | br a => cases hp
  | op a str c => cases hp
  | encStart =>
    match bits, hw with
    | [r, f], _ =>
      cases hph : s.enc.phase with
      | idle => exact ⟨_, runRequest_encStart (.inl hph) r f, h.tookEnc (Encoder.started_inv h.params _ _ _)⟩
      | done => exact ⟨_, runRequest_encStart (.inr hph) r f, h.tookEnc (Encoder.started_inv h.params _ _ _)⟩
      | empty => exact ⟨_, runRequest_encStart_refused (.inl hph) r f, h.turnedAway⟩
      | run => exact ⟨_, runRequest_encStart_refused (.inr hph) r f, h.turnedAway⟩
  | decStart =>
    match bits, hw with
    | [], _ =>
      cases hb : s.dec.busy with
      | false => exact ⟨_, runRequest_decStart hb, h.tookDec (Decoder.start_inv _)⟩
      | true => exact ⟨_, runRequest_decStart_refused hb, h.turnedAway⟩
  | encEnd =>
    match bits, hw with
    | [], _ =>
      cases hph : s.enc.phase with
      | idle => exact ⟨_, runRequest_end_refused (.inl hph), h.turnedAway⟩
      | done => exact ⟨_, runRequest_end_refused (.inr hph), h.turnedAway⟩
      | empty =>
        obtain ⟨hs, -, hi⟩ := h.enc.started (by simp [hph])
        have hb := h.enc.opened (by simp [Encoder.busy, hph])
        exact ⟨_, runRequest_endEmpty h hph, h.tookEnc (Encoder.ended_inv hs hi hb.2 _)⟩
      | run =>
        obtain ⟨hs, -, hi⟩ := h.enc.started (by simp [hph])
        have hb := h.enc.opened (by simp [Encoder.busy, hph])
        obtain ⟨c, hc⟩ := Option.isSome_iff_exists.mp (h.enc.run hph).2.isSome
        exact ⟨_, runRequest_endRun h hph hc, h.tookEnc
          (Encoder.ended_inv (e := s.enc.wrote s.params.bitOrder c s.enc.sync.values.fsm.w) hs hi (by simp [hb.2]) _)⟩
  | encByte =>
    cases hph : s.enc.phase with
    | idle => exact ⟨_, runRequest_byte_refused (.inl hph) hw, h.turnedAway⟩
    | done => exact ⟨_, runRequest_byte_refused (.inr hph) hw, h.turnedAway⟩
    | empty => exact ⟨_, runRequest_first hph hw rfl, h.tookEnc (h.enc.first hph _)⟩
    | run =>
      cases hk : lookupStr s.enc.sync.values.table (s.enc.cur.value ++ [byteOfBits .msbFirst bits]) with
      | some k =>
        exact ⟨_, runRequest_extend hph hw rfl hk, h.tookEnc (h.enc.extend hph (by simp [hk]))⟩
      | none =>
        obtain ⟨c, hc⟩ := Option.isSome_iff_exists.mp (h.enc.run hph).2.isSome
        exact ⟨_, runRequest_emit h hph hw rfl hc hk, h.tookEnc (h.enc.emitted h.params hph hk _)⟩

/-! ## One step of a sound machine -/

/-- Every input that comes from outside is taken, and keeps the machine sound. -/
theorem takeEvent_sound (h : s.Inv) {ev : Event} (he : ev.external = true) : ∃ t, takeEvent ev s = .next t ∧ t.Inv := by
  cases ev with
  | request p bits =>
    simp only [Event.external, Bool.and_eq_true, beq_iff_eq] at he
    exact runRequest_sound h he.1 he.2
  | decStep => exact runDecoder_sound h
  | deliver t bytes =>
    refine ⟨_, rfl, ?_⟩
    unfold takeDelivery
    split
    · exact h
    · cases t
      · exact h.withDec (h.dec.withInputs _ _ _)
      · exact h.withDec (h.dec.withInputs _ _ _)
  | finish t =>
    refine ⟨_, rfl, ?_⟩
    cases t
    · exact h.withDec (h.dec.withInputs _ _ _)
    · exact h.withDec (h.dec.withInputs _ _ _)
  | hold a on =>
    refine ⟨_, rfl, ?_⟩
    cases a
    · exact h.withEnc ⟨h.enc.started, h.enc.opened, h.enc.empty, h.enc.run, h.enc.done⟩
    · exact h.withDec (h.dec.withInputs _ _ _)

/-- The machine keeps sound when an input is taken off the agenda. -/
theorem State.Inv.withAgenda (h : s.Inv) {l : List Event} (hl : ∀ ev ∈ l, ev ∈ s.agenda) :
    ({ s with agenda := l } : State).Inv :=
  ⟨h.params, fun ev hev => h.agenda ev (hl ev hev), h.enc, h.dec⟩

end Sys2Proof.Machine
end

