-- ==== Sys2Proof/Laws/Frame.lean ====
section
/-! SUPPORT. What an instruction, a request and an input can touch: one instance, read and written through functions of that
instance and the parameters alone (R21, R22, R166). -/

namespace Sys2Proof.Machine

/-- The instance an instruction is for. -/
def instrAgent : Instr → Agent
  | .hdr _ _ | .firstLit _ | .firstSent | .firstBad _ | .sent | .lit _ | .ref _ | .selfRef | .bad _ | .decStart => .decoder
  | .sentAt9 | .sentAt10 | .sentAt11 | .sentAt12 | .sentAt13 | .sentAt14 | .sentAt15 | .sentAt16 | .pad _ => .encoder
  | .encStart _ _ | .encFirst _ | .encExtend _ | .encEmit _ | .encEndRun | .encEndEmpty => .encoder
  | .brInsert a | .brGrow a | .brReset a | .brFull a => a
  | .opLookup k => k.agent
  | .opInsert a _ _ | .opReinit a | .opReserved a => a

/-- An operation of the whole machine that is one of the encoder, but for the answer of a lookup and the counter of free
answers. -/
def ByEncoder (x : State → Out State) (f : Params → Encoder → Out Encoder) : Prop :=
  ∀ s, ∃ r c, x s = andThen (f s.params s.enc) fun e => .next { s with enc := e, reply := r, freeReplies := c }

/-- An operation of the whole machine that is one of the decoder, but for the answer of a lookup. -/
def ByDecoder (x : State → Out State) (f : Params → Decoder → Out (Decoder × Option TableReply)) : Prop :=
  ∀ s, x s = andThen (f s.params s.dec) fun q => .next { s with dec := q.1, reply := q.2 <|> s.reply }

theorem ByEncoder.of {x : State → Out State} (f : Params → Encoder → Out Encoder)
    (h : ∀ s, x s = onEncoder s (f s.params s.enc)) :
    ByEncoder x f := by
  intro s; exact ⟨s.reply, s.freeReplies, by rw [h s]; rfl⟩

theorem ByDecoder.of {x : State → Out State} (f : Params → Decoder → Out Decoder)
    (h : ∀ s, x s = onDecoder s (f s.params s.dec)) :
    ByDecoder x fun p d => andThen (f p d) fun d' => .next (d', none) := by
  intro s; simp only [h s]; cases f s.params s.dec <;> rfl

/-- Being an operation of the encoder is a property of what the operation answers. -/
theorem ByEncoder.congr {x y : State → Out State} {f : Params → Encoder → Out Encoder} (h : ∀ s, x s = y s)
    (hy : ByEncoder y f) : ByEncoder x f := fun s => by
  obtain ⟨r, c, e⟩ := hy s
  exact ⟨r, c, (h s).trans e⟩

/-- The fsm and sync registers of an instance, through an operation on them. -/
def onSync (x : SyncRegs → Out SyncRegs) (a : Agent) (s : State) : Out State :=
  andThen (x (s.syncOf a)) fun r => .next (s.withSync a r)

theorem onSync_encoder (x : SyncRegs → Out SyncRegs) :
    ∃ f, ByEncoder (onSync x .encoder) f :=
  ⟨_, ByEncoder.of (fun _ e => andThen (x e.sync) fun r => .next { e with sync := r }) fun s => by
    simp only [onSync, State.syncOf]; cases x s.enc.sync <;> rfl⟩

theorem onSync_decoder (x : SyncRegs → Out SyncRegs) :
    ∃ f, ByDecoder (onSync x .decoder) f :=
  ⟨_, ByDecoder.of (fun _ d => andThen (x d.sync) fun r => .next { d with sync := r }) fun s => by
    simp only [onSync, State.syncOf]; cases x s.dec.sync <;> rfl⟩

theorem applyBranch_onSync (br : Branch) (a : Agent) (s : State) : applyBranch br a s = onSync (branchRegs br) a s := rfl

theorem execOpInsert_onSync (a : Agent) (str : Str) (c : Nat) (s : State) :
    execOpInsert a str c s = onSync (insertRegs a str c) a s := rfl

/-- Every instruction for the encoder is an operation of the encoder. -/
theorem exec_byEncoder {i : Instr} (hi : instrAgent i = .encoder) : ∃ f, ByEncoder (exec i) f := by
  have sent : ∀ w, ∃ f, ByEncoder (fun s => onEncoder s (s.enc.sentinelAt s.params.bitOrder w)) f := fun w =>
    ⟨_, ByEncoder.of (fun p e => e.sentinelAt p.bitOrder w) fun _ => rfl⟩
  have br : ∀ b, ∃ f, ByEncoder (fun s => applyBranch b .encoder s) f := fun b => by
    obtain ⟨f, hf⟩ := onSync_encoder _
    exact ⟨f, hf.congr fun s => applyBranch_onSync b .encoder s⟩
  cases i with
  | hdr r f => cases hi
  | firstLit v => cases hi
  | firstSent => cases hi
  | firstBad v => cases hi
  | sent => cases hi
  | lit v => cases hi
  | ref v => cases hi
  | selfRef => cases hi
  | bad v => cases hi
  | decStart => cases hi
  | sentAt9 => exact sent 9
  | sentAt10 => exact sent 10
  | sentAt11 => exact sent 11
  | sentAt12 => exact sent 12
  | sentAt13 => exact sent 13
  | sentAt14 => exact sent 14
  | sentAt15 => exact sent 15
  | sentAt16 => exact sent 16
  | pad k =>
    refine ⟨_, ByEncoder.of (fun _ e => if e.busy then
      if padLength e.nbits.value = k then e.closeOut else .refused .notThisClass else .refused .notThisClass) fun s => ?_⟩
    simp only [exec, execPad]
    split
    · split <;> simp
    · rfl
  | encStart r f =>
    refine ⟨_, ByEncoder.of (fun p e => match e.phase with
      | .idle | .done => e.start p r f
      | .empty | .run => .refused .transaction) fun s => ?_⟩
    simp only [exec, execEncStart]; cases s.enc.phase <;> simp
  | encFirst b =>
    refine ⟨_, ByEncoder.of (fun _ e => match e.phase with
      | .empty => .next { e with cur := .write [b], phase := .run }
      | .run => .refused .notThisClass
      | .idle | .done => .refused .transaction) fun s => ?_⟩
    simp only [exec, execEncFirst]; cases s.enc.phase <;> simp
  | encExtend b =>
    refine ⟨_, ByEncoder.of (fun _ e => andThen (byteClass b e) fun c => match c with
      | .extend => .next { e with cur := .write (e.cur.value ++ [b]) }
      | .first | .emit => .refused .notThisClass) fun s => ?_⟩
    simp only [exec, execEncExtend]
    cases byteClass b s.enc with
    | next c => cases c <;> simp
    | fault r => rfl
    | refused r => rfl
  | encEmit b =>
    refine ⟨_, ByEncoder.of (fun p e => andThen (byteClass b e) fun c => match c with
      | .emit => e.emit p.bitOrder b
      | .first | .extend => .refused .notThisClass) fun s => ?_⟩
    simp only [exec, execEncEmit]
    cases byteClass b s.enc with
    | next c => cases c <;> simp
    | fault r => rfl
    | refused r => rfl
  | encEndRun =>
    refine ⟨_, ByEncoder.of (fun p e => match e.phase with
      | .run => e.endRun p.bitOrder
      | .empty => .refused .notThisClass
      | .idle | .done => .refused .transaction) fun s => ?_⟩
    simp only [exec, execEncEndRun]; cases s.enc.phase <;> simp
  | encEndEmpty =>
    refine ⟨_, ByEncoder.of (fun p e => match e.phase with
      | .empty => e.endEmpty p.bitOrder
      | .run => .refused .notThisClass
      | .idle | .done => .refused .transaction) fun s => ?_⟩
    simp only [exec, execEncEndEmpty]; cases s.enc.phase <;> simp
  | brInsert a => cases hi; exact br .insert
  | brGrow a => cases hi; exact br .grow
  | brReset a => cases hi; exact br .reset
  | brFull a => cases hi; exact br .full
  | opLookup k =>
    refine ⟨fun _ e => .next { e with sync := e.sync.noteRead e.sync.table.written }, fun s =>
      ⟨some (tableAnswer k s.freeReplies s.enc.sync.table.value), s.freeReplies + freeRepliesOf k, ?_⟩⟩
    simp only [exec, execOpLookup, show k.agent = .encoder from hi]
    rfl
  | opInsert a str c =>
    cases hi
    obtain ⟨f, hf⟩ := onSync_encoder _
    exact ⟨f, hf.congr fun s => execOpInsert_onSync .encoder str c s⟩
  | opReinit a =>
    cases hi
    obtain ⟨f, hf⟩ := onSync_encoder fun r => .next { r with table := .write baseTable }
    exact ⟨f, fun s => hf s⟩
  | opReserved a => exact ⟨fun _ _ => .refused .reservedTableOp, fun s => ⟨s.reply, s.freeReplies, rfl⟩⟩

/-- Every instruction for the decoder is an operation of the decoder. -/
theorem exec_byDecoder {i : Instr} (hi : instrAgent i = .decoder) : ∃ f, ByDecoder (exec i) f := by
  have br : ∀ b, ∃ f, ByDecoder (fun s => applyBranch b .decoder s) f := fun b => by
    obtain ⟨f, hf⟩ := onSync_decoder _
    exact ⟨f, fun s => (applyBranch_onSync b .decoder s).trans (hf s)⟩
  cases i with
  | sentAt9 => cases hi
  | sentAt10 => cases hi
  | sentAt11 => cases hi
  | sentAt12 => cases hi
  | sentAt13 => cases hi
  | sentAt14 => cases hi
  | sentAt15 => cases hi
  | sentAt16 => cases hi
  | pad k => cases hi
  | encStart r f => cases hi
  | encFirst b => cases hi
  | encExtend b => cases hi
  | encEmit b => cases hi
  | encEndRun => cases hi
  | encEndEmpty => cases hi
  | hdr r f =>
    refine ⟨_, ByDecoder.of (fun p d => match d.phase with
      | .hdr => .next (d.headed p r f)
      | _ => .refused .notThisClass) fun s => ?_⟩
    simp only [exec, execHdr]; cases s.dec.phase <;> simp
  | firstLit v =>
    refine ⟨_, ByDecoder.of (fun _ d => match d.phase with
      | .first => if v ≤ 255 then .next { d with val := .write [BitVec.ofNat 8 v], phase := .run } else .refused .notThisClass
      | _ => .refused .notThisClass) fun s => ?_⟩
    simp only [exec, execFirstLit]; cases s.dec.phase <;> simp; split <;> simp
  | firstSent =>
    refine ⟨_, ByDecoder.of (fun _ d => match d.phase with
      | .first => d.finish
      | _ => .refused .notThisClass) fun s => ?_⟩
    simp only [exec, execFirstSent]; cases s.dec.phase <;> simp
  | firstBad v =>
    refine ⟨_, ByDecoder.of (fun _ d => match d.phase with
      | .first => if firstCode ≤ v then .next (d.trap .badCode) else .refused .notThisClass
      | _ => .refused .notThisClass) fun s => ?_⟩
    simp only [exec, execFirstBad]; cases s.dec.phase <;> simp; split <;> simp
  | sent =>
    refine ⟨_, ByDecoder.of (fun _ d => andThen d.inStep fun _ => d.finish) fun s => ?_⟩
    simp only [exec, execSent]; cases s.dec.inStep <;> simp
  | lit v =>
    refine ⟨_, ByDecoder.of (fun p d => andThen d.inStep fun br =>
      if v ≤ 255 then d.resolve p.strCap br v else .refused .notThisClass) fun s => ?_⟩
    simp only [exec, execLit]; cases s.dec.inStep <;> simp; split <;> simp
  | ref v =>
    refine ⟨_, ByDecoder.of (fun p d => andThen d.inStep fun br =>
      if firstCode ≤ v ∧ v < d.sync.values.n then d.resolve p.strCap br v else .refused .notThisClass) fun s => ?_⟩
    simp only [exec, execRef]; cases s.dec.inStep <;> simp; split <;> rfl
  | selfRef =>
    refine ⟨_, ByDecoder.of (fun p d => andThen d.inStep fun br =>
      if br = .full then .refused .notThisClass
      else match d.val.value with
        | [] => .fault .absentEntry
        | b :: _ => d.tail p.strCap br (d.val.value ++ [b])) fun s => ?_⟩
    simp only [exec, execSelfRef]; cases s.dec.inStep <;> simp; split
    · rfl
    · cases s.dec.val.value <;> rfl
  | bad v =>
    refine ⟨_, ByDecoder.of (fun _ d => andThen d.inStep fun _ =>
      if d.sync.values.n < v then .next (d.trap .badCode) else .refused .notThisClass) fun s => ?_⟩
    simp only [exec, execBad]; cases s.dec.inStep <;> simp; split <;> simp
  | decStart =>
    refine ⟨_, ByDecoder.of (fun _ d => match d.phase with
      | .idle | .done | .error => .next d.start
      | .hdr | .first | .run => .refused .transaction) fun s => ?_⟩
    simp only [exec, execDecStart]; cases s.dec.phase <;> simp
  | brInsert a => cases hi; exact br .insert
  | brGrow a => cases hi; exact br .grow
  | brReset a => cases hi; exact br .reset
  | brFull a => cases hi; exact br .full
  | opLookup k =>
    cases k with
    | str _ => cases hi
    | code c =>
      exact ⟨fun _ d => .next ({ d with sync := d.sync.noteRead d.sync.table.written },
        some (tableAnswer (.code c) 0 d.sync.table.value)), fun s => rfl⟩
  | opInsert a str c =>
    cases hi
    obtain ⟨f, hf⟩ := onSync_decoder _
    exact ⟨f, fun s => (execOpInsert_onSync .decoder str c s).trans (hf s)⟩
  | opReinit a =>
    cases hi
    obtain ⟨f, hf⟩ := onSync_decoder fun r => .next { r with table := .write baseTable }
    exact ⟨f, fun s => hf s⟩
  | opReserved a => exact ⟨fun _ _ => .refused .reservedTableOp, fun _ => rfl⟩

/-! ## Requests, the autonomous step, and inputs -/

theorem answer_eq_next {s t : State} {x : Out State} (h : answer s x = .next t) :
    (∃ u, x = .next u ∧ t = { u with response := .accepted }) ∨
    (x = .refused .transaction ∧ t = { s with response := .refused }) := by
  cases x with
  | next u => simp only [answer, Host.Outcome.next.injEq] at h; exact .inl ⟨u, rfl, h.symm⟩
  | fault r => cases h
  | refused r => cases r <;> simp only [answer, Host.Outcome.next.injEq] at h <;> first | exact .inr ⟨rfl, h.symm⟩ | cases h

theorem decode_ok {o : BitOrder} {c : Ctx} {bits r : Bits} {i : Instr} (h : decode o c bits = .ok (i, r)) :
    decodeWord o c (bits.take c.width) = .ok i := by
  unfold decode at h
  split at h
  · cases h
  · split at h
    · rename_i heq; cases h; exact heq
    · cases h

/-- The codeword contexts give instructions of the decoder. -/
theorem classFirst_agent (v : Nat) : instrAgent (classFirst v) = .decoder := by
  rcases classFirst_cases v with ⟨-, e⟩ | ⟨-, e⟩ | ⟨-, e⟩ <;> rw [e] <;> rfl

theorem classRun_agent (n v : Nat) : instrAgent (classRun n v) = .decoder := by
  unfold classRun; repeat' split
  all_goals rfl

theorem sentinelRow_agent {w : Nat} {i : Instr} (h : sentinelRow w = some i) : instrAgent i = .encoder := by
  unfold sentinelRow at h
  split at h <;> cases h <;> rfl

/-- The word of a request is an instruction for the instance the interface belongs to. -/
theorem requestFetch_agent {p : Port} {bits : Bits} {s : State} {i : Instr} (h : requestFetch p bits s = .next i) :
    instrAgent i = p.agent := by
  unfold requestFetch at h
  split at h
  · cases h
  obtain ⟨c, hc, h⟩ := andThen_eq_next.mp h
  split at h
  swap
  · cases h
  rename_i hd
  cases h
  have hw := decode_ok hd
  cases p with
  | encStart => cases hc; cases hw; rfl
  | encByte =>
    obtain ⟨k, -, hk⟩ := andThen_eq_next.mp hc
    cases hk
    cases k <;> cases hw <;> rfl
  | encEnd =>
    obtain ⟨k, -, hk⟩ := andThen_eq_next.mp hc
    cases hk
    cases k <;> cases hw <;> rfl
  | decStart => cases hc; cases hw; rfl
  | sentinel w =>
    cases hc
    simp only [decodeWord] at hw
    split at hw
    · rename_i hr
      cases hw
      split at hr
      · exact sentinelRow_agent hr
      · cases hr
    · cases hw
  | padding k => cases hc; cases hw; rfl
  | br a => cases hc; cases hw; unfold branchRow; split <;> rfl
  | op a str c => cases hc; cases hw; unfold tableOpRow; split <;> cases a <;> rfl

theorem requestFetch_congr_encoder {p : Port} (hp : p.agent = .encoder) (bits : Bits) {s s' : State}
    (h1 : s'.params = s.params) (h2 : s'.enc = s.enc) : requestFetch p bits s' = requestFetch p bits s := by
  cases p <;> simp [requestFetch, requestContext, h1, h2]

theorem requestFetch_congr_decoder {p : Port} (hp : p.agent = .decoder) (bits : Bits) {s s' : State}
    (h1 : s'.params = s.params) : requestFetch p bits s' = requestFetch p bits s := by
  cases p <;> simp [requestFetch, requestContext, h1, Port.agent] at hp ⊢

theorem exec_congr_encoder {i : Instr} (hi : instrAgent i = .encoder) {s s' : State} (h1 : s'.params = s.params)
    (h2 : s'.enc = s.enc) :
    (∃ e r c r' c', exec i s = .next { s with enc := e, reply := r, freeReplies := c } ∧
      exec i s' = .next { s' with enc := e, reply := r', freeReplies := c' }) ∨
    (∃ r, exec i s = .fault r ∧ exec i s' = .fault r) ∨ ∃ r, exec i s = .refused r ∧ exec i s' = .refused r := by
  obtain ⟨f, hf⟩ := exec_byEncoder hi
  obtain ⟨r, c, hs⟩ := hf s
  obtain ⟨r', c', hs'⟩ := hf s'
  rw [hs, hs', h1, h2]
  cases f s.params s.enc with
  | next e => exact .inl ⟨e, r, c, r', c', rfl, rfl⟩
  | fault r => exact .inr (.inl ⟨r, rfl, rfl⟩)
  | refused r => exact .inr (.inr ⟨r, rfl, rfl⟩)

theorem exec_congr_decoder {i : Instr} (hi : instrAgent i = .decoder) {s s' : State} (h1 : s'.params = s.params)
    (h2 : s'.dec = s.dec) :
    (∃ d q, exec i s = .next { s with dec := d, reply := q <|> s.reply } ∧
      exec i s' = .next { s' with dec := d, reply := q <|> s'.reply }) ∨
    (∃ r, exec i s = .fault r ∧ exec i s' = .fault r) ∨ ∃ r, exec i s = .refused r ∧ exec i s' = .refused r := by
  obtain ⟨f, hf⟩ := exec_byDecoder hi
  rw [hf s, hf s', h1, h2]
  cases f s.params s.dec with
  | next q => exact .inl ⟨q.1, q.2, rfl, rfl⟩
  | fault r => exact .inr (.inl ⟨r, rfl, rfl⟩)
  | refused r => exact .inr (.inr ⟨r, rfl, rfl⟩)

/-- The fetch of the autonomous step reads and changes the decoder and the free value's counter only, and its instruction is
for the decoder. -/
theorem decoderFetch_congr {s s' : State} {q : Option Instr × State} (h1 : s'.params = s.params) (h2 : s'.dec = s.dec)
    (h3 : s'.freeUses = s.freeUses) (h : decoderFetch s = .next q) :
    q.2 = { s with dec := q.2.dec, freeUses := q.2.freeUses } ∧ (∀ i, q.1 = some i → instrAgent i = .decoder) ∧
    decoderFetch s' = .next (q.1, { s' with dec := q.2.dec, freeUses := q.2.freeUses }) := by
  have token : ∀ (n : Nat) (c : Ctx) (e : DecErr) (u u' : State) (q : Option Instr × State),
      (∀ o word i, decodeWord o c word = .ok i → instrAgent i = .decoder) →
      u'.params = u.params → u'.dec = u.dec → u'.freeUses = u.freeUses → readToken n c e u = .next q →
      q.2 = { u with dec := q.2.dec, freeUses := q.2.freeUses } ∧ (∀ i, q.1 = some i → instrAgent i = .decoder) ∧
      readToken n c e u' = .next (q.1, { u' with dec := q.2.dec, freeUses := q.2.freeUses }) := by
    intro n c e u u' q hc e1 e2 e3 hq
    obtain ⟨p', enc', dec', agenda', response', reply', uses', replies'⟩ := u'
    simp only at e1 e2 e3
    subst e1 e2 e3
    unfold readToken at hq ⊢
    simp only
    cases hr : u.dec.inp.read u.params.underrun n with
    | blocked => rw [hr] at hq; cases hq; exact ⟨rfl, fun i hi => (by cases hi), rfl⟩
    | short => rw [hr] at hq; cases hq; exact ⟨rfl, fun i hi => (by cases hi), rfl⟩
    | bits word rest =>
      rw [hr] at hq
      simp only at hq ⊢
      cases hd : decode u.params.bitOrder c word with
      | error x => rw [hd] at hq; cases hq
      | ok x =>
        rw [hd] at hq
        cases hq
        exact ⟨rfl, fun i hi => (by cases hi; exact hc _ _ _ (decode_ok hd)), rfl⟩
  unfold decoderFetch at h ⊢
  rw [h2]
  split at h
  · exact token _ _ _ _ _ _ (fun _ _ _ hw => by cases hw; rfl) h1 h2 h3 h
  · exact token _ _ _ _ _ _ (fun _ _ _ hw => by cases hw; exact classFirst_agent _) h1 h2 h3 h
  · obtain ⟨d, hd, h⟩ := andThen_eq_next.mp h
    simp only [hd, andThen_next]
    exact token _ _ _ { s with dec := d } { s' with dec := d } _ (fun _ _ _ hw => by cases hw; exact classRun_agent _ _)
      h1 rfl h3 h
  all_goals
    cases h
    exact ⟨rfl, by simp, by rw [← h2, ← h3]⟩

theorem runDecoder_congr {s s' t : State} (h1 : s'.params = s.params) (h2 : s'.dec = s.dec)
    (h3 : s'.freeUses = s.freeUses) (h : runDecoder s = .next t) :
    ∃ r, runDecoder s' = .next { s' with dec := t.dec, freeUses := t.freeUses, reply := r } := by
  unfold runDecoder at h ⊢
  obtain ⟨q, hq, h⟩ := andThen_eq_next.mp h
  obtain ⟨e1, e2, e3⟩ := decoderFetch_congr h1 h2 h3 hq
  rw [e3, andThen_next]
  cases hi : q.1 with
  | none =>
    rw [hi] at h
    cases h
    exact ⟨s'.reply, rfl⟩
  | some i =>
    rw [hi] at h
    simp only at h ⊢
    rcases exec_congr_decoder (e2 i hi) (s := q.2) (s' := { s' with dec := q.2.dec, freeUses := q.2.freeUses })
      (by rw [e1]; exact h1) rfl with ⟨d, r, x1, x2⟩ | ⟨r, x1, -⟩ | ⟨r, x1, -⟩
    · rw [x1] at h
      cases h
      exact ⟨_, x2⟩
    · rw [x1] at h; cases h
    · rw [x1] at h; cases h

/-- R22, R166: an input for the encoder reads the parameters and the encoder, and changes the encoder, the two answers and the
counter of free answers. -/
theorem takeEvent_encoder {ev : Event} (he : ev.agent = .encoder) {s s' t : State} (h1 : s'.params = s.params)
    (h2 : s'.enc = s.enc) (h : takeEvent ev s = .next t) :
    ∃ r x c, takeEvent ev s' = .next { s' with enc := t.enc, reply := r, response := x, freeReplies := c } := by
  cases ev with
  | decStep => cases he
  | deliver a b => cases he
  | finish a => cases he
  | hold a on =>
    cases (show a = .encoder from he)
    cases h
    exact ⟨s'.reply, s'.response, s'.freeReplies, by simp only [takeEvent, takeHold, h2]⟩
  | request p bits =>
    simp only [takeEvent, runRequest, requestFetch_congr_encoder he bits h1 h2] at h ⊢
    cases hq : requestFetch p bits s with
    | fault r => rw [hq] at h; cases h
    | refused r =>
      rw [hq] at h
      rcases answer_eq_next h with ⟨u, hu, -⟩ | ⟨hu, rfl⟩
      · cases hu
      · cases hu; exact ⟨s'.reply, .refused, s'.freeReplies, by simp only [andThen_refused, answer, h2]⟩
    | next i =>
      rw [hq, andThen_next] at h
      rw [andThen_next]
      rcases exec_congr_encoder ((requestFetch_agent hq).trans he) h1 h2 with
        ⟨e, r, c, r', c', x1, x2⟩ | ⟨r, x1, -⟩ | ⟨r, x1, x2⟩
      · rw [x1] at h; cases h; rw [x2]; exact ⟨_, _, _, rfl⟩
      · rw [x1] at h; cases h
      · rw [x1] at h; rw [x2]
        rcases answer_eq_next h with ⟨u, hu, -⟩ | ⟨hu, rfl⟩
        · cases hu
        · cases hu; exact ⟨s'.reply, .refused, s'.freeReplies, by simp only [answer, h2]⟩

/-- The same for the decoder, which also uses the free value's counter. -/
theorem takeEvent_decoder {ev : Event} (he : ev.agent = .decoder) {s s' t : State} (h1 : s'.params = s.params)
    (h2 : s'.dec = s.dec) (h3 : s'.freeUses = s.freeUses) (h : takeEvent ev s = .next t) :
    ∃ r x, takeEvent ev s' = .next { s' with dec := t.dec, freeUses := t.freeUses, reply := r, response := x } := by
  cases ev with
  | decStep =>
    obtain ⟨r, hr⟩ := runDecoder_congr h1 h2 h3 h
    exact ⟨r, s'.response, hr⟩
  | deliver a b =>
    cases h
    refine ⟨s'.reply, s'.response, ?_⟩
    obtain ⟨p', enc', dec', agenda', response', reply', uses'⟩ := s'
    simp only at h1 h2 h3
    subst h1 h2 h3
    simp only [takeEvent, takeDelivery]
    split <;> rfl
  | finish a => cases h; exact ⟨s'.reply, s'.response, by simp only [takeEvent, takeFinish, h2, ← h3]⟩
  | hold a on =>
    cases (show a = .decoder from he)
    cases h
    exact ⟨s'.reply, s'.response, by simp only [takeEvent, takeHold, h2, ← h3]⟩
  | request p bits =>
    simp only [takeEvent, runRequest, requestFetch_congr_decoder he bits h1] at h ⊢
    cases hq : requestFetch p bits s with
    | fault r => rw [hq] at h; cases h
    | refused r =>
      rw [hq] at h
      rcases answer_eq_next h with ⟨u, hu, -⟩ | ⟨hu, rfl⟩
      · cases hu
      · cases hu; exact ⟨s'.reply, .refused, by simp only [andThen_refused, answer, ← h2, ← h3]⟩
    | next i =>
      rw [hq, andThen_next] at h
      rw [andThen_next]
      rcases exec_congr_decoder ((requestFetch_agent hq).trans he) h1 h2 with ⟨d, r, x1, x2⟩ | ⟨r, x1, -⟩ | ⟨r, x1, x2⟩
      · rw [x1] at h; cases h; rw [x2]; exact ⟨r <|> s'.reply, .accepted, by simp only [answer, ← h3]⟩
      · rw [x1] at h; cases h
      · rw [x1] at h; rw [x2]
        rcases answer_eq_next h with ⟨u, hu, -⟩ | ⟨hu, rfl⟩
        · cases hu
        · cases hu; exact ⟨s'.reply, .refused, by simp only [answer, ← h2, ← h3]⟩

/-- What an input for the encoder leaves alone. -/
theorem takeEvent_encoder_frame {ev : Event} (he : ev.agent = .encoder) {s t : State} (h : takeEvent ev s = .next t) :
    ∃ r x c, t = { s with enc := t.enc, reply := r, response := x, freeReplies := c } := by
  obtain ⟨r, x, c, hx⟩ := takeEvent_encoder he rfl rfl h
  exact ⟨r, x, c, Host.Outcome.next.inj (h.symm.trans hx)⟩

/-- What an input for the decoder leaves alone. -/
theorem takeEvent_decoder_frame {ev : Event} (he : ev.agent = .decoder) {s t : State} (h : takeEvent ev s = .next t) :
    ∃ r x, t = { s with dec := t.dec, freeUses := t.freeUses, reply := r, response := x } := by
  obtain ⟨r, x, hx⟩ := takeEvent_decoder he rfl rfl rfl h
  exact ⟨r, x, Host.Outcome.next.inj (h.symm.trans hx)⟩

/-- What an autonomous step of the decoder leaves alone. -/
theorem runDecoder_frame {s t : State} (h : runDecoder s = .next t) :
    ∃ r, t = { s with dec := t.dec, freeUses := t.freeUses, reply := r } := by
  obtain ⟨r, hr⟩ := runDecoder_congr rfl rfl rfl h
  exact ⟨r, Host.Outcome.next.inj (h.symm.trans hr)⟩

/-! ## What a stream keeps: its configuration (R38) and its output (R50, R61) -/

theorem Sync.add_config {a : Agent} {br : Branch} {entry : Str} {y z : Sync} (h : y.add a br entry = .next z) :
    z.fsm = y.fsm := by
  unfold Sync.add at h
  split at h
  · cases h; rfl
  · obtain ⟨t, -, h⟩ := andThen_eq_next.mp h
    cases h; rfl

theorem fsmApply_config (br : Branch) (f : Fsm) : (fsmApply br f).config = f.config := by cases br <;> rfl

theorem Sync.pre_config (br : Branch) (y : Sync) : (y.pre br).fsm.config = y.fsm.config := by
  rw [Sync.pre_fsm, fsmApply_config]

theorem Sync.grow_config {entry : Str} {y z : Sync} (h : y.grow entry = .next z) : z.fsm.config = y.fsm.config := by
  rw [Sync.add_config h, Sync.pre_config]

/-- The encoder goes on with its stream: the output only grows, a closed one stays, and the configuration is the same. -/
structure Encoder.Continues (e e' : Encoder) : Prop where
  grows  : e.out.bits <+: e'.out.bits
  closed : e.out.closed = true → e'.out = e.out
  config : e'.sync.fsm.value.config = e.sync.fsm.value.config

theorem Encoder.Continues.refl (e : Encoder) : e.Continues e := ⟨List.prefix_rfl, fun _ => rfl, rfl⟩

theorem Encoder.Continues.trans {e f g : Encoder} (h : e.Continues f) (k : f.Continues g) : e.Continues g :=
  ⟨h.grows.trans k.grows, fun hc => by rw [k.closed (by rw [h.closed hc]; exact hc), h.closed hc], k.config.trans h.config⟩

theorem Encoder.writeBits_continues {o : BitOrder} {v n : Nat} {e e' : Encoder} (h : e.writeBits o v n = .next e') :
    e.Continues e' := by
  unfold Encoder.writeBits at h
  split at h
  · cases h
  · rename_i hc
    split at h
    · cases h
    · cases h; exact ⟨List.prefix_append _ _, fun hh => absurd hh hc, rfl⟩

theorem Encoder.closeOut_continues {e e' : Encoder} (h : e.closeOut = .next e') : e.Continues e' := by
  unfold Encoder.closeOut at h
  split at h
  · cases h
  · rename_i hc
    cases h; exact ⟨List.prefix_append _ _, fun hh => absurd hh hc, rfl⟩

theorem Encoder.sentinelWrite_continues {o : BitOrder} {e e' : Encoder} (h : e.sentinelWrite o = .next e') : e.Continues e' := by
  exact Encoder.writeBits_continues h

theorem Encoder.emit_continues {o : BitOrder} {b : Byte} {e e' : Encoder} (h : e.emit o b = .next e') : e.Continues e' := by
  unfold Encoder.emit at h
  obtain ⟨cw, -, h⟩ := andThen_eq_next.mp h
  obtain ⟨e1, he1, h⟩ := andThen_eq_next.mp h
  obtain ⟨y1, hy1, h⟩ := andThen_eq_next.mp h
  cases h
  have h1 := Encoder.writeBits_continues he1
  exact ⟨h1.grows, h1.closed, Sync.grow_config hy1⟩

theorem Encoder.endRun_continues {o : BitOrder} {e e' : Encoder} (h : e.endRun o = .next e') : e.Continues e' := by
  unfold Encoder.endRun at h
  obtain ⟨cw, -, h⟩ := andThen_eq_next.mp h
  obtain ⟨e1, he1, h⟩ := andThen_eq_next.mp h
  obtain ⟨e2, he2, h⟩ := andThen_eq_next.mp h
  obtain ⟨e3, he3, h⟩ := andThen_eq_next.mp h
  cases h
  have h3 := ((Encoder.writeBits_continues he1).trans (Encoder.sentinelWrite_continues he2)).trans (Encoder.closeOut_continues he3)
  exact ⟨h3.grows, h3.closed, h3.config⟩

theorem Encoder.endEmpty_continues {o : BitOrder} {e e' : Encoder} (h : e.endEmpty o = .next e') : e.Continues e' := by
  unfold Encoder.endEmpty at h
  obtain ⟨e1, he1, h⟩ := andThen_eq_next.mp h
  obtain ⟨e2, he2, h⟩ := andThen_eq_next.mp h
  cases h
  have h2 := (Encoder.sentinelWrite_continues he1).trans (Encoder.closeOut_continues he2)
  exact ⟨h2.grows, h2.closed, h2.config⟩

/-- FSM_APPLY and the table operations on the encoder's registers. -/
theorem Encoder.onSync_continues {x : SyncRegs → Out SyncRegs} {s t : State}
    (hx : ∀ r r', x r = .next r' → r'.fsm.value.config = r.fsm.value.config) (h : onSync x .encoder s = .next t) :
    s.enc.Continues t.enc := by
  obtain ⟨r, hr, h⟩ := andThen_eq_next.mp h
  cases h
  exact ⟨List.prefix_rfl, fun _ => rfl, hx _ _ hr⟩

/-- All FSM_APPLY can do to the registers of an instance: at most `W` and `L` change, and a read is put on record. -/
theorem branchRegs_eq_next {br : Branch} {r r' : SyncRegs} (h : branchRegs br r = .next r') :
    ∃ b, r' = r.noteRead b ∨ r' = { r.noteRead b with fsm := .write (fsmApply br r.fsm.value) } := by
  cases br with
  | insert => cases h; exact ⟨true, .inl (by simp)⟩
  | grow | reset =>
    simp only [branchRegs] at h
    split at h <;> cases h
    exact ⟨_, .inr rfl⟩
  | full =>
    simp only [branchRegs] at h
    split at h <;> cases h
    exact ⟨_, .inl rfl⟩

theorem applyBranch_config (br : Branch) (r r' : SyncRegs) (h : branchRegs br r = .next r') :
    r'.fsm.value.config = r.fsm.value.config := by
  obtain ⟨b, rfl | rfl⟩ := branchRegs_eq_next h
  · rfl
  · exact fsmApply_config _ _

/-- All OP_INSERT can do to the registers of an instance: the entry, and a read put on record. -/
theorem insertRegs_eq_next {a : Agent} {str : Str} {c : Nat} {r r' : SyncRegs} (h : insertRegs a str c r = .next r') :
    ∃ t, insertEntry a str c r.table.value = .next t ∧ r' = { r.noteRead r.table.written with table := .write t } := by
  unfold insertRegs at h
  split at h
  · obtain ⟨t, ht, h⟩ := andThen_eq_next.mp h
    cases h; exact ⟨t, ht, rfl⟩
  · cases h

/-- R38, R50, R61: an instruction for the encoder goes on with its stream, or is ENC_START, which opens one. -/
theorem exec_encoder_continues {i : Instr} (hi : instrAgent i = .encoder) {s t : State} (h : exec i s = .next t) :
    s.enc.Continues t.enc ∨ (s.enc.busy = false ∧ t.enc.phase = .empty) := by
  have on : ∀ x : Out Encoder, (∀ e', x = .next e' → s.enc.Continues e') → onEncoder s x = .next t → s.enc.Continues t.enc := by
    intro x hx h
    obtain ⟨e, he, rfl⟩ := onEncoder_eq_next.mp h
    exact hx e he
  have sent : ∀ w, onEncoder s (s.enc.sentinelAt s.params.bitOrder w) = .next t → s.enc.Continues t.enc := by
    intro w
    refine on _ fun e' he => ?_
    unfold Encoder.sentinelAt at he
    split at he
    · split at he
      · exact Encoder.sentinelWrite_continues he
      · cases he
    · cases he
  have br : ∀ b, applyBranch b .encoder s = .next t → s.enc.Continues t.enc := by
    intro b h
    rw [applyBranch_onSync] at h
    exact Encoder.onSync_continues (applyBranch_config b) h
  cases i with
  | hdr r f => cases hi
  | firstLit v => cases hi
  | firstSent => cases hi
  | firstBad v => cases hi
  | sent => cases hi
  | lit v => cases hi
  | ref v => cases hi
  | selfRef => cases hi
  | bad v => cases hi
  | decStart => cases hi
  | sentAt9 => exact .inl (sent 9 h)
  | sentAt10 => exact .inl (sent 10 h)
  | sentAt11 => exact .inl (sent 11 h)
  | sentAt12 => exact .inl (sent 12 h)
  | sentAt13 => exact .inl (sent 13 h)
  | sentAt14 => exact .inl (sent 14 h)
  | sentAt15 => exact .inl (sent 15 h)
  | sentAt16 => exact .inl (sent 16 h)
  | pad k =>
    simp only [exec, execPad] at h
    split at h
    · split at h
      · exact .inl (on _ (fun _ => Encoder.closeOut_continues) h)
      · cases h
    · cases h
  | encStart r f =>
    simp only [exec, execEncStart] at h
    have hb : (s.enc.phase = .idle ∨ s.enc.phase = .done) ∧ onEncoder s (s.enc.start s.params r f) = .next t := by
      split at h
      · exact ⟨.inl ‹_›, h⟩
      · exact ⟨.inr ‹_›, h⟩
      all_goals cases h
    obtain ⟨e, he, rfl⟩ := onEncoder_eq_next.mp hb.2
    rw [Encoder.start_eq] at he
    cases he
    exact .inr ⟨by rcases hb.1 with hh | hh <;> simp [Encoder.busy, hh], rfl⟩
  | encFirst b =>
    simp only [exec, execEncFirst] at h
    split at h <;> cases h
    exact .inl ⟨List.prefix_rfl, fun _ => rfl, rfl⟩
  | encExtend b =>
    simp only [exec, execEncExtend] at h
    obtain ⟨c, -, h⟩ := andThen_eq_next.mp h
    cases c <;> simp only [reduceCtorEq] at h
    cases h
    exact .inl ⟨List.prefix_rfl, fun _ => rfl, rfl⟩
  | encEmit b =>
    simp only [exec, execEncEmit] at h
    obtain ⟨c, -, h⟩ := andThen_eq_next.mp h
    cases c <;> simp only [reduceCtorEq] at h
    exact .inl (on _ (fun _ => Encoder.emit_continues) h)
  | encEndRun =>
    simp only [exec, execEncEndRun] at h
    split at h
    · exact .inl (on _ (fun _ => Encoder.endRun_continues) h)
    all_goals cases h
  | encEndEmpty =>
    simp only [exec, execEncEndEmpty] at h
    split at h
    · exact .inl (on _ (fun _ => Encoder.endEmpty_continues) h)
    all_goals cases h
  | brInsert a => cases hi; exact .inl (br .insert h)
  | brGrow a => cases hi; exact .inl (br .grow h)
  | brReset a => cases hi; exact .inl (br .reset h)
  | brFull a => cases hi; exact .inl (br .full h)
  | opLookup k =>
    simp only [exec, execOpLookup, show k.agent = .encoder from hi] at h
    cases h; exact .inl ⟨List.prefix_rfl, fun _ => rfl, rfl⟩
  | opInsert a str c =>
    cases hi
    rw [exec, execOpInsert_onSync] at h
    exact .inl (Encoder.onSync_continues (fun r r' hr => by obtain ⟨t, -, rfl⟩ := insertRegs_eq_next hr; rfl) h)
  | opReinit a =>
    cases hi; cases h
    exact .inl ⟨List.prefix_rfl, fun _ => rfl, rfl⟩
  | opReserved a => cases h

/-- The decoder goes on with its stream: the output only grows, a closed one stays, and after the header the configuration is
the same. -/
structure Decoder.Continues (d d' : Decoder) : Prop where
  grows  : d.out.bytes <+: d'.out.bytes
  closed : d.out.closed = true → d'.out = d.out
  config : d.phase ≠ .hdr → d'.sync.fsm.value.config = d.sync.fsm.value.config

theorem Decoder.Continues.refl (d : Decoder) : d.Continues d := ⟨List.prefix_rfl, fun _ => rfl, fun _ => rfl⟩

theorem Decoder.Continues.trans {d e f : Decoder} (h : d.Continues e) (k : e.Continues f)
    (hp : d.phase ≠ .hdr → e.phase ≠ .hdr) : d.Continues f :=
  ⟨h.grows.trans k.grows, fun hc => by rw [k.closed (by rw [h.closed hc]; exact hc), h.closed hc],
    fun hh => (k.config (hp hh)).trans (h.config hh)⟩

theorem Decoder.trap_continues (e : DecErr) (d : Decoder) : d.Continues (d.trap e) :=
  ⟨List.prefix_rfl, fun h => by
    show ({ d.out with closed := true } : ByteOut) = d.out
    rw [← h], fun _ => rfl⟩

theorem Decoder.finish_continues {d d' : Decoder} (h : d.finish = .next d') : d.Continues d' := by
  unfold Decoder.finish Decoder.closeOut at h
  obtain ⟨d1, h1, h⟩ := andThen_eq_next.mp h
  split at h1
  · cases h1
  · rename_i hc
    cases h1; cases h
    exact ⟨List.prefix_rfl, fun hh => absurd hh hc, fun _ => rfl⟩

theorem Decoder.tail_continues {cap : Option Nat} {br : Branch} {s : Str} {d d' : Decoder} (h : d.tail cap br s = .next d') :
    d.Continues d' := by
  unfold Decoder.tail at h
  split at h
  · cases h; exact Decoder.trap_continues _ _
  · split at h
    · cases h
    · obtain ⟨y1, hy1, h⟩ := andThen_eq_next.mp h
      cases h
      refine ⟨List.prefix_rfl, fun _ => rfl, fun _ => ?_⟩
      show y1.fsm.config = _
      rw [Sync.add_config hy1]
      rfl

theorem Decoder.resolve_continues {cap : Option Nat} {br : Branch} {v : Nat} {d d' : Decoder}
    (h : d.resolve cap br v = .next d') : d.Continues d' := by
  unfold Decoder.resolve at h
  split at h
  · exact Decoder.tail_continues h
  · cases h

theorem Decoder.begin_continues {d d' : Decoder} (h : d.begin = .next d') : d.Continues d' ∧ d'.phase = d.phase := by
  unfold Decoder.begin at h
  split at h
  · cases h; exact ⟨.refl _, rfl⟩
  · obtain ⟨d1, h1, h⟩ := andThen_eq_next.mp h
    unfold Decoder.emit at h1
    split at h1
    · cases h1
    · rename_i hc
      cases h1; cases h
      refine ⟨⟨List.prefix_append _ _, fun hh => absurd hh hc, fun _ => ?_⟩, rfl⟩
      show (d.sync.values.pre d.sync.values.branch).fsm.config = _
      rw [Sync.pre_config]
      rfl

theorem Decoder.onSync_continues {x : SyncRegs → Out SyncRegs} {s t : State}
    (hx : ∀ r r', x r = .next r' → r'.fsm.value.config = r.fsm.value.config) (h : onSync x .decoder s = .next t) :
    s.dec.Continues t.dec := by
  obtain ⟨r, hr, h⟩ := andThen_eq_next.mp h
  cases h
  exact ⟨List.prefix_rfl, fun _ => rfl, fun _ => hx _ _ hr⟩

/-- R38, R50, R61: an instruction for the decoder goes on with its stream, or is DEC_START, which opens one. -/
theorem exec_decoder_continues {i : Instr} (hi : instrAgent i = .decoder) {s t : State} (h : exec i s = .next t) :
    s.dec.Continues t.dec ∨ (s.dec.busy = false ∧ t.dec.phase = .hdr) := by
  have on : ∀ x : Out Decoder, (∀ d', x = .next d' → s.dec.Continues d') → onDecoder s x = .next t → s.dec.Continues t.dec := by
    intro x hx h
    obtain ⟨d, hd, rfl⟩ := onDecoder_eq_next.mp h
    exact hx d hd
  have br : ∀ b, applyBranch b .decoder s = .next t → s.dec.Continues t.dec := by
    intro b h
    rw [applyBranch_onSync] at h
    exact Decoder.onSync_continues (applyBranch_config b) h
  cases i with
  | sentAt9 => cases hi
  | sentAt10 => cases hi
  | sentAt11 => cases hi
  | sentAt12 => cases hi
  | sentAt13 => cases hi
  | sentAt14 => cases hi
  | sentAt15 => cases hi
  | sentAt16 => cases hi
  | pad k => cases hi
  | encStart r f => cases hi
  | encFirst b => cases hi
  | encExtend b => cases hi
  | encEmit b => cases hi
  | encEndRun => cases hi
  | encEndEmpty => cases hi
  | hdr r f =>
    simp only [exec, execHdr] at h
    split at h
    · rename_i hph
      cases h
      exact .inl ⟨List.prefix_rfl, fun _ => rfl, fun hn => absurd hph hn⟩
    · cases h
  | firstLit v =>
    simp only [exec, execFirstLit] at h
    split at h
    · split at h
      · cases h; exact .inl ⟨List.prefix_rfl, fun _ => rfl, fun _ => rfl⟩
      · cases h
    · cases h
  | firstSent =>
    simp only [exec, execFirstSent] at h
    split at h
    · exact .inl (on _ (fun _ => Decoder.finish_continues) h)
    · cases h
  | firstBad v =>
    simp only [exec, execFirstBad] at h
    split at h
    · split at h
      · cases h; exact .inl (Decoder.trap_continues _ _)
      · cases h
    · cases h
  | sent =>
    simp only [exec, execSent] at h
    obtain ⟨b, -, h⟩ := andThen_eq_next.mp h
    exact .inl (on _ (fun _ => Decoder.finish_continues) h)
  | lit v =>
    simp only [exec, execLit] at h
    obtain ⟨b, -, h⟩ := andThen_eq_next.mp h
    split at h
    · exact .inl (on _ (fun _ => Decoder.resolve_continues) h)
    · cases h
  | ref v =>
    simp only [exec, execRef] at h
    obtain ⟨b, -, h⟩ := andThen_eq_next.mp h
    split at h
    · exact .inl (on _ (fun _ => Decoder.resolve_continues) h)
    · cases h
  | selfRef =>
    simp only [exec, execSelfRef] at h
    obtain ⟨b, -, h⟩ := andThen_eq_next.mp h
    split at h
    · cases h
    · split at h
      · cases h
      · exact .inl (on _ (fun _ => Decoder.tail_continues) h)
  | bad v =>
    simp only [exec, execBad] at h
    obtain ⟨b, -, h⟩ := andThen_eq_next.mp h
    split at h
    · cases h; exact .inl (Decoder.trap_continues _ _)
    · cases h
  | decStart =>
    simp only [exec, execDecStart] at h
    have hb : s.dec.busy = false ∧ t = { s with dec := s.dec.start } := by
      split at h <;> cases h <;> simp_all [Decoder.busy]
    rw [hb.2]
    exact .inr ⟨hb.1, rfl⟩
  | brInsert a => cases hi; exact .inl (br .insert h)
  | brGrow a => cases hi; exact .inl (br .grow h)
  | brReset a => cases hi; exact .inl (br .reset h)
  | brFull a => cases hi; exact .inl (br .full h)
  | opLookup k =>
    simp only [exec, execOpLookup, show k.agent = .decoder from hi] at h
    cases h; exact .inl ⟨List.prefix_rfl, fun _ => rfl, fun _ => rfl⟩
  | opInsert a str c =>
    cases hi
    rw [exec, execOpInsert_onSync] at h
    exact .inl (Decoder.onSync_continues (fun r r' hr => by obtain ⟨t, -, rfl⟩ := insertRegs_eq_next hr; rfl) h)
  | opReinit a =>
    cases hi; cases h
    exact .inl ⟨List.prefix_rfl, fun _ => rfl, fun _ => rfl⟩
  | opReserved a => cases h

/-- The fetch of the autonomous step goes on with the stream, in the same phase or in `ERROR`. -/
theorem decoderFetch_continues {s : State} {q : Option Instr × State} (h : decoderFetch s = .next q) :
    s.dec.Continues q.2.dec ∧ (q.2.dec.phase = s.dec.phase ∨ q.1 = none ∧ q.2.dec.phase = .error) := by
  have token : ∀ (n : Nat) (c : Ctx) (e : DecErr) (u : State) (q : Option Instr × State), readToken n c e u = .next q →
      u.dec.Continues q.2.dec ∧ (q.2.dec.phase = u.dec.phase ∨ q.1 = none ∧ q.2.dec.phase = .error) := by
    intro n c e u q hq
    unfold readToken at hq
    split at hq
    · cases hq; exact ⟨.refl _, .inl rfl⟩
    · cases hq
      refine ⟨⟨List.prefix_rfl, fun hc => ?_, fun _ => rfl⟩, .inr ⟨rfl, rfl⟩⟩
      show ({ u.dec.out with closed := true } : ByteOut) = u.dec.out
      rw [← hc]
    · split at hq
      · cases hq; exact ⟨⟨List.prefix_rfl, fun _ => rfl, fun _ => rfl⟩, .inl rfl⟩
      · cases hq
  unfold decoderFetch at h
  split at h
  · exact token _ _ _ _ _ h
  · exact token _ _ _ _ _ h
  · obtain ⟨d, hd, h⟩ := andThen_eq_next.mp h
    obtain ⟨h1, h2⟩ := Decoder.begin_continues hd
    obtain ⟨h3, h4⟩ := token _ _ _ _ _ h
    exact ⟨h1.trans h3 (fun hn => by show d.phase ≠ _; rw [h2]; exact hn), h4.imp (fun e => e.trans h2) id⟩
  all_goals
    cases h
    exact ⟨.refl _, .inl rfl⟩

/-- R38, R50, R61: an autonomous step of the decoder goes on with its stream. -/
theorem runDecoder_continues {s t : State} (h : runDecoder s = .next t) :
    s.dec.Continues t.dec ∨ (s.dec.busy = false ∧ t.dec.phase = .hdr) := by
  unfold runDecoder at h
  obtain ⟨q, hq, h⟩ := andThen_eq_next.mp h
  obtain ⟨h1, h2⟩ := decoderFetch_continues hq
  obtain ⟨-, hi, -⟩ := decoderFetch_congr rfl rfl rfl hq
  cases hqi : q.1 with
  | none => rw [hqi] at h; cases h; exact .inl h1
  | some i =>
    rw [hqi] at h
    have hp : s.dec.phase ≠ .hdr → q.2.dec.phase ≠ .hdr := fun hn => by
      rcases h2 with e | ⟨e, -⟩
      · rw [e]; exact hn
      · rw [hqi] at e; cases e
    rcases exec_decoder_continues (hi i hqi) h with h3 | ⟨h3, h4⟩
    · exact .inl (h1.trans h3 hp)
    · rcases h2 with e | ⟨e, -⟩
      · exact .inr ⟨by simpa [Decoder.busy, e] using h3, h4⟩
      · rw [hqi] at e; cases e

/-- An input goes on with the encoder's stream, or opens one. -/
theorem takeEvent_encoder_continues {ev : Event} {s t : State} (h : takeEvent ev s = .next t) :
    t.params = s.params ∧ (s.enc.Continues t.enc ∨ s.enc.busy = false ∧ t.enc.phase = .empty) := by
  cases ha : ev.agent with
  | decoder =>
    obtain ⟨r, x, e⟩ := takeEvent_decoder_frame ha h
    rw [e]; exact ⟨rfl, .inl (.refl _)⟩
  | encoder =>
    obtain ⟨r, x, c, e⟩ := takeEvent_encoder_frame ha h
    refine ⟨by rw [e], ?_⟩
    cases ev with
    | decStep => cases ha
    | deliver => cases ha
    | finish => cases ha
    | hold a on => cases (show a = .encoder from ha); cases h; exact .inl ⟨List.prefix_rfl, fun _ => rfl, rfl⟩
    | request p bits =>
      rcases answer_eq_next h with ⟨u, hu, rfl⟩ | ⟨-, rfl⟩
      · obtain ⟨i, hi, hx⟩ := andThen_eq_next.mp hu
        have := exec_encoder_continues ((requestFetch_agent hi).trans ha) hx
        exact this
      · exact .inl (.refl _)

/-- An input goes on with the decoder's stream, or opens one. -/
theorem takeEvent_decoder_continues {ev : Event} {s t : State} (h : takeEvent ev s = .next t) :
    s.dec.Continues t.dec ∨ s.dec.busy = false ∧ t.dec.phase = .hdr := by
  cases ha : ev.agent with
  | encoder =>
    obtain ⟨r, x, c, e⟩ := takeEvent_encoder_frame ha h
    rw [e]; exact .inl (.refl _)
  | decoder =>
    cases ev with
    | decStep => exact runDecoder_continues h
    | deliver a b =>
      cases h; left; unfold takeDelivery; split
      · exact .refl _
      · exact ⟨by simp, by simp, by simp⟩
    | finish a => cases h; left; exact ⟨by simp [takeFinish], by simp [takeFinish], by simp [takeFinish]⟩
    | hold a on => cases (show a = .decoder from ha); cases h; exact .inl ⟨List.prefix_rfl, fun _ => rfl, fun _ => rfl⟩
    | request p bits =>
      rcases answer_eq_next h with ⟨u, hu, rfl⟩ | ⟨-, rfl⟩
      · obtain ⟨i, hi, hx⟩ := andThen_eq_next.mp hu
        have := exec_decoder_continues ((requestFetch_agent hi).trans ha) hx
        exact this
      · exact .inl (.refl _)

end Sys2Proof.Machine
end

