-- ==== Sys2Proof/Laws/RoundTrip.lean ====
section
/-! SUPPORT. Whole runs: what the encoder writes for an input, and what the decoder makes of those codewords (R115, R116). -/

namespace Sys2Proof.Machine

variable {p : Params} {s : State}

/-! ## Runs -/

theorem runSteps_zero (s : State) : runSteps 0 s = .next s := rfl

theorem runSteps_succ {s t : State} (h : step s = .next t) (k : Nat) : runSteps (k + 1) s = runSteps k t := by
  show Host.Core.run Sys2Proof.core (k + 1) s = _
  have h' : Sys2Proof.core.step s = .next t := h
  simp only [Host.Core.run, h']
  rfl

theorem runSteps_add {s t : State} {j : Nat} (h : runSteps j s = .next t) (k : Nat) :
    runSteps (j + k) s = runSteps k t := by
  induction j generalizing s with
  | zero => rw [runSteps_zero] at h; cases h; rw [Nat.zero_add]
  | succ j ih =>
    cases hs : step s with
    | next u =>
      rw [runSteps_succ hs] at h
      rw [Nat.succ_add, runSteps_succ hs, ih h]
    | fault r =>
      have : runSteps (j + 1) s = .fault r := by
        show Host.Core.run Sys2Proof.core (j + 1) s = _
        have h' : Sys2Proof.core.step s = .fault r := hs
        simp only [Host.Core.run, h']
        rfl
      rw [this] at h; cases h
    | refused r =>
      have : runSteps (j + 1) s = .refused r := by
        show Host.Core.run Sys2Proof.core (j + 1) s = _
        have h' : Sys2Proof.core.step s = .refused r := hs
        simp only [Host.Core.run, h']
        rfl
      rw [this] at h; cases h


/-! ## The decoder on the encoder's codewords -/

/-- The decoder is between two `RUN` steps of a stream, by itself: sync, `val`, the unread bits, the output. -/
structure Ready (s : State) (y : Sync) (val : Str) (bits : Bits) (out : Str) : Prop where
  inv : s.Inv
  agenda : s.agenda = []
  held : s.dec.held = false
  phase : s.dec.phase = .run
  mid : s.dec.midStep = none
  sync : s.dec.sync.values = y
  val : s.dec.val.value = val
  bits : s.dec.inp.bits = bits
  out : s.dec.out.bytes = out

theorem Ready.begun {y : Sync} {val : Str} {bits : Bits} {out : Str} (h : Ready s y val bits out) :
    s.dec.begun.sync.values = y.pre y.branch ∧ s.dec.begun.midStep = some y.branch ∧
    s.dec.begun.out.bytes = out ++ val := by
  unfold Decoder.begun
  rw [h.mid]
  simp [h.sync, h.out, h.val]

/-- R116 (4), (5): the string that a codeword names, and the step that reads it. -/
theorem Ready.step_string {y : Sync} {val : Str} {rest : Bits} {out : Str} {v : Nat} {str : Str}
    (h : Ready s y val (valueBits s.params.bitOrder v (y.pre y.branch).fsm.w ++ rest) out)
    (hv : v < 2 ^ (y.pre y.branch).fsm.w) (hne : str ≠ [])
    (hcap : overCapacity s.params.strCap y.branch val str = false)
    (hstr : (v ≤ 255 ∨ (firstCode ≤ v ∧ v < (y.pre y.branch).n)) ∧ lookupCode (y.pre y.branch).table v = some str ∨
      v = (y.pre y.branch).n ∧ str = val ++ val.take 1) :
    ∃ t, step s = .next t ∧ t.params = s.params ∧
      Ready t ((y.pre y.branch).added y.branch (val ++ str.take 1)) str rest (out ++ val) := by
  obtain ⟨hsv, hm, hob⟩ := h.begun
  have hl : s.dec.begun.sync.values.fsm.w ≤ s.dec.inp.bits.length := by
    rw [hsv, h.bits]; simp
  have htake : s.dec.inp.bits.take (y.pre y.branch).fsm.w = valueBits s.params.bitOrder v (y.pre y.branch).fsm.w := by
    rw [h.bits, List.take_left' (length_valueBits _ _ _)]
  have hbusy : s.dec.busy = true := by simp [Decoder.busy, h.phase]
  rw [step_decoder h.agenda hbusy h.held, runDecoder_run h.inv h.phase hl, hsv, htake, bitsValue_valueBits _ hv]
  have hi1 := (h.inv.begun h.phase).afterRead (y.pre y.branch).fsm.w
  have hm1 : (({ s with dec := s.dec.begun } : State).afterRead (y.pre y.branch).fsm.w).dec.midStep = some y.branch := hm
  have hy : (({ s with dec := s.dec.begun } : State).afterRead (y.pre y.branch).fsm.w).dec.sync.values = y.pre y.branch := hsv
  have hvv : (({ s with dec := s.dec.begun } : State).afterRead (y.pre y.branch).fsm.w).dec.val.value = val := by
    simp [State.afterRead, h.val]
  have hroom := (hi1.dec.step _ hm1).2
  have hfit := (hi1.dec.started (.inr (hi1.dec.step _ hm1).1)).2.fsm.cap
  have hex := execRun_string hi1 hm1 (v := v) hne (by
    rw [hy, hvv]
    refine hstr.imp id fun ⟨h1, h2⟩ => ⟨⟨h1, fun hf => ?_⟩, h2⟩
    have := hroom.mp hf
    rw [hy] at this hfit
    omega)
  rw [hy] at hex
  have ho : (({ s with dec := s.dec.begun } : State).afterRead (y.pre y.branch).fsm.w).params.strCap = s.params.strCap := rfl
  refine ⟨_, hex, rfl, ?_⟩
  rw [ho]
  have htail : ∀ d : Decoder, d.val.value = val → d.tailOf s.params.strCap y.branch str = d.tailed y.branch str := by
    intro d hd; simp [Decoder.tailOf, hd, hcap]
  rw [htail _ hvv]
  refine ⟨hi1.withDec (hi1.dec.tailed hm1 hne), h.agenda, ?_, ?_, rfl, ?_, rfl, ?_, ?_⟩
  · simpa [Decoder.tailed, State.afterRead] using h.held
  · simpa [Decoder.tailed, State.afterRead] using h.phase
  · simp only [Decoder.tailed, SyncRegs.values_put, hy, hvv]
  · simp [Decoder.tailed, State.afterRead, h.bits, List.drop_left' (length_valueBits _ _ _)]
  · simpa [Decoder.tailed, State.afterRead] using hob

/-- R140: the step that reads the sentinel ends the stream. -/
theorem Ready.step_sentinel {y : Sync} {val : Str} {rest : Bits} {out : Str}
    (h : Ready s y val (valueBits s.params.bitOrder sentinelCode (y.pre y.branch).fsm.w ++ rest) out)
    (hv : sentinelCode < 2 ^ (y.pre y.branch).fsm.w) :
    ∃ t, step s = .next t ∧ t.dec.phase = .done ∧ t.dec.err = .none ∧ t.dec.out = { bytes := out ++ val, closed := true } := by
  obtain ⟨hsv, hm, hob⟩ := h.begun
  have hl : s.dec.begun.sync.values.fsm.w ≤ s.dec.inp.bits.length := by
    rw [hsv, h.bits]; simp
  have htake : s.dec.inp.bits.take (y.pre y.branch).fsm.w =
      valueBits s.params.bitOrder sentinelCode (y.pre y.branch).fsm.w := by
    rw [h.bits, List.take_left' (length_valueBits _ _ _)]
  have hbusy : s.dec.busy = true := by simp [Decoder.busy, h.phase]
  rw [step_decoder h.agenda hbusy h.held, runDecoder_run h.inv h.phase hl, hsv, htake, bitsValue_valueBits _ hv, classRun_sent]
  have hi1 := (h.inv.begun h.phase).afterRead (y.pre y.branch).fsm.w
  generalize hu : ({ s with dec := s.dec.begun } : State).afterRead (y.pre y.branch).fsm.w = u at hi1 ⊢
  have hm1 : u.dec.midStep = some y.branch := by rw [← hu]; exact hm
  have hob1 : u.dec.out.bytes = out ++ val := by rw [← hu]; exact hob
  obtain ⟨hph1, -⟩ := hi1.dec.step _ hm1
  have hb := hi1.dec.busy (by simp [Decoder.busy, hph1])
  exact ⟨{ u with dec := u.dec.finished },
    by simp [exec, execSent, Decoder.inStep_eq hph1 hm1, Decoder.finish_eq hb.2.1],
    rfl, hb.1, by simp [Decoder.finished, hob1]⟩

/-! ## What the encoder writes -/

/-- The codewords that the encoder writes for the bytes `S` still to come, and the sentinel (R124, R125). -/
def wordsOf (o : BitOrder) (y : Sync) (cur : Str) : Str → Bits
  | [] => valueBits o ((lookupStr y.table cur).getD 0) y.fsm.w ++ valueBits o sentinelCode (fsmNextWidth y.fsm y.n)
  | b :: S =>
    match lookupStr y.table (cur ++ [b]) with
    | some _ => wordsOf o y (cur ++ [b]) S
    | none => valueBits o ((lookupStr y.table cur).getD 0) y.fsm.w ++ wordsOf o (y.grown (cur ++ [b])) [b] S

/-- R10, R119: the bound on `cur`: its beginnings of two bytes or more are as many entries. -/
theorem curKnown.length_le {y : Sync} {a : Agent} (h : y.Inv p a) {cur : Str} (hk : curKnown y.table cur) :
    cur.length + 256 ≤ y.n := by
  have hlow := h.low
  have hlen : y.table.length = y.n - firstCode := by
    have := congrArg List.length h.codes
    simpa using this
  have hmem : ∀ k, 2 ≤ k → k ≤ cur.length → cur.take k ∈ y.table.map (·.2) := by
    intro k h1 h2
    have := hk.2 k (by omega) h2
    rw [lookupStr_long (by simp; omega)] at this
    by_contra hn
    rw [← entryOf_eq_none] at hn
    rw [hn] at this; cases this
  have hsub : ((List.range (cur.length - 1)).map fun k => cur.take (k + 2)) ⊆ y.table.map (·.2) := by
    intro x hx
    simp only [List.mem_map, List.mem_range] at hx
    obtain ⟨k, hk, rfl⟩ := hx
    exact hmem _ (by omega) (by omega)
  have hnd : ((List.range (cur.length - 1)).map fun k => cur.take (k + 2)).Nodup := by
    refine List.Nodup.map_on ?_ List.nodup_range
    intro a ha b hb hab
    have := congrArg List.length hab
    simp only [List.mem_range] at ha hb
    simp at this; omega
  have := (hnd.subperm hsub).length_le
  simp at this
  simp only [firstCode] at *
  omega


/-! ## The decoder follows (R116) -/

/-- The parts of a state in which the encoder has `cur` and the dictionary `y`, one growth event after the decoder's. -/
structure Follows (p : Params) (yD : Sync) (val : Str) (y : Sync) (cur : Str) : Prop where
  dec : yD.Inv p .encoder
  enc : y.Inv p .encoder
  grown : y = yD.grown (val ++ cur.take 1)
  val_ne : val ≠ []
  bound : val.length + 256 ≤ yD.n
  known : curKnown y.table cur

/-- The counter is at most the capacity of the stream's code space. -/
theorem Sync.Inv.n_le {y : Sync} {a : Agent} (h : y.Inv p a) : y.n ≤ 2 ^ y.fsm.wMax :=
  Nat.le_trans h.high (by rw [h.fsm.cap]; exact Nat.pow_le_pow_right (by decide) h.fsm.le_max)

/-- R11: strings within the bound of R10 are within a legal capacity. -/
theorem overCapacity_false {y : Sync} {a : Agent} (hc : p.capLargeEnough) (h : y.Inv p a) {br : Branch} {val str : Str}
    (hv : val.length + 256 ≤ 2 ^ y.fsm.wMax) (hs : str.length + 256 ≤ 2 ^ y.fsm.wMax) :
    overCapacity p.strCap br val str = false := by
  unfold overCapacity
  split
  · rfl
  · rename_i c hcap
    obtain ⟨h1, h2⟩ := hc c hcap
    have hb := h.fsm.bounds
    have : 2 ^ y.fsm.wMax - 255 ≤ c := by
      cases hf : y.fsm.fixed <;> simp only [hf, Params.bounds, Bool.false_eq_true, if_true, if_false, Prod.mk.injEq] at hb
      · rw [hb.2]; exact h1
      · rw [hb.2]; exact h2
    have : (br ≠ .full && decide (c < val.length + 1)) = false := by
      have : ¬ c < val.length + 1 := by omega
      simp [this]
    rw [this]; simp; omega

theorem Sync.grown_wMax (y : Sync) (entry : Str) : (y.grown entry).fsm.wMax = y.fsm.wMax := by
  simp [Sync.grown]

/-- R116 (4): the code of a string in the dictionary after the encoder's growth event names that string on the decoder's side,
by the table before ADD or as the self-reference. -/
theorem Sync.grown_code {y : Sync} (h : y.Inv p .encoder) (hp : p.legal) {val cur : Str} (hv : val ≠ []) (hcur : cur ≠ [])
    {c : Nat} (hc : lookupStr (y.grown (val ++ cur.take 1)).table cur = some c) :
    (c ≤ 255 ∨ (firstCode ≤ c ∧ c < (y.pre y.branch).n)) ∧ lookupCode (y.pre y.branch).table c = some cur ∨
      c = (y.pre y.branch).n ∧ cur = val ++ val.take 1 := by
  have hi := Sync.pre_inv h hp
  by_cases h2 : 2 ≤ cur.length
  · rw [lookupStr_long h2] at hc
    have old : (c, cur) ∈ (y.pre y.branch).table →
        (c ≤ 255 ∨ (firstCode ≤ c ∧ c < (y.pre y.branch).n)) ∧ lookupCode (y.pre y.branch).table c = some cur := by
      intro he
      have hr : firstCode ≤ c ∧ c < (y.pre y.branch).n := hi.code_range he
      refine ⟨.inr hr, ?_⟩
      rw [lookupCode_entry (by have := hr.1; simp only [firstCode] at this; omega), entryAt_of_mem hi.codes_nodup he]
    have hm := mem_of_entryOf hc
    rw [Sync.grown, Sync.added] at hm
    split at hm
    · exact .inl (old hm)
    · rcases List.mem_append.mp hm with hm | hm
      · exact .inl (old hm)
      · rw [List.mem_singleton, Prod.mk.injEq] at hm
        refine .inr ⟨hm.1, ?_⟩
        obtain ⟨b, l, rfl⟩ := List.exists_cons_of_ne_nil hv
        obtain ⟨b', l', rfl⟩ := List.exists_cons_of_ne_nil hcur
        have hm2 := hm.2
        simp only [List.take_succ_cons, List.take_zero, List.cons_append, List.cons.injEq] at hm2 ⊢
        exact ⟨hm2.1, by rw [hm2.2, hm2.1]⟩
  · obtain ⟨b, rfl⟩ : ∃ b, cur = [b] := List.length_eq_one_iff.mp (by
      have := List.length_pos_iff.mpr hcur
      omega)
    rw [lookupStr_single, Option.some.injEq] at hc
    have hb : c ≤ 255 := by rw [← hc]; exact Nat.le_of_lt_succ b.isLt
    refine .inl ⟨.inl hb, ?_⟩
    rw [lookupCode_base hb, ← hc]; simp

/-- R116 (3), (5): the decoder's step on that codeword ends in the encoder's state. -/
theorem Ready.step_follows {yD y : Sync} {val cur : Str} {rest : Bits} {out : Str} {c : Nat}
    (h : Ready s yD val (valueBits s.params.bitOrder c y.fsm.w ++ rest) out) (hf : Follows s.params yD val y cur)
    (hcap : s.params.capLargeEnough) (hc : lookupStr y.table cur = some c) :
    ∃ t, step s = .next t ∧ t.params = s.params ∧ Ready t y cur rest (out ++ val) := by
  have hw : y.fsm = (yD.pre yD.branch).fsm := by rw [hf.grown, Sync.grown, Sync.added_fsm]
  have hfit := (lookupStr_lt hf.enc hc).2.2
  rw [hw] at h hfit
  have hmax : y.fsm.wMax = yD.fsm.wMax := by rw [hf.grown, Sync.grown_wMax]
  have hv : val.length + 256 ≤ 2 ^ yD.fsm.wMax := Nat.le_trans hf.bound hf.dec.n_le
  have hcl : cur.length + 256 ≤ 2 ^ yD.fsm.wMax := by
    have := Nat.le_trans (hf.known.length_le hf.enc) hf.enc.n_le
    rwa [hmax] at this
  have := h.step_string hfit hf.known.1 (overCapacity_false hcap hf.dec hv hcl) (Sync.grown_code hf.dec h.inv.params hf.val_ne hf.known.1 (by rw [← hf.grown]; exact hc))
  rwa [← Sync.grown, ← hf.grown] at this

theorem wordsOf_nil (o : BitOrder) {y : Sync} {cur : Str} {c : Nat} (hc : lookupStr y.table cur = some c) :
    wordsOf o y cur [] = valueBits o c y.fsm.w ++ valueBits o sentinelCode (fsmNextWidth y.fsm y.n) := by
  rw [wordsOf, hc]; rfl

theorem wordsOf_extend (o : BitOrder) {y : Sync} {cur : Str} {b : Byte} {k : Nat}
    (hk : lookupStr y.table (cur ++ [b]) = some k) (S : Str) :
    wordsOf o y cur (b :: S) = wordsOf o y (cur ++ [b]) S := by
  rw [wordsOf, hk]

theorem wordsOf_emit (o : BitOrder) {y : Sync} {cur : Str} {b : Byte} {c : Nat}
    (hc : lookupStr y.table cur = some c) (hk : lookupStr y.table (cur ++ [b]) = none) (S : Str) :
    wordsOf o y cur (b :: S) = valueBits o c y.fsm.w ++ wordsOf o (y.grown (cur ++ [b])) [b] S := by
  rw [wordsOf, hk, hc]; rfl

/-- A new string of two bytes or more makes the next growth event. -/
theorem Follows.next {y : Sync} {cur : Str} {b : Byte} (hp : p.legal) (hy : y.Inv p .encoder) (hk : curKnown y.table cur)
    (hn : lookupStr y.table (cur ++ [b]) = none) : Follows p y cur (y.grown (cur ++ [b])) [b] where
  dec := hy
  enc := Sync.grown_inv hy hp (by have := List.length_pos_iff.mpr hk.1; simp; omega) fun _ => hn
  grown := rfl
  val_ne := hk.1
  bound := hk.length_le hy
  known := curKnown_single _ b

/-- The decoder has ended normally, with this output. -/
def Ended (out : Str) (t : State) : Prop :=
  t.dec.phase = .done ∧ t.dec.err = .none ∧ t.dec.out = { bytes := out, closed := true }

/-- What is left after a codeword: the sentinel, at the width the decoder anticipates (R127, R179). -/
theorem Ready.last {y : Sync} {cur : Str} {tail : Bits} {out : Str} (hi : y.Inv s.params .encoder)
    (h : Ready s y cur (valueBits s.params.bitOrder sentinelCode (fsmNextWidth y.fsm y.n) ++ tail) out) :
    ∃ k t, runSteps k s = .next t ∧ Ended (out ++ cur) t := by
  have hw : fsmNextWidth y.fsm y.n = (y.pre y.branch).fsm.w := by
    rw [Sync.pre_fsm]; exact (fsmApply_w hi.fsm y.n).symm
  have hfit := (sentinel_fits hi h.inv.params).2
  rw [hw] at h hfit
  obtain ⟨t, ht, h1⟩ := h.step_sentinel hfit
  exact ⟨1, t, by rw [runSteps_succ ht, runSteps_zero], h1⟩

/-- R116: on the codewords of the encoder, the decoder emits what the encoder was given. -/
theorem Ready.words (S : Str) : ∀ {s : State} {yD y : Sync} {val cur : Str} {tail : Bits} {out : Str},
    Follows s.params yD val y cur → s.params.capLargeEnough →
    Ready s yD val (wordsOf s.params.bitOrder y cur S ++ tail) out →
    ∃ k t, runSteps k s = .next t ∧ Ended (out ++ val ++ cur ++ S) t := by
  induction S with
  | nil =>
    intro s yD y val cur tail out hf hcap h
    obtain ⟨c, hc⟩ := Option.isSome_iff_exists.mp hf.known.isSome
    rw [wordsOf_nil _ hc, List.append_assoc] at h
    obtain ⟨u, hu, hup, hr⟩ := h.step_follows hf hcap hc
    have hi := hf.enc
    rw [← hup] at hi hr
    obtain ⟨k, t, ht, he⟩ := hr.last hi
    exact ⟨k + 1, t, by rw [runSteps_succ hu, ht], by simpa using he⟩
  | cons b S ih =>
    intro s yD y val cur tail out hf hcap h
    obtain ⟨c, hc⟩ := Option.isSome_iff_exists.mp hf.known.isSome
    cases hk : lookupStr y.table (cur ++ [b]) with
    | some k =>
      rw [wordsOf_extend _ hk] at h
      have hf' : Follows s.params yD val y (cur ++ [b]) :=
        { hf with
          grown := by rw [List.take_append_of_le_length (List.length_pos_iff.mpr hf.known.1)]; exact hf.grown
          known := hf.known.extend (by simp [hk]) }
      obtain ⟨k, t, ht, he⟩ := ih hf' hcap h
      exact ⟨k, t, ht, by simpa using he⟩
    | none =>
      rw [wordsOf_emit _ hc hk, List.append_assoc] at h
      obtain ⟨u, hu, hup, hr⟩ := h.step_follows hf hcap hc
      have hf' := Follows.next h.inv.params hf.enc hf.known hk
      rw [← hup] at hf' hr hcap
      obtain ⟨k, t, ht, he⟩ := ih hf' hcap hr
      exact ⟨k + 1, t, by rw [runSteps_succ hu, ht], by simpa using he⟩

/-! ## The encoder on its host's transactions (R129) -/

/-- The first input is taken, when the instance it is for answers. -/
theorem step_event {ev : Event} {rest : List Event} (ha : s.agenda = ev :: rest) (hh : ev.isHeld s = false) :
    step s = takeEvent ev { s with agenda := rest } := by
  rcases step_cases s with ⟨ev', rest', h, h'⟩ | ⟨h, -⟩ | ⟨h, -⟩
  · rw [ha, nextEvent_head hh] at h
    cases h; exact h'
  · rw [ha, nextEvent_head hh] at h; cases h
  · rw [ha, nextEvent_head hh] at h; cases h

/-- The transaction that carries one input byte. -/
def byteEvent (b : Byte) : Event := .request .encByte (bitsMsb b.toNat 8)

theorem byteOfBits_bitsMsb (b : Byte) : byteOfBits .msbFirst (bitsMsb b.toNat 8) = b := byteOfBits_byteBits .msbFirst b

/-- The encoder is in a stream by itself: sync, `cur`, the written bits, and the bytes still to come. -/
structure Feeding (s : State) (y : Sync) (cur : Str) (S : Str) (bits : Bits) : Prop where
  inv : s.Inv
  agenda : s.agenda = S.map byteEvent ++ [.request .encEnd []]
  held : s.enc.held = false
  phase : s.enc.phase = .run
  sync : s.enc.sync.values = y
  cur : s.enc.cur.value = cur
  bits : s.enc.out.bits = bits

/-- R124, R125, R129: the encoder writes the codewords of its input and the sentinel, and pads. -/
theorem Feeding.words (S : Str) : ∀ {s : State} {y : Sync} {cur : Str} {bits : Bits}, Feeding s y cur S bits →
    ∃ t, runSteps (S.length + 1) s = .next t ∧ t.Inv ∧ t.enc.phase = .done ∧ t.params = s.params ∧
      ∃ k, t.enc.out.bits = bits ++ wordsOf s.params.bitOrder y cur S ++ List.replicate k false := by
  induction S with
  | nil =>
    intro s y cur bits h
    have hst := step_event (s := s) h.agenda (State.isBlocked_of_answered h.held)
    have hi := h.inv.withAgenda (l := []) (by simp)
    obtain ⟨c, hc⟩ := Option.isSome_iff_exists.mp (h.inv.enc.run h.phase).2.isSome
    have hst := hst.trans (runRequest_endRun hi h.phase hc)
    have hb := h.inv.enc.opened (by simp [Encoder.busy, h.phase])
    obtain ⟨hs, -, hy⟩ := h.inv.enc.started (by simp [h.phase])
    rw [h.cur, h.sync] at hc
    refine ⟨_, (runSteps_succ hst 0).trans (runSteps_zero _), ?_, rfl, rfl, ?_⟩
    · exact hi.tookEnc (Encoder.ended_inv (e := s.enc.wrote s.params.bitOrder c s.enc.sync.values.fsm.w) hs hy
        (by simp [hb.2]) _)
    · rw [wordsOf_nil _ hc]
      simp only [State.tookEnc, Encoder.ended, Encoder.flushed_bits, Encoder.wrote_bits, Encoder.wrote_sync, h.bits, h.sync,
        List.append_assoc]
      exact ⟨_, rfl⟩
  | cons b S ih =>
    intro s y cur bits h
    have hst := step_event (s := s) h.agenda (State.isBlocked_of_answered h.held)
    have hi := h.inv.withAgenda (l := S.map byteEvent ++ [.request .encEnd []])
      (by rw [h.agenda]; exact fun ev hev => List.mem_cons_of_mem _ hev)
    have hbyte := byteOfBits_bitsMsb b
    have hlen : (bitsMsb b.toNat 8).length = 8 := by simp
    obtain ⟨c, hc⟩ := Option.isSome_iff_exists.mp (h.inv.enc.run h.phase).2.isSome
    cases hk : lookupStr s.enc.sync.values.table (s.enc.cur.value ++ [b]) with
    | some k =>
      have hst := hst.trans (runRequest_extend h.phase hlen hbyte hk)
      obtain ⟨t, ht, hti, htp, htpar, k', htb⟩ := ih (s := State.tookEnc _ _) (y := y) (cur := cur ++ [b]) (bits := bits)
        { inv := hi.tookEnc (h.inv.enc.extend h.phase (b := b) (by simp [hk]))
          agenda := rfl, held := h.held, phase := h.phase, sync := h.sync
          cur := by show s.enc.cur.value ++ [b] = _; rw [h.cur]
          bits := h.bits }
      refine ⟨t, (runSteps_succ hst _).trans ht, hti, htp, htpar, k', ?_⟩
      rw [h.sync, h.cur] at hk
      rw [wordsOf_extend _ hk]; exact htb
    | none =>
      have hst := hst.trans (runRequest_emit hi h.phase hlen hbyte hc hk)
      obtain ⟨t, ht, hti, htp, htpar, k', htb⟩ := ih (s := State.tookEnc _ _) (y := y.grown (cur ++ [b])) (cur := [b])
        (bits := bits ++ valueBits s.params.bitOrder c y.fsm.w)
        { inv := hi.tookEnc (h.inv.enc.emitted h.inv.params h.phase hk _)
          agenda := rfl, held := h.held, phase := h.phase
          sync := by show s.enc.sync.values.grown (s.enc.cur.value ++ [b]) = _; rw [h.sync, h.cur]
          cur := rfl
          bits := by
            show s.enc.out.bits ++ valueBits s.params.bitOrder c s.enc.sync.values.fsm.w = _
            rw [h.bits, h.sync] }
      refine ⟨t, (runSteps_succ hst _).trans ht, hti, htp, htpar, k', ?_⟩
      rw [h.sync, h.cur] at hk hc
      rw [wordsOf_emit _ hc hk, htb]
      simp [State.tookEnc]

/-- What the encoder writes after the header, for the whole input (R124 to R127). -/
def streamOf (o : BitOrder) (y : Sync) : Str → Bits
  | [] => valueBits o sentinelCode (fsmNextWidth y.fsm y.n)
  | b :: S => wordsOf o y [b] S

/-- R120: the first transaction opens the stream. -/
theorem step_encStart (h : s.Inv) {r f : Bool} {l : List Event} (hph : s.enc.phase = .idle ∨ s.enc.phase = .done)
    (hh : s.enc.held = false) (ha : s.agenda = .request .encStart [r, f] :: l) :
    ∃ t, step s = .next t ∧ t.Inv ∧ t.params = s.params ∧ t.agenda = l ∧ t.enc.held = false ∧ t.enc.phase = .empty ∧
      t.enc.sync.values = Sync.init s.params r f ∧ t.enc.out.bits = [r, f] := by
  have hi := h.withAgenda (l := l) (by rw [ha]; exact fun ev hev => List.mem_cons_of_mem _ hev)
  refine ⟨_, (step_event ha (State.isBlocked_of_answered hh)).trans (runRequest_encStart (s := { s with agenda := l }) hph r f),
    hi.tookEnc (Encoder.started_inv h.params r f s.enc), rfl, rfl, hh, rfl, rfl, ?_⟩
  show [r, decide _] = _
  rw [bounds_eq_iff h.params f]

/-- R129: the transactions of a whole input write its stream. -/
theorem compress_stream (h : s.Inv) {r f : Bool} {S : Str} (hph : s.enc.phase = .idle ∨ s.enc.phase = .done)
    (hh : s.enc.held = false) (ha : s.agenda = compressInputs r f S) :
    ∃ t, runSteps (S.length + 2) s = .next t ∧ t.Inv ∧ t.enc.phase = .done ∧ t.params = s.params ∧
      ∃ k, t.enc.out.bits = r :: f :: streamOf s.params.bitOrder (Sync.init s.params r f) S ++ List.replicate k false := by
  obtain ⟨u, hu, hui, hup, hua, huh, huph, hus, hub⟩ := step_encStart (r := r) (f := f) (l := S.map byteEvent ++ [.request .encEnd []])
    h hph hh (by rw [ha]; rfl)
  cases S with
  | nil =>
    have hi := hui.withAgenda (l := []) (by simp)
    have hst := (step_event hua (State.isBlocked_of_answered huh)).trans (runRequest_endEmpty hi huph)
    have hb := hui.enc.opened (by simp [Encoder.busy, huph])
    obtain ⟨hs, -, hy⟩ := hui.enc.started (by simp [huph])
    refine ⟨_, (runSteps_succ hu 1).trans ((runSteps_succ hst 0).trans (runSteps_zero _)), ?_, rfl, hup, ?_⟩
    · exact hi.tookEnc (Encoder.ended_inv hs hy hb.2 _)
    · simp only [State.tookEnc, Encoder.ended, Encoder.flushed_bits, Encoder.wrote_bits, hub, hus, hup, streamOf]
      exact ⟨_, rfl⟩
  | cons b S =>
    have hi := hui.withAgenda (l := S.map byteEvent ++ [.request .encEnd []])
      (by rw [hua]; exact fun ev hev => List.mem_cons_of_mem _ hev)
    have hst := (step_event hua (State.isBlocked_of_answered huh)).trans
      (runRequest_first (b := b) (s := { u with agenda := S.map byteEvent ++ [.request .encEnd []] }) huph (by simp)
        (byteOfBits_bitsMsb b))
    have hf : Feeding (State.tookEnc { u with agenda := S.map byteEvent ++ [.request .encEnd []] }
        { u.enc with cur := .write [b], phase := .run }) (Sync.init s.params r f) [b] S [r, f] :=
      { inv := hi.tookEnc (hui.enc.first huph b), agenda := rfl, held := huh, phase := rfl, sync := hus, cur := rfl
        bits := hub }
    obtain ⟨t, ht, hti, htp, htpar, k, htb⟩ := hf.words
    refine ⟨t, (runSteps_succ hu _).trans ((runSteps_succ hst _).trans ht), hti, htp, htpar.trans hup, k, ?_⟩
    rw [htb]
    show [r, f] ++ wordsOf u.params.bitOrder _ _ _ ++ _ = _
    rw [hup]; rfl

/-! ## The decoder from DEC_START -/

/-- The decoder is about to read its first codeword, by itself. -/
structure Opening (s : State) (y : Sync) (bits : Bits) : Prop where
  inv : s.Inv
  agenda : s.agenda = []
  held : s.dec.held = false
  phase : s.dec.phase = .first
  mid : s.dec.midStep = none
  sync : s.dec.sync.values = y
  bits : s.dec.inp.bits = bits
  out : s.dec.out.bytes = []

/-- R135: the step of phase `FIRST` on a codeword that is there. -/
theorem Opening.step {y : Sync} {v : Nat} {rest : Bits}
    (h : Opening s y (valueBits s.params.bitOrder v y.fsm.w ++ rest)) (hv : v < 2 ^ y.fsm.w) :
    step s = exec (classFirst v) (s.afterRead y.fsm.w) := by
  have hl : s.dec.sync.values.fsm.w ≤ s.dec.inp.bits.length := by rw [h.sync, h.bits]; simp
  have htake : s.dec.inp.bits.take y.fsm.w = valueBits s.params.bitOrder v y.fsm.w := by
    rw [h.bits, List.take_left' (length_valueBits _ _ _)]
  rw [step_decoder h.agenda (by simp [Decoder.busy, h.phase]) h.held, runDecoder_first h.phase hl, h.sync, htake,
    bitsValue_valueBits _ hv]

/-- R137: the empty stream. -/
theorem Opening.sentinel {y : Sync} {rest : Bits} (h : Opening s y (valueBits s.params.bitOrder sentinelCode y.fsm.w ++ rest))
    (hv : sentinelCode < 2 ^ y.fsm.w) : ∃ t, Machine.step s = .next t ∧ Ended [] t := by
  have hi := h.inv.afterRead y.fsm.w
  have hph : (s.afterRead y.fsm.w).dec.phase = .first := h.phase
  have hb := hi.dec.busy (by simp [Decoder.busy, hph])
  refine ⟨{ s.afterRead y.fsm.w with dec := (s.afterRead y.fsm.w).dec.finished }, ?_, rfl, hb.1, ?_⟩
  · rw [h.step hv, classFirst_sent, exec, execFirstSent, hph]
    simp [Decoder.finish_eq hb.2.1]
  show ({ bytes := s.dec.out.bytes, closed := true } : ByteOut) = _
  rw [h.out]

/-- R136: a first codeword that is a byte. -/
theorem Opening.literal {y : Sync} {b : Byte} {rest : Bits}
    (h : Opening s y (valueBits s.params.bitOrder b.toNat y.fsm.w ++ rest)) (hv : b.toNat < 2 ^ y.fsm.w) :
    ∃ t, Machine.step s = .next t ∧ t.params = s.params ∧ Ready t y [b] rest [] := by
  have hi := h.inv.afterRead y.fsm.w
  have hph : (s.afterRead y.fsm.w).dec.phase = .first := h.phase
  have hb : b.toNat ≤ 255 := Nat.le_of_lt_succ b.isLt
  refine ⟨{ s.afterRead y.fsm.w with dec := (s.afterRead y.fsm.w).dec.opened [b] }, ?_, rfl, ?_⟩
  · rw [h.step hv, classFirst_lit hb, exec, execFirstLit, hph]
    simp [hb, Decoder.opened]
  · exact
      { inv := hi.withDec (hi.dec.opened hph (by simp)), agenda := h.agenda, held := h.held, phase := rfl, mid := h.mid
        sync := h.sync, val := rfl, out := h.out
        bits := by
          show s.dec.inp.bits.drop _ = _
          rw [h.bits, List.drop_left' (length_valueBits _ _ _)] }

/-- A fresh stream's anticipated width is its first width. -/
theorem Sync.init_nextWidth (hp : p.legal) (r f : Bool) :
    fsmNextWidth (Sync.init p r f).fsm (Sync.init p r f).n = (Sync.init p r f).fsm.w := by
  have hy : (Sync.init p r f).Inv p .encoder := Sync.init_inv hp r f
  have : fsmClassify (Sync.init p r f).fsm (Sync.init p r f).n = .insert := if_pos (firstCode_lt _ (hy.w_pos hp))
  simp [fsmNextWidth, this]

/-- R116 (2), R136, R137: from the first codeword on, the decoder emits what the encoder was given. -/
theorem Opening.stream {r f : Bool} {S : Str} {tail : Bits} (hcap : s.params.capLargeEnough)
    (h : Opening s (Sync.init s.params r f) (streamOf s.params.bitOrder (Sync.init s.params r f) S ++ tail)) :
    ∃ k t, runSteps k s = .next t ∧ Ended S t := by
  have hp := h.inv.params
  have hy : (Sync.init s.params r f).Inv s.params .encoder := Sync.init_inv hp r f
  cases S with
  | nil =>
    have hfit := (sentinel_fits hy hp).2
    rw [streamOf, Sync.init_nextWidth hp] at h
    rw [Sync.init_nextWidth hp] at hfit
    obtain ⟨t, ht, he⟩ := h.sentinel hfit
    exact ⟨1, t, (runSteps_succ ht 0).trans (runSteps_zero _), he⟩
  | cons b S =>
    have hc : lookupStr (Sync.init s.params r f).table [b] = some b.toNat := rfl
    have hfit := (lookupStr_lt hy hc).2.2
    rw [streamOf] at h
    cases S with
    | nil =>
      rw [wordsOf_nil _ hc, List.append_assoc] at h
      obtain ⟨u, hu, hup, hr⟩ := h.literal hfit
      rw [← hup] at hy
      rw [← hup] at hr
      obtain ⟨k, t, ht, he⟩ := hr.last hy
      exact ⟨k + 1, t, (runSteps_succ hu k).trans ht, by simpa using he⟩
    | cons b' S =>
      have hk : lookupStr (Sync.init s.params r f).table ([b] ++ [b']) = none := rfl
      rw [wordsOf_emit _ hc hk, List.append_assoc] at h
      obtain ⟨u, hu, hup, hr⟩ := h.literal hfit
      have hf := Follows.next hp hy (curKnown_single _ b) hk
      rw [← hup] at hf hr hcap
      obtain ⟨k, t, ht, he⟩ := hr.words S hf hcap
      exact ⟨k + 1, t, (runSteps_succ hu k).trans ht, by simpa using he⟩

/-- R134, R116: from the header on, the decoder emits what the encoder was given. -/
theorem expand_stream (h : s.Inv) (hcap : s.params.capLargeEnough) (ha : s.agenda = []) (hh : s.dec.held = false)
    (hph : s.dec.phase = .hdr) (hm : s.dec.midStep = none) (ho : s.dec.out.bytes = []) {r f : Bool} {S : Str} {tail : Bits}
    (hb : s.dec.inp.bits = r :: f :: streamOf s.params.bitOrder (Sync.init s.params r f) S ++ tail) :
    ∃ k t, runSteps k s = .next t ∧ Ended S t := by
  have hst := (step_decoder ha (by simp [Decoder.busy, hph]) hh).trans
    (runDecoder_hdr hph (by rw [hb]; simp [headerBits]))
  have hr : s.dec.inp.bits.getD 0 false = r := by rw [hb]; rfl
  have hf : s.dec.inp.bits.getD 1 false = f := by rw [hb]; rfl
  rw [hr, hf] at hst
  have hi := h.afterRead headerBits
  have hop : Opening { s.afterRead headerBits with dec := Decoder.headed s.params r f (s.afterRead headerBits).dec }
      (Sync.init s.params r f) (streamOf s.params.bitOrder (Sync.init s.params r f) S ++ tail) :=
    { inv := hi.withDec (hi.dec.headed h.params hph r f), agenda := ha, held := hh, phase := rfl, mid := hm, sync := rfl, out := ho
      bits := by show s.dec.inp.bits.drop 2 = _; rw [hb]; rfl }
  obtain ⟨k, t, ht, he⟩ := Opening.stream (s := { s.afterRead headerBits with
    dec := Decoder.headed s.params r f (s.afterRead headerBits).dec }) hcap hop
  exact ⟨k + 1, t, (runSteps_succ hst k).trans ht, he⟩

end Sys2Proof.Machine
end

