-- ==== Sys2Proof/Tests/Slice0.lean ====
section
/-! SUPPORT. Our own tests: the well-formedness smoke test, words written out from the spec's encodings, one step of each
instruction with values from spec/95_test_vectors.md, and a witness for every statement that has hypotheses. -/

namespace Sys2Proof.Tests

open Sys2Proof Sys2Proof.Machine

/-! ## Well-formedness: an ill-formed term for each check -/

theorem test_wf_firstLit : (Instr.firstLit 256).wf = false ∧ (Instr.firstLit 255).wf = true := by decide
theorem test_wf_firstBad : (Instr.firstBad 256).wf = false ∧ (Instr.firstBad 257).wf = true := by decide
theorem test_wf_lit : (Instr.lit 256).wf = false ∧ (Instr.lit 255).wf = true := by decide
theorem test_wf_ref : (Instr.ref 256).wf = false ∧ (Instr.ref 257).wf = true := by decide
theorem test_wf_bad : (Instr.bad 257).wf = false ∧ (Instr.bad 258).wf = true := by decide
theorem test_wf_pad : (Instr.pad 8).wf = false ∧ (Instr.pad 7).wf = true := by decide
theorem test_wf_insert_string : (Instr.opInsert .decoder [] 257).wf = false ∧ (Instr.opInsert .encoder [] 257).wf = true := by decide
theorem test_wf_insert_code : (Instr.opInsert .decoder [0, 1] 256).wf = false := by decide
theorem test_fits_ref : (Instr.ref 258).fits (.run 9 258) = false ∧ (Instr.ref 257).fits (.run 9 258) = true := by decide
theorem test_fits_self : Instr.selfRef.fits (.run 9 512) = false ∧ Instr.selfRef.fits (.run 9 511) = true := by decide
theorem test_fits_bad : (Instr.bad 512).fits (.run 9 257) = false ∧ (Instr.bad 511).fits (.run 9 257) = true := by decide
theorem test_fits_sentinel : Instr.sentAt9.fits (.sentinel 10) = false := by decide
theorem test_fits_pad : (Instr.pad 3).fits (.padding 2) = false := by decide
theorem test_fits_class : (Instr.encEmit 0).fits (.encByte .first) = false ∧ Instr.encEndRun.fits (.encEnd .inEmpty) = false := by
  decide
theorem test_fits_agent : (Instr.brGrow .encoder).fits (.br .decoder) = false ∧
    (Instr.opReinit .encoder).fits (.op .decoder [] 0) = false := by decide

/-! ## Words written out from the spec -/

/-- What a word decodes to, in the normative bit order, with nothing left over. -/
def reads (c : Ctx) (w : Bits) (i : Instr) : Bool := decide (decode .msbFirst c w = .ok (i, []))

/-- R76. -/
theorem test_word_hdr : reads .header [true, false] (.hdr true false) = true ∧
    reads .header [false, true] (.hdr false true) = true := by decide
/-- R85, L2.3: `97@9`. -/
theorem test_word_firstLit :
    reads (.first 9) [false, false, true, true, false, false, false, false, true] (.firstLit 97) = true := by decide
theorem test_word_firstSent :
    reads (.first 9) [true, false, false, false, false, false, false, false, false] .firstSent = true := by decide
/-- L2.5 D-E4: `257@9` in `FIRST`. -/
theorem test_word_firstBad :
    reads (.first 9) [true, false, false, false, false, false, false, false, true] (.firstBad 257) = true := by decide
theorem test_word_sent :
    reads (.run 9 257) [true, false, false, false, false, false, false, false, false] .sent = true := by decide
/-- `97@12`. -/
theorem test_word_lit : reads (.run 12 257)
    [false, false, false, false, false, true, true, false, false, false, false, true] (.lit 97) = true := by decide
/-- `257@9`, with `n = 258`, with `n = 257`, and `258@9` with `n = 257` (R86). -/
theorem test_word_ref :
    reads (.run 9 258) [true, false, false, false, false, false, false, false, true] (.ref 257) = true := by decide
theorem test_word_self :
    reads (.run 9 257) [true, false, false, false, false, false, false, false, true] .selfRef = true := by decide
theorem test_word_bad :
    reads (.run 9 257) [true, false, false, false, false, false, false, true, false] (.bad 258) = true := by decide
/-- R78: the eight patterns. -/
theorem test_word_sentAt9 : reads (.sentinel 9) [true, false, false, false, false, false, false, false, false] .sentAt9 = true := by
  decide
theorem test_word_sentAt10 : reads (.sentinel 10)
    [false, true, false, false, false, false, false, false, false, false] .sentAt10 = true := by decide
theorem test_word_sentAt11 : reads (.sentinel 11)
    [false, false, true, false, false, false, false, false, false, false, false] .sentAt11 = true := by decide
theorem test_word_sentAt12 : reads (.sentinel 12)
    [false, false, false, true, false, false, false, false, false, false, false, false] .sentAt12 = true := by decide
theorem test_word_sentAt13 : reads (.sentinel 13)
    [false, false, false, false, true, false, false, false, false, false, false, false, false] .sentAt13 = true := by decide
theorem test_word_sentAt14 : reads (.sentinel 14)
    [false, false, false, false, false, true, false, false, false, false, false, false, false, false] .sentAt14 = true := by decide
theorem test_word_sentAt15 : reads (.sentinel 15)
    [false, false, false, false, false, false, true, false, false, false, false, false, false, false, false] .sentAt15 = true := by
  decide
theorem test_word_sentAt16 : reads (.sentinel 16)
    [false, false, false, false, false, false, false, true, false, false, false, false, false, false, false, false]
    .sentAt16 = true := by decide
/-- A word of a sentinel's width that is not the pattern is no sentinel. -/
theorem test_word_notSentinel : decode .msbFirst (.sentinel 9)
    [true, false, false, false, false, false, false, false, true] = .error .notSentinel := by decide
/-- R79: any three bits. -/
theorem test_word_pad : reads (.padding 3) [true, false, true] (.pad 3) = true := by decide
theorem test_word_encStart : reads .encStart [false, true] (.encStart false true) = true := by decide
/-- R80: the byte 0x61, in each class. -/
theorem test_word_encByte :
    reads (.encByte .first) [false, true, true, false, false, false, false, true] (.encFirst 0x61) = true ∧
    reads (.encByte .extend) [false, true, true, false, false, false, false, true] (.encExtend 0x61) = true ∧
    reads (.encByte .emit) [false, true, true, false, false, false, false, true] (.encEmit 0x61) = true := by decide
theorem test_word_encEnd : reads (.encEnd .inRun) [] .encEndRun = true ∧ reads (.encEnd .inEmpty) [] .encEndEmpty = true := by
  decide
theorem test_word_decStart : reads .decStart [] .decStart = true := by decide
/-- R81. -/
theorem test_word_br :
    reads (.br .encoder) [false, false] (.brInsert .encoder) = true ∧ reads (.br .decoder) [false, true] (.brGrow .decoder) = true ∧
    reads (.br .encoder) [true, false] (.brReset .encoder) = true ∧ reads (.br .decoder) [true, true] (.brFull .decoder) = true := by
  decide
/-- R82. -/
theorem test_word_op :
    reads (.op .encoder [1] 9) [false, false] (.opLookup (.str [1])) = true ∧
    reads (.op .decoder [1] 9) [false, false] (.opLookup (.code 9)) = true ∧
    reads (.op .decoder [1, 2] 257) [false, true] (.opInsert .decoder [1, 2] 257) = true ∧
    reads (.op .encoder [] 0) [true, false] (.opReinit .encoder) = true ∧
    reads (.op .encoder [] 0) [true, true] (.opReserved .encoder) = true := by decide
/-- R51 under `LSB_FIRST`: 258 in nine bits. -/
theorem test_word_lsb :
    valueBits .lsbFirst 258 9 = [false, true, false, false, false, false, false, false, true] := by decide
/-- L2.3: the bytes `0c 30 00` of "a", whose header is two zero bits. -/
theorem test_bytes_header : decodeBytes .msbFirst .header [0x0c] = .ok (.hdr false false,
    [false, false, true, true, false, false]) := by decide
/-- L1.6: `20 00` and `44 00`. -/
theorem test_bytes_pack :
    packBytes .msbFirst ([false, false] ++ valueBits .msbFirst 256 9) = [0x20, 0x00] ∧
    packBytes .msbFirst ([false, true] ++ valueBits .msbFirst 256 12) = [0x44, 0x00] := by decide

/-! ## Small states -/

/-- The outcome is a next state of which `p` holds. -/
def nextIs (x : Out State) (p : State → Bool) : Bool :=
  match x with
  | .next t => p t
  | .fault _ => false
  | .refused _ => false

/-- The outcome is this refusal. -/
def isRefused (x : Out State) (r : Refusal) : Bool :=
  match x with
  | .next _ => false
  | .fault _ => false
  | .refused q => decide (q = r)

/-- A fresh dynamic or static sync with the normative parameters. -/
def sync0 (allow fixed : Bool) : Sync := Sync.init .normative allow fixed

/-- The sync after one growth event, 257 = "aa". -/
def syncAa : Sync := { sync0 false false with n := 258, table := [(257, [0x61, 0x61])] }

/-- An encoder with an open stream whose header is written. -/
def encAt (ph : EncPhase) (y : Sync) (cur : Str) : State :=
  { State.reset with enc := { Encoder.powerOn with
      phase := ph, sync := .put y, cur := .write cur, nbits := .write 2, out := { bits := [y.fsm.allow, y.fsm.fixed], closed := false } } }

/-- A decoder with an open stream, these bits to come and then the end. -/
def decAt (ph : DecPhase) (y : Sync) (val : Str) (bits : Bits) : State :=
  { State.reset with dec := { Decoder.powerOn with
      phase := ph, sync := .put y, val := .write val, pos := .write 2, inp := { bits := bits, ended := true } } }

/-- A decoder in a `RUN` step whose codeword has been read. -/
def decIn (br : Branch) (y : Sync) (val : Str) : State :=
  { decAt .run y val [] with dec := { (decAt .run y val []).dec with midStep := some br } }

/-- A sync in which a codeword table is full: `n = L`. -/
def fullFsm (allow fixed : Bool) (w : Nat) : Fsm :=
  { fsmInit .normative allow fixed with w := w, l := 2 ^ w }

/-! ## One step of each instruction -/

/-- L2.4, the header of E4, and L2.1: `HDR 1 1`. -/
theorem test_encStart : nextIs (exec (.encStart true true) State.reset) (fun t =>
    t.enc.phase = .empty && t.enc.out.bits = [true, true] && t.enc.nbits = .write 2 &&
    t.enc.sync.n = .write 257 && t.enc.sync.fsm.value.w = 12 && t.enc.sync.fsm.value.l = 4096) = true := by decide
/-- E-R3. -/
theorem test_encStart_refused : isRefused (exec (.encStart false false) (encAt .run (sync0 false false) [0x61])) .transaction = true := by
  decide
theorem test_encFirst : nextIs (exec (.encFirst 0x61) (encAt .empty (sync0 false false) [])) (fun t =>
    t.enc.phase = .run && t.enc.cur = .write [0x61] && t.enc.out.bits = [false, false]) = true := by decide
/-- E-R1. -/
theorem test_encFirst_refused : isRefused (exec (.encFirst 0x61) State.reset) .transaction = true := by decide
/-- E7: the third byte of "aaa". -/
theorem test_encExtend : nextIs (exec (.encExtend 0x61) (encAt .run syncAa [0x61])) (fun t =>
    t.enc.cur = .write [0x61, 0x61] && t.enc.nbits = .write 2) = true := by decide
/-- E6, E7: the second byte of "aa". -/
theorem test_encEmit : nextIs (exec (.encEmit 0x61) (encAt .run (sync0 false false) [0x61])) (fun t =>
    t.enc.sync = .put syncAa && t.enc.cur = .write [0x61] && t.enc.nbits = .write 11 &&
    t.enc.out.bits = [false, false, false, false, true, true, false, false, false, false, true]) = true := by decide
/-- E5: "a" is `0c 30 00`. -/
theorem test_encEndRun : nextIs (exec .encEndRun (encAt .run (sync0 false false) [0x61])) (fun t =>
    t.enc.phase = .done && t.enc.nbits = .write 20 && t.enc.out.closed &&
    packBytes .msbFirst t.enc.out.bits = [0x0c, 0x30, 0x00]) = true := by decide
/-- E4: the empty input in static mode with resets is `c4 00`. -/
theorem test_encEndEmpty : nextIs (exec .encEndEmpty (encAt .empty (sync0 true true) [])) (fun t =>
    t.enc.phase = .done && t.enc.nbits = .write 14 && packBytes .msbFirst t.enc.out.bits = [0xc4, 0x00]) = true := by decide
/-- R127, R104: the width is the anticipated one: `n = L = 512` writes ten bits (P3). -/
theorem test_sentAt10 : nextIs (exec .sentAt10 (encAt .run { fsm := fullFsm false false 9, n := 512, table := [] } [0x61]))
    (fun t => t.enc.nbits = .write 12 && t.enc.out.bits.drop 2 = bitsMsb 256 10) = true := by decide
theorem test_sentAt9_other :
    isRefused (exec .sentAt9 (encAt .run { fsm := fullFsm false false 9, n := 512, table := [] } [0x61])) .notThisClass = true := by
  decide
theorem test_sentAt12 : nextIs (exec .sentAt12 (encAt .empty (sync0 false true) [])) (fun t =>
    t.enc.out.bits.drop 2 = bitsMsb 256 12) = true := by decide
/-- The other rows of R78, each where it is the anticipated width. -/
theorem test_sentAt_rows : (List.all [(Instr.sentAt9, 9), (.sentAt11, 11), (.sentAt13, 13), (.sentAt14, 14), (.sentAt15, 15),
    (.sentAt16, 16)] fun q => nextIs (exec q.1 (encAt .run { fsm := fullFsm false false q.2, n := 257, table := [] } [0x61]))
      fun t => t.enc.out.bits.drop 2 = bitsMsb 256 q.2) = true := by decide
/-- R79: after two bits the padding is six. -/
theorem test_pad : nextIs (exec (.pad 6) (encAt .run (sync0 false false) [0x61])) (fun t =>
    t.enc.out.closed && t.enc.out.bits.length = 8 && t.enc.nbits = .write 2) = true := by decide

theorem test_decStart : nextIs (exec .decStart State.reset) (fun t =>
    t.dec.phase = .hdr && t.dec.pos = .write 0 && t.dec.err = .none && !t.dec.sync.fsm.written) = true := by decide
/-- R174: in HDR of a later stream the fsm is the stale one, `W` 9 of `WMAX` 16, and GROW applies to it. -/
theorem test_decStart_stale : nextIs (andThen (exec .decStart (decAt .error (sync0 false false) [] [])) (exec (.brGrow .decoder)))
    (fun t => t.dec.phase = .hdr && t.dec.sync.fsm = .write (fsmApply .grow (sync0 false false).fsm) &&
      t.dec.sync.fsm.value.w = 10) = true := by decide
/-- R149. -/
theorem test_decStart_refused : isRefused (exec .decStart (decAt .hdr (sync0 false false) [] [])) .transaction = true := by decide
/-- R176: the header step overwrites `val`. -/
theorem test_hdr_val : nextIs (exec (.hdr false true) (decAt .hdr (sync0 false false) [0x61] [])) (fun t =>
    t.dec.val.written && t.dec.freeVals = 1) = true := by decide
theorem test_hdr : nextIs (exec (.hdr false true) (decAt .hdr (sync0 false false) [] [])) (fun t =>
    t.dec.phase = .first && t.dec.sync = .put (sync0 false true)) = true := by decide
/-- D-E1: no bit at all. -/
theorem test_hdr_short : nextIs (runDecoder (decAt .hdr (sync0 false false) [] [])) (fun t =>
    t.dec.phase = .error && t.dec.err = .truncHeader && t.dec.pos = .write 2 && t.dec.out.closed) = true := by decide
/-- P2: the first codeword, `97@9`. -/
theorem test_firstLit : nextIs (runDecoder (decAt .first (sync0 false false) [] (bitsMsb 97 9))) (fun t =>
    t.dec.phase = .run && t.dec.val = .write [0x61] && t.dec.pos = .write 11 && t.dec.out.bytes = []) = true := by decide
/-- D-OK4. -/
theorem test_firstSent : nextIs (runDecoder (decAt .first (sync0 false false) [] (bitsMsb 256 9 ++ [true, true]))) (fun t =>
    t.dec.phase = .done && t.dec.pos = .write 11 && t.dec.out = { bytes := [], closed := true }) = true := by decide
/-- D-E4. -/
theorem test_firstBad : nextIs (runDecoder (decAt .first (sync0 false false) [] (bitsMsb 257 9))) (fun t =>
    t.dec.phase = .error && t.dec.err = .badCode && t.dec.pos = .write 11) = true := by decide
/-- D-E7: five bits left. -/
theorem test_first_short : nextIs (runDecoder (decAt .run (sync0 false false) [0x61] (bitsMsb 0 5))) (fun t =>
    t.dec.err = .truncCodeword && t.dec.out.bytes = [0x61] && t.dec.pos = .write 2 && t.dec.sync.n = .write 257) = true := by decide
theorem test_sent : nextIs (runDecoder (decAt .run (sync0 false false) [0x61] (bitsMsb 256 9))) (fun t =>
    t.dec.phase = .done && t.dec.out = { bytes := [0x61], closed := true } && t.dec.sync.n = .write 257) = true := by decide
/-- P1: `84@9 79@9` gives 257 = "TO". -/
theorem test_lit : nextIs (runDecoder (decAt .run (sync0 false false) [0x54] (bitsMsb 79 9))) (fun t =>
    t.dec.sync.n = .write 258 && t.dec.sync.table = .write [(257, [0x54, 0x4f])] && t.dec.val = .write [0x4f] &&
    t.dec.out.bytes = [0x54]) = true := by decide
/-- D-C1: with `STR_CAP = 1`. -/
theorem test_lit_capacity : nextIs (exec (.lit 97)
    { decIn .insert (sync0 false false) [0x61] with params := { Params.normative with strCap := some 1 } }) (fun t =>
    t.dec.phase = .error && t.dec.err = .capacity && t.dec.sync.n = .write 257) = true := by decide
theorem test_ref : nextIs (runDecoder (decAt .run syncAa [0x62] (bitsMsb 257 9))) (fun t =>
    t.dec.val = .write [0x61, 0x61] && t.dec.sync.table = .write [(257, [0x61, 0x61]), (258, [0x62, 0x61])] &&
    t.dec.out.bytes = [0x62]) = true := by decide
/-- D-OK1: `257@9` with `n = 257`. -/
theorem test_self : nextIs (runDecoder (decAt .run (sync0 false false) [0x61] (bitsMsb 257 9))) (fun t =>
    t.dec.val = .write [0x61, 0x61] && t.dec.sync = .put syncAa) = true := by decide
/-- D-E6. -/
theorem test_bad : nextIs (runDecoder (decAt .run (sync0 false false) [0x61] (bitsMsb 258 9))) (fun t =>
    t.dec.err = .badCode && t.dec.out.bytes = [0x61] && t.dec.pos = .write 11) = true := by decide

/-- F2. -/
theorem test_brInsert : nextIs (exec (.brInsert .encoder) (encAt .run { fsm := fullFsm false false 9, n := 511, table := [] } []))
    (fun t => t.enc.sync.fsm.value.w = 9 && t.enc.sync.fsm.value.l = 512) = true := by decide
/-- F4. -/
theorem test_brGrow : nextIs (exec (.brGrow .decoder) (decAt .run { fsm := fullFsm true false 10, n := 1024, table := [] } [] []))
    (fun t => t.dec.sync.fsm.value.w = 11 && t.dec.sync.fsm.value.l = 2048) = true := by decide
/-- F7. -/
theorem test_brReset : nextIs (exec (.brReset .encoder) (encAt .run { fsm := fullFsm true false 16, n := 65536, table := [] } []))
    (fun t => t.enc.sync.fsm.value.w = 9 && t.enc.sync.fsm.value.l = 512) = true := by decide
/-- F11. -/
theorem test_brFull : nextIs (exec (.brFull .encoder) (encAt .run { fsm := fullFsm false true 12, n := 4096, table := [] } []))
    (fun t => t.enc.sync.fsm.value.w = 12 && t.enc.sync.fsm.value.l = 4096) = true := by decide
/-- S1. -/
theorem test_opLookup : nextIs (exec (.opLookup (.str [0x61])) (encAt .run (sync0 false false) [])) (fun t =>
    t.reply = some (.code (some 97))) = true ∧
    nextIs (exec (.opLookup (.code 256)) (decAt .run (sync0 false false) [] [])) (fun t => t.reply = some (.string none)) = true := by
  decide
/-- S10: two codes may hold one string on the decoder side. -/
theorem test_opInsert : nextIs (exec (.opInsert .decoder [0x61, 0x61] 258) (decAt .run syncAa [] [])) (fun t =>
    t.dec.sync.table = .write [(257, [0x61, 0x61]), (258, [0x61, 0x61])]) = true := by decide
theorem test_opReinit : nextIs (exec (.opReinit .encoder) (encAt .run syncAa [])) (fun t =>
    t.enc.sync.table = .write [] && t.enc.sync.n = .write 258) = true := by decide
/-- R45, I6: from power-on the rows that read a register go on with what it holds, and the read is put on record. -/
theorem test_unwritten_reads :
    nextIs (exec (.brFull .encoder) State.reset) (fun t => t.enc.sync.readUnwritten && !t.dec.sync.readUnwritten) = true ∧
    nextIs (exec (.opLookup (.str [0x61])) State.reset) (fun t =>
      t.enc.sync.readUnwritten && t.reply = some (.code (some 97))) = true ∧
    nextIs (exec (.opInsert .decoder [0x61, 0x61] 257) State.reset) (fun t =>
      t.dec.sync.readUnwritten && t.dec.sync.table = .write [(257, [0x61, 0x61])]) = true := by decide
theorem test_opReserved : isRefused (exec (.opReserved .encoder) (encAt .run syncAa [])) .reservedTableOp = true := by decide

/-- The placed word of an opcode-table row runs at the very next step from reset: `DEC_START`, `SENT@9`. -/
theorem test_place_decStart : nextIs (step (State.reset.withFetchWord 0 0)) (fun t => t.dec.phase = .hdr) = true := by decide
theorem test_place_sent : nextIs (step (State.reset.withFetchWord 9 256)) (fun t =>
    t.enc.out.bits = bitsMsb 256 9) = true ∧ decodeTableWord 9 256 = some .sentAt9 := by decide

/-! ## Sound states for the witnesses -/

theorem normative_legal : Params.normative.legal := by decide

theorem encIdle_inv : Encoder.powerOn.Inv .normative :=
  ⟨fun h => absurd rfl h, fun h => (by cases h), fun h => (by cases h), fun h => (by cases h), fun h => (by cases h)⟩

theorem decIdle_inv : Decoder.powerOn.Inv .normative :=
  ⟨fun h => (by cases h), fun h => (by rcases h with h | h <;> cases h), fun h => (by cases h), fun h => (by cases h),
    fun _ h => (by cases h), fun _ => rfl, fun h => (by cases h), fun h => (by cases h)⟩

/-- A machine with this encoder, and one with this decoder, and the rest at power-on. -/
theorem withEnc_inv {e : Encoder} {l : List Event} (hl : ∀ ev ∈ l, ev.external) (h : e.Inv .normative) :
    ({ State.reset with enc := e, agenda := l } : State).Inv := ⟨normative_legal, hl, h, decIdle_inv⟩

theorem withDec_inv {d : Decoder} {l : List Event} (hl : ∀ ev ∈ l, ev.external) (h : d.Inv .normative) :
    ({ State.reset with dec := d, agenda := l } : State).Inv := ⟨normative_legal, hl, encIdle_inv, h⟩

theorem nil_external : ∀ ev ∈ ([] : List Event), ev.external := fun _ h => by cases h

/-- An open encoder in `RUN` is sound. -/
theorem encRun_inv {y : Sync} {cur : Str} (hy : y.Inv .normative .encoder) (hc : curKnown y.table cur) :
    (encAt .run y cur).enc.Inv .normative :=
  ⟨fun _ => ⟨rfl, rfl, hy⟩, fun _ => ⟨rfl, rfl⟩, fun h => (by cases h), fun _ => ⟨rfl, hc⟩, fun h => (by cases h)⟩

/-- An open encoder in `EMPTY` is sound. -/
theorem encEmpty_inv (r f : Bool) : (encAt .empty (sync0 r f) []).enc.Inv .normative :=
  ⟨fun _ => ⟨rfl, rfl, Sync.init_inv normative_legal r f⟩, fun _ => ⟨rfl, rfl⟩, fun _ => ⟨rfl, rfl⟩, fun h => (by cases h),
    fun h => (by cases h)⟩

/-- An open decoder between two `RUN` steps is sound. -/
theorem decRun_inv {y : Sync} {val : Str} {bits : Bits} (hy : y.Inv .normative .decoder) (hv : val ≠ []) :
    (decAt .run y val bits).dec.Inv .normative :=
  ⟨fun _ => ⟨rfl, rfl, rfl⟩, fun _ => ⟨rfl, hy⟩, fun h => (by cases h), fun _ => ⟨rfl, hv⟩, fun _ h => (by cases h),
    fun h => (by cases h), fun h => (by cases h), fun h => (by cases h)⟩

theorem decFirst_inv (r f : Bool) (bits : Bits) : (decAt .first (sync0 r f) [] bits).dec.Inv .normative :=
  ⟨fun _ => ⟨rfl, rfl, rfl⟩, fun _ => ⟨rfl, Sync.init_inv normative_legal r f⟩, fun _ => ⟨rfl, rfl⟩, fun h => (by cases h),
    fun _ h => (by cases h), fun h => (by cases h), fun h => (by cases h), fun h => (by cases h)⟩

theorem decHdr_inv (bits : Bits) : (decAt .hdr (sync0 false false) [] bits).dec.Inv .normative :=
  ⟨fun _ => ⟨rfl, rfl, rfl⟩, fun h => (by rcases h with h | h <;> cases h), fun h => (by cases h), fun h => (by cases h),
    fun _ h => (by cases h), fun h => (by cases h), fun h => (by cases h), fun h => (by cases h)⟩

/-- A decoder inside a `RUN` step is sound. -/
theorem decIn_inv {br : Branch} {y : Sync} {val : Str} (hy : y.Inv .normative .decoder) (hv : val ≠ [])
    (hb : br = .full ↔ y.n = y.fsm.l) : (decIn br y val).dec.Inv .normative :=
  ⟨fun _ => ⟨rfl, rfl, rfl⟩, fun _ => ⟨rfl, hy⟩, fun h => (by cases h), fun _ => ⟨rfl, hv⟩,
    fun _ h => (by cases h; exact ⟨rfl, hb⟩), fun h => (by cases h), fun h => (by cases h), fun h => (by cases h)⟩

/-- The fsm of the dynamic or static mode, at a width within its bounds. -/
theorem fullFsm_inv (allow fixed : Bool) {w : Nat} (h1 : (fsmInit .normative allow fixed).wMin ≤ w)
    (h2 : w ≤ (fsmInit .normative allow fixed).wMax) : (fullFsm allow fixed w).Inv .normative :=
  ⟨rfl, h1, h2, rfl⟩

/-- A sync whose table is full at width `w`. -/
def syncFull (allow fixed : Bool) (w : Nat) : Sync :=
  { fsm := fullFsm allow fixed w, n := 2 ^ w, table := filledTable (2 ^ w) }

theorem syncFull_inv (a : Agent) {allow fixed : Bool} {w : Nat} (hf : (fullFsm allow fixed w).Inv .normative) (h9 : 9 ≤ w)
    (h16 : w ≤ 16) : (syncFull allow fixed w).Inv .normative a where
  fsm := hf
  low := Nat.le_of_lt (firstCode_lt w h9)
  high := Nat.le_refl _
  codes := by
    simp only [syncFull, filledTable, List.map_map, List.range'_eq_map_range]
    exact List.map_congr_left fun k _ => rfl
  long := by
    intro e he
    simp only [syncFull, filledTable, List.mem_map] at he
    obtain ⟨k, -, rfl⟩ := he
    simp
  unique := by
    intro _
    simp only [syncFull, filledTable, List.map_map]
    refine List.Nodup.map_on (fun x hx y hy h => ?_) List.nodup_range
    have hw : 2 ^ w ≤ 2 ^ 16 := Nat.pow_le_pow_right (by decide) h16
    simp only [List.mem_range] at hx hy
    simp only [Function.comp_apply, List.cons.injEq, and_true] at h
    have e1 := congrArg BitVec.toNat h.1
    have e2 := congrArg BitVec.toNat h.2
    simp only [BitVec.toNat_ofNat] at e1 e2
    omega

/-- No string of three bytes is in such a table. -/
theorem filledTable_long (n : Nat) {s : Str} (h : 3 ≤ s.length) : lookupStr (filledTable n) s = none := by
  rw [lookupStr_long (by omega), entryOf_eq_none]
  intro hs
  simp only [filledTable, List.map_map, List.mem_map] at hs
  obtain ⟨k, -, rfl⟩ := hs
  simp at h

theorem syncFull_long (allow fixed : Bool) (w : Nat) : lookupStr (syncFull allow fixed w).table [1, 2, 3] = none := by
  have h := filledTable_long (2 ^ w) (s := [1, 2, 3]) (Nat.le_refl 3)
  simpa only [syncFull] using h

/-- FSM_CLASSIFY on the full tables: GROW at width 9, RESET and FULL at the last width. -/
theorem syncFull_branch : (syncFull false false 9).branch = .grow ∧ (syncFull true false 16).branch = .reset ∧
    (syncFull false false 16).branch = .full ∧ (syncFull true true 12).branch = .reset ∧
    (syncFull false true 12).branch = .full := ⟨rfl, rfl, rfl, rfl, rfl⟩

/-! ## Witnesses: states and operands that meet the hypotheses of each statement, clause by clause -/

/-- The sync with 257 = "aa" is sound. -/
theorem syncAa_inv (a : Agent) : syncAa.Inv .normative a where
  fsm := fsmInit_inv normative_legal false false
  low := by decide
  high := by decide
  codes := by decide
  long := by decide
  unique := fun _ => by decide

theorem sync0_inv (a : Agent) (r f : Bool) : (sync0 r f).Inv .normative a := Sync.init_inv normative_legal r f

/-- The open encoder after "a", and one that has 257 = "aa". -/
theorem encA_inv : (encAt .run (sync0 false false) [0x61]).Inv :=
  withEnc_inv nil_external (encRun_inv (sync0_inv _ _ _) (curKnown_single _ _))

theorem encAa_inv : (encAt .run syncAa [0x61]).Inv :=
  withEnc_inv nil_external (encRun_inv (syncAa_inv _) (curKnown_single _ _))

/-- The open decoder after `97@9`, with these bits to come. -/
theorem decA_inv (bits : Bits) : (decAt .run (sync0 false false) [0x61] bits).Inv :=
  withDec_inv nil_external (decRun_inv (sync0_inv _ _ _) (by decide))

theorem decF_inv (bits : Bits) : (decAt .first (sync0 false false) [] bits).Inv :=
  withDec_inv nil_external (decFirst_inv _ _ _)

theorem decH_inv (bits : Bits) : (decAt .hdr (sync0 false false) [] bits).Inv :=
  withDec_inv nil_external (decHdr_inv _)

theorem witness_StepKeepsInvariant_StepNeverStops : ∃ s t : State, s.Inv ∧ step s = .next t ∧ t.dec.val.value = [0x4f] := by
  refine ⟨decAt .run (sync0 false false) [0x61] (bitsMsb 79 9), ?_⟩
  obtain ⟨t, ht, -⟩ := runDecoder_sound (decA_inv (bitsMsb 79 9))
  exact ⟨t, decA_inv _, (step_decoder rfl rfl rfl).trans ht, by
    have h : nextIs (runDecoder (decAt .run (sync0 false false) [0x61] (bitsMsb 79 9))) (fun t => t.dec.val.value = [0x4f]) = true := by
      decide
    rw [ht] at h
    simpa [nextIs] using h⟩

theorem witness_InstancesShareNothing_InterleavingDoesNotMatter :
    (Event.request .encStart [true, false]).agent ≠ (Event.request .decStart []).agent ∧
    nextIs (takeEvent (.request .encStart [true, false]) State.reset)
      (fun a => nextIs (takeEvent (.request .decStart []) a) fun b => b.enc.phase = .empty && b.dec.phase = .hdr) = true ∧
    nextIs (takeEvent (.request .decStart []) State.reset)
      (fun a => nextIs (takeEvent (.request .encStart [true, false]) a) fun b => b.enc.phase = .empty && b.dec.phase = .hdr) = true := by
  decide

theorem witness_ConfigurationIsConstant_OutputsOnlyGrow :
    nextIs (step { encAt .run (sync0 false false) [0x61] with agenda := [.request .encByte (bitsMsb 0x61 8)] })
      (fun t => t.enc.busy && t.enc.out.bits.length = 11) = true ∧
    nextIs (step (decAt .run (sync0 false false) [0x61] (bitsMsb 97 9)))
      (fun t => t.dec.phase = .run && t.dec.out.bytes = [0x61]) = true ∧
    nextIs (step (decAt .first (sync0 false false) [] (bitsMsb 97 9))) (fun t => t.dec.phase = .run) = true := by decide

theorem witness_HeldInstanceTakesNoStep :
    nextIs (step { State.reset with
      enc := { Encoder.powerOn with held := true }, agenda := [.request .encStart [true, true], .request .decStart []] })
      (fun t => t.enc.held && t.enc.phase = .idle && t.dec.phase = .hdr && t.agenda.length = 1) = true ∧
    nextIs (step { decAt .run (sync0 false false) [0x61] [] with
      dec := { (decAt .run (sync0 false false) [0x61] []).dec with held := true }, agenda := [.deliver .next [1], .decStep] })
      (fun t => t.dec.held && t.dec.phase = .run && t.dec.nextInp.bits.length = 8) = true ∧
    State.isBlocked { State.reset with
      enc := { Encoder.powerOn with held := true }, agenda := [.request .encStart [true, true]] } .encoder = true := by decide

/-- R72, R122, R133: what calls no primitive runs although no collaborator answers. -/
theorem test_held_without_primitive :
    nextIs (step { encAt .empty (sync0 false false) [] with
      enc := { (encAt .empty (sync0 false false) []).enc with held := true }, agenda := [.request .encByte (bitsMsb 0x61 8)] })
      (fun t => t.enc.held && t.enc.phase = .run && t.enc.cur.value = [0x61]) = true ∧
    nextIs (step { State.reset with
      dec := { Decoder.powerOn with held := true }, agenda := [.request .decStart []] })
      (fun t => t.dec.held && t.dec.phase = .hdr) = true := by decide

/-- R64 states no answer for the empty string: the lookup runs, and its answer is not looked at. -/
theorem test_opLookup_empty : nextIs (exec (.opLookup (.str [])) (encAt .run (sync0 false false) [])) (fun t =>
    t.reply.isSome && t.freeReplies = 1) = true := by decide

/-- R65: on the encoder side the empty string may be a key; R66: on the decoder side it is no entry. -/
theorem test_opInsert_empty :
    nextIs (exec (.opInsert .encoder [] 258) (encAt .run syncAa [0x61])) (fun t =>
      t.enc.sync.table.value = [(257, [0x61, 0x61]), (258, [])]) = true ∧
    exec (.opInsert .decoder [] 258) (decAt .run syncAa [] []) = .fault .insertConflict := ⟨by decide, rfl⟩

theorem witness_StepRunsDecodedRequest :
    (let s : State := { State.reset with agenda := [.request .encStart [true, false]] }
     s.isHeld Port.encStart.agent = false ∧ requestFetch .encStart [true, false] { s with agenda := [] } = .next (.encStart true false)) :=
  ⟨rfl, rfl⟩

theorem witness_StepRunsDecodedCodeword :
    decode .msbFirst .header ((decAt .hdr (sync0 false false) [] [true, false]).dec.inp.bits.take headerBits) =
      .ok (.hdr true false, []) ∧
    decode .msbFirst (.first 9) ((decAt .first (sync0 false false) [] (bitsMsb 97 9)).dec.inp.bits.take 9) = .ok (.firstLit 97, []) ∧
    (∃ d, (decAt .run (sync0 false false) [0x61] (bitsMsb 257 9)).dec.begin = .next d ∧ d.sync.written = true ∧
      d.sync.values.fsm.w = 9 ∧ decode .msbFirst (.run 9 d.sync.values.n) (bitsMsb 257 9) = .ok (.selfRef, [])) :=
  ⟨by decide, by decide, _, rfl, rfl, rfl, by decide⟩

theorem witness_DecodeEncode_EncodeDecode :
    (Instr.ref 511).fits (.run 10 512) = true ∧ encode .lsbFirst (.run 10 512) (.ref 511) =
      [true, true, true, true, true, true, true, true, true, false] ∧ (Ctx.run 10 512).width = 10 ∧
    decode .lsbFirst (.run 10 512) [true, true, true, true, true, true, true, true, true, false] = .ok (.ref 511, []) := by decide

theorem witness_BitOrderOfValues : valueBits .msbFirst 256 9 = [true, false, false, false, false, false, false, false, false] ∧
    valueBits .lsbFirst 1 9 = [true, false, false, false, false, false, false, false, false] ∧ 256 < 2 ^ 9 := by decide

/-- The values where the classes meet. -/
theorem witness_CodewordClasses :
    decode .msbFirst (.first 9) (valueBits .msbFirst 255 9) = .ok (.firstLit 255, []) ∧
    decode .msbFirst (.first 9) (valueBits .msbFirst 256 9) = .ok (.firstSent, []) ∧
    decode .msbFirst (.first 9) (valueBits .msbFirst 257 9) = .ok (.firstBad 257, []) ∧
    decode .msbFirst (.run 9 300) (valueBits .msbFirst 255 9) = .ok (.lit 255, []) ∧
    decode .msbFirst (.run 9 300) (valueBits .msbFirst 256 9) = .ok (.sent, []) ∧
    decode .msbFirst (.run 9 300) (valueBits .msbFirst 257 9) = .ok (.ref 257, []) ∧
    decode .msbFirst (.run 9 300) (valueBits .msbFirst 299 9) = .ok (.ref 299, []) ∧
    decode .msbFirst (.run 9 300) (valueBits .msbFirst 300 9) = .ok (.selfRef, []) ∧
    decode .msbFirst (.run 9 300) (valueBits .msbFirst 301 9) = .ok (.bad 301, []) := by decide

/-- A sound sync for each arm. -/
theorem witness_FullHasNoSelfOrBad_PreOfGrowth :
    ((sync0 false false).Inv .normative .decoder ∧ (sync0 false false).branch = .insert) ∧
    ((syncFull false false 9).Inv .normative .decoder ∧ (syncFull false false 9).branch = .grow) ∧
    ((syncFull true false 16).Inv .normative .decoder ∧ (syncFull true false 16).branch = .reset) ∧
    ((syncFull false false 16).Inv .normative .decoder ∧ (syncFull false false 16).branch = .full) :=
  ⟨⟨sync0_inv _ _ _, rfl⟩, ⟨syncFull_inv _ (fullFsm_inv _ _ (by decide) (by decide)) (by decide) (by decide), rfl⟩,
    ⟨syncFull_inv _ (fullFsm_inv _ _ (by decide) (by decide)) (by decide) (by decide), rfl⟩,
    ⟨syncFull_inv _ (fullFsm_inv _ _ (by decide) (by decide)) (by decide) (by decide), rfl⟩⟩

theorem witness_SentinelPatterns : Instr.sentAt9.sentinelWidth = some (9 + 0) ∧ Instr.sentAt16.sentinelWidth = some (9 + 7) := by decide

/-- The two modes of FSM_INIT. -/
theorem witness_StreamInit : fsmInit .normative true false = ⟨true, false, 9, 16, 9, 512⟩ ∧
    fsmInit .normative false true = ⟨false, true, 12, 12, 12, 4096⟩ := by decide

/-- F2, F3, F7, F8, at the values where the arms meet. -/
theorem witness_ClassifyArms :
    fsmClassify (fullFsm false false 9) 511 = .insert ∧ fsmClassify (fullFsm false false 9) 512 = .grow ∧
    fsmClassify (fullFsm true false 16) 65535 = .insert ∧ fsmClassify (fullFsm true false 16) 65536 = .reset ∧
    fsmClassify (fullFsm false false 16) 65536 = .full ∧
    fsmClassify (fullFsm true true 12) 4096 = .reset := ⟨rfl, rfl, rfl, rfl, rfl, rfl⟩

/-- Each arm's requirement, at the widths where the arms meet. -/
theorem witness_BranchRows :
    (let s := encAt .run { fsm := fullFsm false false 15, n := 32768, table := [] } []
     (s.syncOf .encoder).fsm = .write (fullFsm false false 15) ∧ (fullFsm false false 15).w < (fullFsm false false 15).wMax) ∧
    (∀ allow, let s := encAt .run { fsm := fullFsm allow false 16, n := 65536, table := [] } []
     (s.syncOf .encoder).fsm = .write (fullFsm allow false 16) ∧ (s.syncOf .encoder).n = .write (fullFsm allow false 16).l ∧
       (fullFsm allow false 16).w = (fullFsm allow false 16).wMax ∧ (fullFsm allow false 16).allow = allow) :=
  ⟨⟨rfl, by decide⟩, fun _ => ⟨rfl, rfl, rfl, rfl⟩⟩

/-- R100 requires nothing: BR_INSERT runs from power-on too. -/
theorem test_brInsert_powerOn (a : Agent) : exec (.brInsert a) State.reset = .next State.reset := by cases a <;> rfl

theorem witness_AnticipatedWidth : (fullFsm true false 16).Inv .normative ∧ (fullFsm true true 12).Inv .normative ∧
    fsmNextWidth (fullFsm true false 16) 65536 = 9 ∧ fsmNextWidth (fullFsm false false 15) 32768 = 16 :=
  ⟨fullFsm_inv _ _ (by decide) (by decide), fullFsm_inv _ _ (by decide) (by decide), rfl, rfl⟩

theorem witness_RegistersNeverOverflow : Params.normative.legal ∧ Params.normative.fitsRegisters ∧
    (syncFull false false 16).Inv .normative .encoder ∧ (sync0 false false).Inv .normative .encoder :=
  ⟨by decide, by decide, syncFull_inv _ (fullFsm_inv _ _ (by decide) (by decide)) (by decide) (by decide), sync0_inv _ _ _⟩

theorem witness_FullIsAbsorbing :
    (encAt .run (syncFull false false 16) [0x61]).Inv ∧ (encAt .run (syncFull false false 16) [0x61]).enc.busy = true ∧
    (decAt .run (syncFull false true 12) [0x61] []).Inv ∧ (decAt .run (syncFull false true 12) [0x61] []).dec.phase = .run ∧
    (syncFull false true 12).branch = .full :=
  ⟨withEnc_inv nil_external (encRun_inv (syncFull_inv _ (fullFsm_inv _ _ (by decide) (by decide)) (by decide) (by decide))
      (curKnown_single _ _)), rfl,
    withDec_inv nil_external (decRun_inv (syncFull_inv _ (fullFsm_inv _ _ (by decide) (by decide)) (by decide) (by decide))
      (by decide)), rfl, rfl⟩

theorem witness_StaticWidth : (syncFull true true 12).Inv .normative .encoder ∧ (syncFull true true 12).fsm.fixed = true ∧
    (syncFull true true 12).branch = .reset :=
  ⟨syncFull_inv _ (fullFsm_inv _ _ (by decide) (by decide)) (by decide) (by decide), rfl, rfl⟩

theorem witness_AddOfGrowth : syncAa.Inv .normative .encoder ∧ 2 ≤ ([0x61, 0x62] : Str).length ∧
    lookupStr syncAa.table [0x61, 0x62] = none := ⟨syncAa_inv _, by decide, by decide⟩

/-- A string that is not there yet, in each arm. -/
theorem witness_GrowthEvent : 2 ≤ ([1, 2, 3] : Str).length ∧ ∀ y ∈ [sync0 false false, syncFull false false 9,
    syncFull true false 16, syncFull false false 16], y.Inv .normative .encoder ∧ lookupStr y.table [1, 2, 3] = none := by
  refine ⟨by decide, ?_⟩
  simp only [List.forall_mem_cons, List.not_mem_nil, false_implies, implies_true, and_true]
  exact ⟨⟨sync0_inv _ _ _, rfl⟩,
    ⟨syncFull_inv _ (fullFsm_inv _ _ (by decide) (by decide)) (by decide) (by decide), syncFull_long _ _ 9⟩,
    ⟨syncFull_inv _ (fullFsm_inv _ _ (by decide) (by decide)) (by decide) (by decide), syncFull_long _ _ 16⟩,
    ⟨syncFull_inv _ (fullFsm_inv _ _ (by decide) (by decide)) (by decide) (by decide), syncFull_long _ _ 16⟩⟩

/-- P2: after the first "aa" the next codeword is the self-reference; and one that the table already holds. -/
theorem witness_DecoderFollowsEncoder :
    lookupStr (sync0 false false).table ([0x61] ++ [0x61]) = none ∧ ([0x61, 0x61] : Str).head? = some 0x61 ∧
    (sync0 false false).grow ([0x61] ++ [0x61]) = .next syncAa ∧ lookupStr syncAa.table [0x61, 0x61] = some 257 ∧
    lookupStr syncAa.table [0x61] = some 97 := ⟨rfl, rfl, rfl, rfl, rfl⟩

theorem witness_TableReads_TableKeepsForm :
    insertEntry .encoder [0x61, 0x62] 258 syncAa.table = .next [(257, [0x61, 0x61]), (258, [0x61, 0x62])] ∧
    insertEntry .decoder [0x61, 0x61] 258 syncAa.table = .next [(257, [0x61, 0x61]), (258, [0x61, 0x61])] ∧
    CodeTable.wf syncAa.table = true ∧
    nextIs (exec (.opInsert .decoder [0x61, 0x61] 258) (decAt .run syncAa [] [])) (fun t =>
      CodeTable.wf (t.syncOf .decoder).table.value) = true ∧
    nextIs (exec (.opReinit .decoder) (decAt .run syncAa [] [])) (fun t =>
      CodeTable.wf (t.syncOf .encoder).table.value) = true := ⟨rfl, rfl, rfl, rfl, rfl⟩

/-- The last code of the stream's code space is inside the requirement, the next is not. -/
theorem witness_TableRows :
    ((encAt .run syncAa []).syncOf .encoder).table = .write [(257, [0x61, 0x61])] ∧
    ((encAt .run syncAa []).syncOf .encoder).fsm = .write syncAa.fsm ∧ 65535 < 2 ^ syncAa.fsm.wMax ∧
    2 ^ syncAa.fsm.wMax ≤ 65536 ∧ lookupCode [(257, [0x61, 0x61])] 65535 = none ∧ lookupCode [(257, [0x61, 0x61])] 257 ≠ none ∧
    lookupStr [(257, [0x61, 0x61])] [0x61, 0x61] ≠ none ∧ lookupStr [(257, [0x61, 0x61])] [0x61, 0x62] = none :=
  ⟨rfl, rfl, by decide, by decide, by decide, by decide, by decide, by decide⟩

theorem witness_HostTransactionClasses_ByteRows :
    (encAt .empty (sync0 false false) []).Inv ∧ (encAt .run syncAa [0x61]).Inv ∧
    lookupStr syncAa.table ([0x61] ++ [0x61]) = some 257 ∧ lookupStr syncAa.table ([0x61] ++ [0x62]) = none ∧ State.reset.enc.phase = .idle :=
  ⟨withEnc_inv nil_external (encEmpty_inv _ _), encAa_inv, rfl, rfl, rfl⟩

theorem witness_RefusedTransactions :
    State.reset.enc.phase = .idle ∧ (bitsMsb 0x61 8).length = 8 ∧ (encAt .run syncAa [0x61]).enc.phase = .run ∧
    (decAt .hdr (sync0 false false) [] []).dec.phase = .hdr ∧ State.reset.dec.phase = .idle := by decide

theorem witness_EncStart : State.reset.params.legal ∧ State.reset.enc.phase = .idle ∧
    (encAt .run syncAa [0x61]).params.legal ∧ (encAt .run syncAa [0x61]).enc.phase = .run := by decide

theorem witness_EncEmit_EncEndRun_CurLength : (encAt .run syncAa [0x61]).Inv ∧ (encAt .run syncAa [0x61]).enc.phase = .run ∧
    lookupStr syncAa.table ([0x61] ++ [0x62]) = none := ⟨encAa_inv, rfl, rfl⟩

theorem witness_EncEndEmpty : (encAt .empty (sync0 true true) []).Inv ∧ (encAt .empty (sync0 true true) []).enc.phase = .empty :=
  ⟨withEnc_inv nil_external (encEmpty_inv _ _), rfl⟩

/-- Each of the eight widths is the anticipated width in some sound state. -/
theorem witness_SentinelRows : ∀ w, 9 ≤ w → w ≤ 16 →
    let y : Sync := { fsm := fullFsm false false w, n := 257, table := [] }
    (encAt .run y [0x61]).Inv ∧ (encAt .run y [0x61]).enc.busy = true ∧ fsmNextWidth y.fsm y.n = w := by
  intro w h1 h2
  have hf := fullFsm_inv false false (w := w) h1 h2
  have hlt : 257 < 2 ^ w := firstCode_lt w h1
  have hy : Sync.Inv .normative .encoder { fsm := fullFsm false false w, n := 257, table := [] } :=
    { fsm := hf, low := Nat.le_refl 257, high := Nat.le_of_lt hlt, codes := by simp [firstCode], long := by simp, unique := by simp }
  refine ⟨withEnc_inv nil_external (encRun_inv hy (curKnown_single _ _)), rfl, ?_⟩
  have : fsmClassify (fullFsm false false w) 257 = .insert := if_pos hlt
  simp only [fsmNextWidth, this]
  rfl

theorem witness_PadRow : (encAt .run syncAa [0x61]).enc.busy = true ∧ (encAt .run syncAa [0x61]).enc.nbits = .write 2 ∧
    (encAt .run syncAa [0x61]).enc.out.closed = false ∧ 6 = (8 - 2 % 8) % 8 := by decide

theorem witness_DecStart : State.reset.dec.phase = .idle ∧ (decAt .hdr (sync0 false false) [] []).dec.phase = .hdr := by decide

theorem witness_HeaderStep : (decAt .hdr (sync0 false false) [] [true, false]).dec.phase = .hdr ∧
    (decAt .hdr (sync0 false false) [] [true, false]).dec.pos.written = true ∧
    (decAt .hdr (sync0 false false) [] [true]).readsShort 2 := by decide

/-- The first codewords 255, 256 and 257, and one bit too few. -/
theorem witness_FirstStep_FirstRows : (∀ bits, (decAt .first (sync0 false false) [] bits).Inv) ∧ (sync0 false false).fsm.wMin = 9 ∧
    bitsValue .msbFirst (bitsMsb 255 9) ≤ 255 ∧ bitsValue .msbFirst (bitsMsb 256 9) = 256 ∧ 257 ≤ bitsValue .msbFirst (bitsMsb 257 9) ∧
    (decAt .first (sync0 false false) [] (bitsMsb 0 8)).readsShort 9 :=
  ⟨decF_inv, rfl, by decide, by decide, by decide, by decide⟩

/-- Each class of a later codeword, `n` being 258; and one bit too few. -/
theorem witness_RunStep : (∀ bits, (decAt .run syncAa [0x62] bits).Inv) ∧
    (syncAa.pre syncAa.branch).fsm.w = 9 ∧ (syncAa.pre syncAa.branch).n = 258 ∧
    bitsValue .msbFirst (bitsMsb 256 9) = 256 ∧ bitsValue .msbFirst (bitsMsb 255 9) ≤ 255 ∧ bitsValue .msbFirst (bitsMsb 257 9) = 257 ∧
    bitsValue .msbFirst (bitsMsb 258 9) = 258 ∧ 258 < bitsValue .msbFirst (bitsMsb 259 9) ∧
    (decAt .run syncAa [0x62] (bitsMsb 0 8)).readsShort 9 :=
  ⟨fun _ => withDec_inv nil_external (decRun_inv (syncAa_inv _) (by decide)), by decide, by decide, by decide, by decide,
    by decide, by decide, by decide, by decide⟩

/-- A `RUN` step in progress, in both kinds of arm. -/
theorem witness_SentAndBadRows_StringRows :
    (decIn .insert syncAa [0x62]).Inv ∧ (decIn .insert syncAa [0x62]).dec.midStep = some .insert ∧
    (decIn .insert syncAa [0x62]).dec.out.closed = false ∧ (decIn .insert syncAa [0x62]).dec.sync.values.n = 258 ∧
    (decIn .full (syncFull false true 12) [0x62]).Inv :=
  ⟨withDec_inv nil_external (decIn_inv (syncAa_inv _) (by decide) (by decide)), rfl, rfl, rfl,
    withDec_inv nil_external (decIn_inv (syncFull_inv _ (fullFsm_inv _ _ (by decide) (by decide)) (by decide) (by decide))
      (by decide) ⟨fun _ => rfl, fun _ => rfl⟩)⟩

/-- Within the capacity and over it (R146): D-C2, D-C3. -/
theorem witness_StringRows_capacity : overCapacity (some 2) .insert [0x61] [0x61, 0x61] = false ∧
    overCapacity (some 1) .insert [0x61] [0x61, 0x61] = true ∧ overCapacity (some 1) .full [0x61] [0x61] = false ∧
    overCapacity (some 1) .insert [0x61] [0x61] = true := by decide

theorem witness_RowsOutsideTheirConditions : State.reset.dec.phase ≠ .first ∧ (encAt .run syncAa [0x61]).enc.phase = .run ∧
    (encAt .empty (sync0 false false) []).enc.phase = .empty ∧ (decIn .full syncAa [0x62]).dec.midStep = some .full ∧
    (decIn .insert syncAa [0x62]).dec.sync.written = true ∧ (decIn .insert syncAa [0x62]).dec.sync.values.n ≤ 258 ∧
    State.reset.enc.busy = false ∧ (encAt .run syncAa [0x61]).enc.sync.written = true ∧
    10 ≠ fsmNextWidth syncAa.fsm syncAa.n ∧ 5 ≠ (8 - (encAt .run syncAa [0x61]).enc.nbits.value % 8) % 8 ∧
    (fullFsm true false 16).wMax ≤ (fullFsm true false 16).w ∧ syncAa.fsm.w ≠ syncAa.fsm.wMax ∧
    lookupCode syncAa.table 257 ≠ none ∧ lookupStr syncAa.table [0x61, 0x61] ≠ none ∧ 2 ^ syncAa.fsm.wMax ≤ 65536 ∧
    (encAt .run syncAa [0x61]).enc.cur.written = true ∧ lookupStr syncAa.table ([0x61] ++ [0x62]) = none ∧
    lookupStr syncAa.table ([0x61] ++ [0x61]) ≠ none ∧
    State.reset.enc.sync.fsm.written = false ∧ State.reset.dec.sync.table.written = false ∧
    State.reset.enc.sync.fsm.value.w = State.reset.enc.sync.fsm.value.wMax ∧
    State.reset.enc.sync.n.value = State.reset.enc.sync.fsm.value.l ∧ State.reset.enc.sync.fsm.value.allow = false ∧
    lookupCode State.reset.enc.sync.table.value 257 = none ∧
    (Reg.powerOn (fsmInit .normative true false)).written = false ∧
    (fsmInit .normative true false).w < (fsmInit .normative true false).wMax ∧
    (Reg.powerOn (fsmInit .normative true true)).written = false ∧
    (fsmInit .normative true true).w = (fsmInit .normative true true).wMax ∧
    (fsmInit .normative true true).allow = true := by decide

/-- R45: two machines at power-on that differ in what an unwritten register holds, and a step of theirs. -/
theorem witness_NoStepReadsUnwritten :
    let s : State := { State.reset with agenda := [.request .encStart [true, false]] }
    s.Inv ∧ s.enc.cur ≠ .powerOn [0x61] ∧ ({ s with enc := { s.enc with cur := .powerOn [0x61] } } : State).forget = s.forget ∧
    nextIs (step s) (fun t => t.enc.phase = .empty) = true ∧ ∀ a, (s.syncOf a).readUnwritten = false :=
  ⟨withEnc_inv (by decide) encIdle_inv, by decide, rfl, by decide, fun a => by cases a <;> rfl⟩

/-- D-E6, and a short read in the middle of a stream. -/
theorem witness_TrapEntry : (∀ bits, (decAt .run (sync0 false false) [0x61] bits).Inv) ∧
    (decAt .run (sync0 false false) [0x61] []).dec.busy = true ∧
    nextIs (runDecoder (decAt .run (sync0 false false) [0x61] (bitsMsb 258 9))) (fun t => t.dec.err ≠ .none) = true ∧
    nextIs (runDecoder (decAt .run (sync0 false false) [0x61] (bitsMsb 0 8))) (fun t => t.dec.err ≠ .none) = true ∧
    (decAt .run (sync0 false false) [0x61] (bitsMsb 0 8)).readsShort 9 ∧
    ¬ (decAt .run (sync0 false false) [0x61] (bitsMsb 258 9)).readsShort 9 :=
  ⟨decA_inv, rfl, by decide, by decide, by decide, by decide⟩

/-- A decoder that has taken BAD_CODE, by itself and at a new DEC_START. -/
theorem witness_ErrorIsTerminal :
    let d := (decAt .first (sync0 false false) [] []).dec.trap .badCode
    ∀ l, l = [] ∨ l = [Event.request .decStart []] →
      ({ State.reset with dec := d, agenda := l } : State).Inv ∧ d.phase = .error ∧
      nextIs (step { State.reset with dec := d, agenda := l }) (fun _ => true) = true := by
  intro d l hl
  have hd : d.Inv .normative := Decoder.trap_inv _ (by decide)
  rcases hl with rfl | rfl
  · exact ⟨withDec_inv nil_external hd, rfl, by decide⟩
  · exact ⟨withDec_inv (fun ev h => by rw [List.mem_singleton.mp h]; rfl) hd, rfl, by decide⟩

/-- An input that has not ended and does not hold enough bits, in each phase. -/
def waits (s : State) : State := { s with dec := { s.dec with inp := { s.dec.inp with ended := false } } }

theorem witness_BlockedReadWaits :
    ((waits (decAt .hdr (sync0 false false) [] [true])).Inv ∧ (waits (decAt .hdr (sync0 false false) [] [true])).readsBlock 2) ∧
    ((waits (decAt .first (sync0 false false) [] (bitsMsb 0 8))).Inv ∧
      (waits (decAt .first (sync0 false false) [] (bitsMsb 0 8))).readsBlock 9) ∧
    ((waits (decIn .insert syncAa [0x62])).Inv ∧ (waits (decIn .insert syncAa [0x62])).readsBlock 9) ∧
    ((waits (decAt .run (sync0 false false) [0x61] (bitsMsb 0 8))).Inv ∧
      (waits (decAt .run (sync0 false false) [0x61] (bitsMsb 0 8))).readsBlock
        (fsmNextWidth (sync0 false false).fsm (sync0 false false).n)) := by
  refine ⟨⟨withDec_inv nil_external ?_, by decide⟩, ⟨withDec_inv nil_external ?_, by decide⟩,
    ⟨withDec_inv nil_external ?_, by decide⟩, ⟨withDec_inv nil_external ?_, by decide⟩⟩
  · exact (decHdr_inv _).withInputs _ _ _
  · exact (decFirst_inv _ _ _).withInputs _ _ _
  · exact (decIn_inv (syncAa_inv _) (by decide) (by decide)).withInputs _ _ _
  · exact (decRun_inv (sync0_inv _ _ _) (by decide)).withInputs _ _ _

/-- `SENT@9` with bits after it, as the first codeword and as a later one (D-OK4). -/
theorem witness_BitsAfterSentinelIgnored :
    (decAt .first (sync0 false false) [] (bitsMsb 256 9 ++ [true, true])).Inv ∧
    (decAt .run (sync0 false false) [0x61] (bitsMsb 256 9 ++ [true, true])).Inv ∧
    (bitsMsb 256 9).length = fsmNextWidth (sync0 false false).fsm (sync0 false false).n ∧ bitsValue .msbFirst (bitsMsb 256 9) = 256 :=
  ⟨decF_inv _, decA_inv _, by decide, by decide⟩

theorem witness_DecoderTerminates : (decAt .hdr (sync0 false false) [] (bitsMsb 0x20 8)).Inv ∧
    (decAt .hdr (sync0 false false) [] (bitsMsb 0x20 8)).agenda = [] ∧
    (decAt .hdr (sync0 false false) [] (bitsMsb 0x20 8)).dec.inp.ended = true ∧
    nextIs (runDecoder (decAt .hdr (sync0 false false) [] (bitsMsb 0x20 8))) (fun t => t.dec.busy && t.dec.inp.bits.length = 6) = true :=
  ⟨decH_inv _, rfl, rfl, by decide⟩

theorem witness_RoundTrip :
    let s : State := { State.reset with agenda := compressInputs true false [0x61, 0x61] }
    s.Inv ∧ s.params.capLargeEnough ∧ s.enc.phase = .idle ∧ s.enc.held = false ∧ s.dec.busy = false ∧ s.dec.nextInp = .fresh :=
  ⟨withEnc_inv (by decide) encIdle_inv, (fun c h => by cases h), rfl, rfl, rfl, rfl⟩

end Sys2Proof.Tests
end

section

/-!
## The status outputs (R39)

The codes of the phases and of the errors tell their values apart, so a status output that is a function of a phase or of an
error is one of its code.
-/

namespace Sys2Proof.Machine

theorem EncPhase.code_injective : Function.Injective EncPhase.code := by
  intro p q
  cases p <;> cases q <;> decide

theorem DecPhase.code_injective : Function.Injective DecPhase.code := by
  intro p q
  cases p <;> cases q <;> decide

theorem DecErr.code_injective : Function.Injective DecErr.code := by
  intro p q
  cases p <;> cases q <;> decide

theorem Encoder.busy_iff (e : Encoder) : e.busy = true ↔ e.phase = .empty ∨ e.phase = .run := by
  simp [Encoder.busy]

theorem Encoder.isDone_iff (e : Encoder) : e.isDone = true ↔ e.phase = .done := by
  simp [Encoder.isDone]

theorem Decoder.busy_iff (d : Decoder) : d.busy = true ↔ d.phase = .hdr ∨ d.phase = .first ∨ d.phase = .run := by
  simp [Decoder.busy, or_assoc]

theorem Decoder.isDone_iff (d : Decoder) : d.isDone = true ↔ d.phase = .done := by
  simp [Decoder.isDone]

/-- R33: the code of `enc.phase` says whether `enc.busy` is up. -/
theorem Encoder.busy_iff_code (e : Encoder) : e.busy = true ↔ e.phase.code = 1#2 ∨ e.phase.code = 2#2 :=
  calc e.busy = true
    _ ↔ e.phase = .empty ∨ e.phase = .run := e.busy_iff
    _ ↔ e.phase.code = 1#2 ∨ e.phase.code = 2#2 :=
      (or_congr (EncPhase.code_injective.eq_iff' rfl) (EncPhase.code_injective.eq_iff' rfl)).symm

/-- R33: the code of `enc.phase` says whether `enc.done` is up. -/
theorem Encoder.isDone_iff_code (e : Encoder) : e.isDone = true ↔ e.phase.code = 3#2 :=
  e.isDone_iff.trans (EncPhase.code_injective.eq_iff' rfl).symm

/-- R35: the code of `dec.phase` says whether `dec.busy` is up. -/
theorem Decoder.busy_iff_code (d : Decoder) :
    d.busy = true ↔ d.phase.code = 1#3 ∨ d.phase.code = 2#3 ∨ d.phase.code = 3#3 :=
  calc d.busy = true
    _ ↔ d.phase = .hdr ∨ d.phase = .first ∨ d.phase = .run := d.busy_iff
    _ ↔ d.phase.code = 1#3 ∨ d.phase.code = 2#3 ∨ d.phase.code = 3#3 :=
      (or_congr (DecPhase.code_injective.eq_iff' rfl)
        (or_congr (DecPhase.code_injective.eq_iff' rfl) (DecPhase.code_injective.eq_iff' rfl))).symm

/-- R35: the code of `dec.phase` says whether `dec.done` is up. -/
theorem Decoder.isDone_iff_code (d : Decoder) : d.isDone = true ↔ d.phase.code = 4#3 :=
  d.isDone_iff.trans (DecPhase.code_injective.eq_iff' rfl).symm

/-- Settles O9: busy and done by the codes of the phases, and `dec.err` by the injectivity of the error codes. -/
theorem statusOutputs : Obligations.StatusOutputs := by
  unfold Obligations.StatusOutputs
  intro s
  have decErr_iff {err : DecErr} {c : BitVec 3} (hc : err.code = c) : s.status.decErr = c ↔ s.dec.err = err :=
    DecErr.code_injective.eq_iff' hc
  exact ⟨s.enc.busy_iff_code, s.enc.isDone_iff_code, s.dec.busy_iff_code, s.dec.isDone_iff_code,
    decErr_iff rfl, decErr_iff rfl, decErr_iff rfl, decErr_iff rfl, decErr_iff rfl⟩

end Sys2Proof.Machine
end

section

/-!
## Bits in the stream and in the bytes (R51, R52, R59, R83)

A bit of a value is found by its index, in both bit orders; the value of bits is a sum of powers of two; and a bit of the stream
is the bit of a packed byte that stands at its index modulo eight.
-/

namespace Sys2Proof.Machine

/-- R51: `MSB_FIRST` sends the most significant bit first. -/
theorem valueBits_msbFirst_get (v : Nat) {n k : Nat} (h : k < n) :
    (valueBits .msbFirst v n)[k]? = some (v.testBit (n - 1 - k)) :=
  bitsMsb_get v n k h

/-- R51: `LSB_FIRST` is the mirror of `MSB_FIRST`. -/
theorem valueBits_lsbFirst_get (v : Nat) {n k : Nat} (h : k < n) :
    (valueBits .lsbFirst v n)[k]? = some (v.testBit k) := by
  have hk : n - 1 - (n - 1 - k) = k := by omega
  rw [valueBits, List.getElem?_reverse (by simpa using h), length_bitsMsb, bitsMsb_get v n _ (by omega), hk]

/-- R83: in `MSB_FIRST` the bit at `k` counts `2^(w-1-k)`. -/
theorem bitsValue_msbFirst_eq_sum (bits : Bits) : bitsValue .msbFirst bits =
    ∑ k ∈ Finset.range bits.length, (bits.getD k false).toNat * 2 ^ (bits.length - 1 - k) := by
  rw [bitsValue]
  induction bits with
  | nil => rfl
  | cons b bs ih =>
    have hexp (k : Nat) : bs.length - 1 - k = bs.length - (k + 1) := by omega
    rw [valueMsb_cons, ih, List.length_cons, Finset.sum_range_succ', add_comm]
    simp only [List.getD_cons_succ, List.getD_cons_zero, hexp, Nat.sub_zero, Nat.add_sub_cancel]

theorem valueMsb_concat (bits : Bits) (b : Bool) : valueMsb (bits ++ [b]) = 2 * valueMsb bits + b.toNat := by
  simp [valueMsb]

/-- R83: in `LSB_FIRST` the bit at `k` counts `2^k`. -/
theorem bitsValue_lsbFirst_eq_sum (bits : Bits) : bitsValue .lsbFirst bits =
    ∑ k ∈ Finset.range bits.length, (bits.getD k false).toNat * 2 ^ k := by
  rw [bitsValue]
  induction bits with
  | nil => rfl
  | cons b bs ih =>
    have hdouble (k : Nat) : (bs.getD k false).toNat * 2 ^ (k + 1) = 2 * ((bs.getD k false).toNat * 2 ^ k) := by ring
    rw [List.reverse_cons, valueMsb_concat, ih, List.length_cons, Finset.sum_range_succ', Finset.mul_sum]
    simp only [List.getD_cons_succ, List.getD_cons_zero, hdouble, pow_zero, mul_one]

/-- R52 under `MSB_FIRST`: stream bit `j` of a byte is its bit `7 - j`. -/
theorem byteBits_msbFirst_get (b : Byte) {j : Nat} (h : j < 8) : (byteBits .msbFirst b)[j]? = some (b.getLsbD (7 - j)) :=
  valueBits_msbFirst_get b.toNat h

/-- R52 under `LSB_FIRST`: stream bit `j` of a byte is its bit `j`. -/
theorem byteBits_lsbFirst_get (b : Byte) {j : Nat} (h : j < 8) : (byteBits .lsbFirst b)[j]? = some (b.getLsbD j) :=
  valueBits_lsbFirst_get b.toNat h

/-- R52: stream bit `i` is bit `7 - i mod 8` of byte `i / 8` under `MSB_FIRST`. -/
theorem packBytes_msbFirst_get (bits : Bits) {i : Nat} (h : i < bits.length) :
    ∃ b, (packBytes .msbFirst bits)[i / 8]? = some b ∧ b.getLsbD (7 - i % 8) = bits[i] := by
  obtain ⟨b, hbyte, hbit⟩ := packBytes_get .msbFirst bits i h
  rw [byteBits_msbFirst_get b (Nat.mod_lt i (by decide))] at hbit
  exact ⟨b, hbyte, Option.some.inj hbit⟩

/-- R51, R52: stream bit `i` is bit `i mod 8` of byte `i / 8` under `LSB_FIRST`. -/
theorem packBytes_lsbFirst_get (bits : Bits) {i : Nat} (h : i < bits.length) :
    ∃ b, (packBytes .lsbFirst bits)[i / 8]? = some b ∧ b.getLsbD (i % 8) = bits[i] := by
  obtain ⟨b, hbyte, hbit⟩ := packBytes_get .lsbFirst bits i h
  rw [byteBits_lsbFirst_get b (Nat.mod_lt i (by decide))] at hbit
  exact ⟨b, hbyte, Option.some.inj hbit⟩

/-- Settles O16: each bit by its index, the value of bits as a sum by induction on the bits, and `WriteBits` by its rule. -/
theorem bitOrderOfValues : Obligations.BitOrderOfValues := by
  unfold Obligations.BitOrderOfValues
  refine ⟨rfl, fun v n k hk => ⟨valueBits_msbFirst_get v hk, valueBits_lsbFirst_get v hk⟩,
    fun o v n hv => bitsValue_valueBits o hv, bitsValue_msbFirst_eq_sum, bitsValue_lsbFirst_eq_sum, ?_,
    fun bits i hi => packBytes_lsbFirst_get bits hi⟩
  intro o v n e hn hv hopen
  exact Encoder.writeBits_eq hopen o (Nat.one_le_iff_ne_zero.mp hn) hv

/-- Settles O17: a stream bit by its byte and its index in it, and the packed bytes by their number and their bits. -/
theorem bytePacking : Obligations.BytePacking := by
  unfold Obligations.BytePacking
  exact ⟨fun bits i hi => packBytes_msbFirst_get bits hi,
    fun o bits => ⟨length_packBytes o bits, unpackBytes_packBytes o bits⟩⟩

end Sys2Proof.Machine
end

section

/-!
## The words of the interfaces (R82, R88)

The class of a host transaction is an equation per phase, and with it the fetch of the transaction's word is a round trip of the
encoding. The words of the CodeTable's interface decode by their two bits.
-/

namespace Sys2Proof.Machine

variable {s : State} {b : Byte}

/-! ### The classes of ENC_BYTE and ENC_END by phase -/

theorem byteClass_of_empty {e : Encoder} (hph : e.phase = .empty) : byteClass b e = .next .first := by
  simp only [byteClass, hph]

theorem byteClass_of_known {e : Encoder} {c : Nat} (hph : e.phase = .run)
    (hk : lookupStr e.sync.values.table (e.cur.value ++ [b]) = some c) : byteClass b e = .next .extend := by
  simp only [byteClass, hph, hk]

theorem byteClass_of_new {e : Encoder} (hph : e.phase = .run)
    (hk : lookupStr e.sync.values.table (e.cur.value ++ [b]) = none) : byteClass b e = .next .emit := by
  simp only [byteClass, hph, hk]

theorem byteClass_of_closed {e : Encoder} (hph : e.phase = .idle ∨ e.phase = .done) :
    byteClass b e = .refused .transaction := by
  rcases hph with hph | hph <;> simp only [byteClass, hph]

theorem endClass_of_empty {e : Encoder} (hph : e.phase = .empty) : endClass e = .next .inEmpty := by
  simp only [endClass, hph]

theorem endClass_of_run {e : Encoder} (hph : e.phase = .run) : endClass e = .next .inRun := by
  simp only [endClass, hph]

theorem endClass_of_closed {e : Encoder} (hph : e.phase = .idle ∨ e.phase = .done) :
    endClass e = .refused .transaction := by
  rcases hph with hph | hph <;> simp only [endClass, hph]

/-! ### The fetch of a host transaction -/

/-- R130: a transaction that has no context is refused, whatever its word. -/
theorem requestFetch_refused {p : Port} {bits : Bits} {r : Refusal} (hw : bits.length = p.width)
    (hc : requestContext p bits s = .refused r) : requestFetch p bits s = .refused r := by
  simp [requestFetch, hw, hc]

/-- The context of an input byte is its class, the byte being the one its word carries. -/
theorem requestContext_encByte :
    requestContext .encByte (bitsMsb b.toNat 8) s = andThen (byteClass b s.enc) fun k => .next (.encByte k) := by
  rw [requestContext, Laws.Encoding.byte_back]

/-- An input byte is the instruction that its class can hold and that has its word. -/
theorem requestFetch_encByte {k : ByteClass} {i : Instr} (hk : byteClass b s.enc = .next k)
    (hi : decode s.params.bitOrder (.encByte k) (bitsMsb b.toNat 8) = .ok (i, [])) :
    requestFetch .encByte (bitsMsb b.toNat 8) s = .next i :=
  requestFetch_eq (length_bitsMsb _ _) (by rw [requestContext_encByte, hk, andThen_next]) hi

/-- The end of an input is the instruction that its class can hold. -/
theorem requestFetch_encEnd {k : EndClass} {i : Instr} (hk : endClass s.enc = .next k)
    (hi : decode s.params.bitOrder (.encEnd k) [] = .ok (i, [])) : requestFetch .encEnd [] s = .next i :=
  requestFetch_eq rfl (by rw [requestContext, hk, andThen_next]) hi

/-- R130: an input byte with no stream open. -/
theorem requestFetch_encByte_refused (hph : s.enc.phase = .idle ∨ s.enc.phase = .done) :
    requestFetch .encByte (bitsMsb b.toNat 8) s = .refused .transaction :=
  requestFetch_refused (length_bitsMsb _ _) (by rw [requestContext_encByte, byteClass_of_closed hph, andThen_refused])

/-- R130: the end of an input with no stream open. -/
theorem requestFetch_encEnd_refused (hph : s.enc.phase = .idle ∨ s.enc.phase = .done) :
    requestFetch .encEnd [] s = .refused .transaction :=
  requestFetch_refused rfl (by rw [requestContext, endClass_of_closed hph, andThen_refused])

theorem requestFetch_encStart (r f : Bool) : requestFetch .encStart [r, f] s = .next (.encStart r f) :=
  requestFetch_eq rfl rfl (Laws.Encoding.encStart r f _ .encStart rfl)

theorem requestFetch_decStart : requestFetch .decStart [] s = .next .decStart :=
  requestFetch_eq rfl rfl (Laws.Encoding.decStart _ .decStart rfl)

/-- R130: a start while a stream is open. -/
theorem exec_encStart_refused (r f : Bool) (hph : s.enc.phase = .empty ∨ s.enc.phase = .run) :
    exec (.encStart r f) s = .refused .transaction := by
  rcases hph with hph | hph <;> simp only [exec, execEncStart, hph]

/-- Settles O37: the class of each transaction by phase and lookup, and the round trip of its word in that class. -/
theorem hostTransactionClasses : Obligations.HostTransactionClasses := by
  unfold Obligations.HostTransactionClasses
  intro s b r f _
  refine ⟨fun hph => ?empty, fun c hph hk => ?known, fun hph hk => ?new, fun hph => ?endEmpty, fun hph => ?endRun,
    fun hph => ⟨requestFetch_encByte_refused hph, requestFetch_encEnd_refused hph⟩,
    requestFetch_encStart r f, requestFetch_decStart, exec_encStart_refused r f⟩
  case empty => exact requestFetch_encByte (byteClass_of_empty hph) (Laws.Encoding.encFirst b _ (.encByte .first) rfl)
  case known => exact requestFetch_encByte (byteClass_of_known hph hk) (Laws.Encoding.encExtend b _ (.encByte .extend) rfl)
  case new => exact requestFetch_encByte (byteClass_of_new hph hk) (Laws.Encoding.encEmit b _ (.encByte .emit) rfl)
  case endEmpty => exact requestFetch_encEnd (endClass_of_empty hph) (Laws.Encoding.encEndEmpty _ (.encEnd .inEmpty) rfl)
  case endRun => exact requestFetch_encEnd (endClass_of_run hph) (Laws.Encoding.encEndRun _ (.encEnd .inRun) rfl)

/-! ### The words of the CodeTable's interface -/

/-- R82: a word of two bits at a CodeTable is the row of its code, with the operands on the interface. -/
theorem decode_op (o : BitOrder) (a : Agent) (str : Str) (c : Nat) (hi lo : Bool) :
    decode o (.op a str c) [hi, lo] = .ok (tableOpRow a str c hi lo, []) :=
  Laws.Encoding.decode_whole rfl rfl

/-- R82, R171: a model refuses the reserved code. -/
theorem exec_opReserved (a : Agent) (s : State) : exec (.opReserved a) s = .refused .reservedTableOp := rfl

/-- Settles O36: the row of each code, and the refusal of the reserved one in every state. -/
theorem reservedOpRefused : Obligations.ReservedOpRefused := by
  unfold Obligations.ReservedOpRefused
  intro o a str c
  have hrow (hi lo : Bool) := decode_op o a str c hi lo
  exact ⟨hrow false false, hrow false true, hrow true false, hrow true true, exec_opReserved a⟩

end Sys2Proof.Machine
end

section

/-!
## adaptive_codewidth_fsm (R96 to R107)

FSM_CLASSIFY and FSM_APPLY arm by arm: the stream's first values, the widths before and after an arm, static mode, and the rows
that run one arm. Then what one step does to fsm, counter and dictionary: the encoder grows them by at most one event, the decoder
adds at most one entry to what PRE left. In a FULL arm either of these is no change.
-/

namespace Sys2Proof.Machine

variable {p : Params} {a : Agent} {s t : State}

/-! ### FSM_INIT and SYNC_INIT (R96, R109) -/

theorem lookupStr_baseTable_of_ne_single {str : Str} (h : ∀ b, str ≠ [b]) : lookupStr baseTable str = none := by
  match str, h with
  | [], _ => rfl
  | [b], h => exact absurd rfl (h b)
  | _ :: _ :: _, _ => rfl

theorem lookupCode_baseTable (c : Nat) : lookupCode baseTable c = if c ≤ 255 then some [BitVec.ofNat 8 c] else none := rfl

/-- Settles O22: the bounds of either mode, and the base dictionary by the length of the string. -/
theorem streamInit : Obligations.StreamInit := by
  unfold Obligations.StreamInit
  intro p allow fixed
  refine ⟨rfl, rfl, ?static, ?dynamic, rfl, rfl, rfl, rfl, fun str => ?string, lookupCode_baseTable⟩
  case static => rintro rfl; exact ⟨rfl, rfl⟩
  case dynamic => rintro rfl; exact ⟨rfl, rfl⟩
  case string =>
    split
    · rfl
    · next hne => exact lookupStr_baseTable_of_ne_single hne

/-! ### FSM_CLASSIFY (R97) -/

section
variable {f : Fsm} {n : Nat}

theorem fsmClassify_of_room (h : n < f.l) : fsmClassify f n = .insert := if_pos h

theorem fsmClassify_of_narrow (h : f.l ≤ n) (hw : f.w < f.wMax) : fsmClassify f n = .grow := by
  rw [fsmClassify, if_neg (Nat.not_lt.mpr h), if_pos hw]

theorem fsmClassify_of_allow (h : f.l ≤ n) (hw : f.wMax ≤ f.w) (ha : f.allow = true) : fsmClassify f n = .reset := by
  rw [fsmClassify, if_neg (Nat.not_lt.mpr h), if_neg (Nat.not_lt.mpr hw), if_pos ha]

theorem fsmClassify_of_not_allow (h : f.l ≤ n) (hw : f.wMax ≤ f.w) (ha : f.allow = false) : fsmClassify f n = .full := by
  rw [fsmClassify, if_neg (Nat.not_lt.mpr h), if_neg (Nat.not_lt.mpr hw), ha, if_neg Bool.false_ne_true]

theorem Fsm.narrow_of_grow (h : fsmClassify f n = .grow) : f.w < f.wMax := by
  rcases fsmClassify_cases f n with ⟨e, -⟩ | ⟨-, -, hw⟩ | ⟨e, -⟩ | ⟨e, -⟩
  · cases h.symm.trans e
  · exact hw
  · cases h.symm.trans e
  · cases h.symm.trans e

theorem Fsm.no_room_of_full (h : fsmClassify f n = .full) : f.l ≤ n := by
  by_contra hn
  cases h.symm.trans (fsmClassify_of_room (Nat.not_le.mp hn))

/-- Settles O23: the conditions of FSM_CLASSIFY, one at a time. -/
theorem classifyArms : Obligations.ClassifyArms := by
  unfold Obligations.ClassifyArms
  exact fun f n => ⟨fsmClassify_of_room, fsmClassify_of_narrow, fsmClassify_of_allow, fsmClassify_of_not_allow⟩

/-! ### The anticipated width (R99, R104) -/

/-- R104: the anticipated width, read off FSM_APPLY of the arm. -/
theorem fsmNextWidth_eq {br : Branch} (h : f.Inv p) (hbr : fsmClassify f n = br) : fsmNextWidth f n = (fsmApply br f).w := by
  rw [← fsmApply_w h n, hbr]

theorem fsmNextWidth_of_fixed (h : f.Inv p) (hf : f.fixed = true) : fsmNextWidth f n = p.wFixed := by
  obtain ⟨-, -, hw⟩ := h.static hf
  rw [fsmNextWidth, if_pos hf, hw]

end

/-- Settles O25: the width of each arm is FSM_APPLY's, which the law of R104 says is the anticipated one. -/
theorem anticipatedWidth : Obligations.AnticipatedWidth := by
  unfold Obligations.AnticipatedWidth
  intro p f n h
  obtain ⟨hmin, hmax⟩ := fsmNextWidth_range h n
  exact ⟨fsmApply_w h n, fsmNextWidth_of_fixed h, hmin, hmax,
    fun hn => fsmNextWidth_eq h (fsmClassify_of_room hn),
    fun hn hw => fsmNextWidth_eq h (fsmClassify_of_narrow hn hw),
    fun hn hw ha => fsmNextWidth_eq h (fsmClassify_of_allow hn hw.ge ha),
    fun hn hw ha => fsmNextWidth_eq h (fsmClassify_of_not_allow hn hw.ge ha)⟩

/-! ### Static mode (R107) -/

/-- R107: where both bounds are the width, RESET changes nothing. -/
theorem fsmApply_reset_of_static {f : Fsm} (h : f.Inv p) (hf : f.fixed = true) : fsmApply .reset f = f := by
  obtain ⟨allow, fixed, wMin, wMax, w, l⟩ := f
  obtain ⟨rfl, -, rfl⟩ := h.static hf
  obtain rfl : l = 2 ^ p.wFixed := h.cap
  rfl

/-- Settles O28: one width is all the bounds leave, so there is no room to grow and RESET goes back to the same width. -/
theorem staticWidth : Obligations.StaticWidth := by
  unfold Obligations.StaticWidth
  intro p a y _ h hf
  obtain ⟨-, hmax, hw⟩ := h.fsm.static hf
  refine ⟨hw, fun hgrow => ?_, ?_, fun hreset => ?_⟩
  · have := Fsm.narrow_of_grow hgrow
    omega
  · rw [Sync.pre_fsm, Sync.branch, fsmApply_w h.fsm, fsmNextWidth_of_fixed h.fsm hf]
  · rw [hreset]
    exact ⟨rfl, fsmApply_reset_of_static h.fsm hf⟩

/-! ### The rows BR_INSERT, BR_GROW, BR_RESET and BR_FULL (R100 to R103) -/

section
variable {r : SyncRegs} {f : Fsm}

theorem branchRegs_grow (hf : r.fsm = .write f) (hw : f.w < f.wMax) :
    branchRegs .grow r = .next { r with fsm := .write (fsmApply .grow f) } := by
  simp [branchRegs, hf, hw]

theorem branchRegs_reset (hf : r.fsm = .write f) (hn : r.n = .write f.l) (hw : f.w = f.wMax) (ha : f.allow = true) :
    branchRegs .reset r = .next { r with fsm := .write (fsmApply .reset f) } := by
  simp [branchRegs, hf, hn, hw, ha]

theorem branchRegs_full (hf : r.fsm = .write f) (hn : r.n = .write f.l) (hw : f.w = f.wMax) (ha : f.allow = false) :
    branchRegs .full r = .next r := by
  simp [branchRegs, hf, hn, hw, ha]

end

theorem applyBranch_of_next {br : Branch} {r : SyncRegs} (h : branchRegs br (s.syncOf a) = .next r) :
    applyBranch br a s = .next (s.withSync a r) := by
  rw [applyBranch, h, andThen_next]

/-- An arm that changes no register changes nothing. -/
theorem applyBranch_of_unchanged {br : Branch} (h : branchRegs br (s.syncOf a) = .next (s.syncOf a)) :
    applyBranch br a s = .next s := by
  rw [applyBranch_of_next h, State.withSync_self]

/-- Settles O24: the registers after each arm; INSERT and FULL leave them, and so the state. -/
theorem branchRows : Obligations.BranchRows := by
  unfold Obligations.BranchRows
  intro a s
  refine ⟨?insert, fun f hf => ⟨fun hw => ?grow, fun hn hw => ⟨fun ha => ?reset, fun ha => ?full⟩⟩⟩
  case insert => exact applyBranch_of_unchanged (br := .insert) rfl
  case grow => exact applyBranch_of_next (branchRegs_grow hf hw)
  case reset => exact applyBranch_of_next (branchRegs_reset hf hn hw ha)
  case full => exact applyBranch_of_unchanged (branchRegs_full hf hn hw ha)

/-! ### A step from a sound state -/

/-- A step of a sound machine takes an input from outside, or runs the decoder, or keeps the state. -/
theorem step_of_sound (h : s.Inv) (ht : step s = .next t) :
    (∃ ev rest, ({ s with agenda := rest } : State).Inv ∧ ev.external = true ∧
      takeEvent ev { s with agenda := rest } = .next t) ∨
    runDecoder s = .next t ∨ t = s := by
  rcases step_cases s with ⟨ev, rest, hev, e⟩ | ⟨-, -, -, e⟩ | ⟨-, -, e⟩ <;> rw [e] at ht
  · obtain ⟨hmem, -, hrest⟩ := nextEvent_some hev
    exact .inl ⟨ev, rest, h.withAgenda hrest, h.agenda ev hmem, ht⟩
  · exact .inr (.inl ht)
  · exact .inr (.inr (Host.Outcome.next.inj ht).symm)

/-! ### What a step of the encoder does to fsm, counter and dictionary (R121 to R128) -/

/-- A word of a host interface of the encoder, while a stream is open, grows fsm, counter and dictionary by one event or leaves
them. -/
theorem runRequest_grows (h : s.Inv) (hbusy : s.enc.busy = true) {q : Port} {bits : Bits} (ha : q.agent = .encoder)
    (hq : q.isHost = true) (hw : bits.length = q.width) (ht : runRequest q bits s = .next t) :
    t.enc.sync.values = s.enc.sync.values ∨ ∃ entry, t.enc.sync.values = s.enc.sync.values.grown entry := by
  have took {e : Encoder} (he : runRequest q bits s = .next (s.tookEnc e)) : t.enc = e := by
    rw [ht] at he; cases he; rfl
  have hph := s.enc.busy_iff.mp hbusy
  cases q with
  | decStart => cases ha
  | sentinel w => cases hq
  | padding k => cases hq
  | br a => cases hq
  | op a str c => cases hq
  | encStart =>
    match bits, hw with
    | [r, f], _ =>
      rw [runRequest_encStart_refused hph] at ht
      cases ht; exact .inl rfl
  | encByte =>
    rcases hph with hph | hph
    · rw [took (runRequest_first hph hw rfl)]; exact .inl rfl
    · cases hk : lookupStr s.enc.sync.values.table (s.enc.cur.value ++ [byteOfBits .msbFirst bits]) with
      | some c => rw [took (runRequest_extend hph hw rfl hk)]; exact .inl rfl
      | none =>
        obtain ⟨c, hc⟩ := Option.isSome_iff_exists.mp (h.enc.run hph).2.isSome
        rw [took (runRequest_emit h hph hw rfl hc hk)]; exact .inr ⟨_, rfl⟩
  | encEnd =>
    match bits, hw with
    | [], _ =>
      rcases hph with hph | hph
      · rw [took (runRequest_endEmpty h hph)]; exact .inl rfl
      · obtain ⟨c, hc⟩ := Option.isSome_iff_exists.mp (h.enc.run hph).2.isSome
        rw [took (runRequest_endRun h hph hc)]; exact .inl rfl

theorem takeEvent_encoder_grows (h : s.Inv) (hbusy : s.enc.busy = true) {ev : Event} (hev : ev.external = true)
    (ht : takeEvent ev s = .next t) :
    t.enc.sync.values = s.enc.sync.values ∨ ∃ entry, t.enc.sync.values = s.enc.sync.values.grown entry := by
  cases ha : ev.agent with
  | decoder =>
    obtain ⟨_, _, e⟩ := takeEvent_decoder_frame ha ht
    exact .inl (by rw [e])
  | encoder =>
    cases ev with
    | decStep => cases ha
    | deliver sl bytes => cases ha
    | finish sl => cases ha
    | hold b on => cases (show b = .encoder from ha); cases ht; exact .inl rfl
    | request q bits =>
      simp only [Event.external, Bool.and_eq_true, beq_iff_eq] at hev
      exact runRequest_grows h hbusy ha hev.1 hev.2 ht

/-- A step from a sound state, the encoder's stream being open, is at most one growth event of the encoder. -/
theorem step_encoder_grows (h : s.Inv) (hbusy : s.enc.busy = true) (ht : step s = .next t) :
    t.enc.sync.values = s.enc.sync.values ∨ ∃ entry, t.enc.sync.values = s.enc.sync.values.grown entry := by
  rcases step_of_sound h ht with ⟨ev, rest, hinv, hev, ht⟩ | ht | rfl
  · exact takeEvent_encoder_grows (s := { s with agenda := rest }) hinv hbusy hev ht
  · obtain ⟨_, e⟩ := runDecoder_frame ht
    exact .inl (by rw [e])
  · exact .inl rfl

/-! ### What a `RUN` step of the decoder does to fsm, counter and dictionary (R139 to R145) -/

/-- R145: with the arm `br`, at most one ADD leads from the one decoder to the other. -/
def Decoder.AddsOne (br : Branch) (d d' : Decoder) : Prop :=
  d'.sync.values = d.sync.values ∨ ∃ entry, d.sync.values.add .decoder br entry = .next d'.sync.values

theorem Decoder.finish_addsOne {d d' : Decoder} (br : Branch) (h : d.finish = .next d') : d.AddsOne br d' := by
  obtain ⟨d1, h1, h⟩ := andThen_eq_next.mp h
  cases h
  unfold Decoder.closeOut at h1
  split at h1
  · cases h1
  · cases h1; exact .inl rfl

theorem Decoder.tail_addsOne {cap : Option Nat} {br : Branch} {str : Str} {d d' : Decoder}
    (h : d.tail cap br str = .next d') : d.AddsOne br d' := by
  unfold Decoder.tail at h
  split at h
  · cases h; exact .inl rfl
  · cases str with
    | nil => cases h
    | cons b l =>
      obtain ⟨y, hy, h⟩ := andThen_eq_next.mp h
      cases h; exact .inr ⟨_, hy⟩

theorem Decoder.resolve_addsOne {cap : Option Nat} {br : Branch} {v : Nat} {d d' : Decoder}
    (h : d.resolve cap br v = .next d') : d.AddsOne br d' := by
  unfold Decoder.resolve at h
  split at h
  · exact Decoder.tail_addsOne h
  · cases h

/-- R140 to R144: a codeword of any class, in the step whose arm is `br`. -/
theorem exec_classRun_addsOne {br : Branch} (hm : s.dec.midStep = some br) {n : Nat} (hn : 257 ≤ n) {v : Nat}
    (h : exec (classRun n v) s = .next t) : s.dec.AddsOne br t.dec := by
  have inStep {f : Branch → Out State} (hf : andThen s.dec.inStep f = .next t) : f br = .next t := by
    obtain ⟨b, hb, hf⟩ := andThen_eq_next.mp hf
    cases hm.symm.trans (Decoder.inStep_eq_next.mp hb).2
    exact hf
  have ofDecoder {x : Out Decoder} (hx : ∀ {d'}, x = .next d' → s.dec.AddsOne br d') (he : onDecoder s x = .next t) :
      s.dec.AddsOne br t.dec := by
    obtain ⟨d', hd, rfl⟩ := onDecoder_eq_next.mp he
    exact hx hd
  rcases classRun_cases hn v with ⟨-, sent⟩ | ⟨-, lit⟩ | ⟨-, ref⟩ | ⟨-, self⟩ | ⟨-, bad⟩
  · rw [sent] at h
    exact ofDecoder (Decoder.finish_addsOne br) (inStep h)
  · rw [lit] at h
    replace h := inStep h
    split at h
    · exact ofDecoder Decoder.resolve_addsOne h
    · cases h
  · rw [ref] at h
    replace h := inStep h
    split at h
    · exact ofDecoder Decoder.resolve_addsOne h
    · cases h
  · rw [self] at h
    replace h := inStep h
    split at h
    · cases h
    · split at h
      · cases h
      · exact ofDecoder Decoder.tail_addsOne h
  · rw [bad] at h
    replace h := inStep h
    split at h
    · cases h; exact .inl rfl
    · cases h

/-- A read leaves fsm, counter and dictionary, and a word that is read leaves the step in progress. -/
theorem readToken_keeps {n : Nat} {c : Ctx} {e : DecErr} {q : Option Instr × State} (h : readToken n c e s = .next q) :
    q.2.dec.sync = s.dec.sync ∧
    ∀ i, q.1 = some i → q.2.dec.midStep = s.dec.midStep ∧ ∃ o word, decodeWord o c word = .ok i := by
  unfold readToken at h
  split at h
  · cases h; exact ⟨rfl, by simp⟩
  · cases h; exact ⟨rfl, by simp⟩
  · split at h
    · next hd =>
      cases h
      refine ⟨rfl, fun i hi => ⟨rfl, ?_⟩⟩
      cases hi
      exact ⟨_, _, decode_ok hd⟩
    · cases h

/-- R139: a `RUN` step of the decoder is its beginning and at most one ADD. -/
theorem runDecoder_addsOne (h : s.Inv) (hph : s.dec.phase = .run) {br : Branch} (hm : s.dec.begun.midStep = some br)
    (ht : runDecoder s = .next t) : s.dec.begun.AddsOne br t.dec := by
  obtain ⟨-, hopen, -⟩ := h.dec.busy (by simp [Decoder.busy, hph])
  obtain ⟨-, hinv⟩ := (h.dec.begun h.params hph).started (.inr (by simpa using hph))
  obtain ⟨⟨instr?, u⟩, hq, ht⟩ := andThen_eq_next.mp ht
  simp only [decoderFetch, hph, Decoder.begin_eq hopen, andThen_next] at hq
  obtain ⟨hsync, hword⟩ := readToken_keeps hq
  cases instr? with
  | none => cases ht; exact .inl (congrArg SyncRegs.values hsync)
  | some i =>
    obtain ⟨hmid, _, _, hclass⟩ := hword i rfl
    cases hclass
    have hadd := exec_classRun_addsOne (hmid.trans hm) hinv.low ht
    rwa [Decoder.AddsOne, hsync] at hadd

/-! ### FULL is absorbing (R106) -/

theorem Sync.grown_of_full {y : Sync} (h : y.branch = .full) (entry : Str) : y.grown entry = y := by
  rw [Sync.grown, h]; rfl

/-- R103, R111: with the arm FULL there is no ADD. -/
theorem Decoder.AddsOne.of_full {d d' : Decoder} (h : d.AddsOne .full d') : d'.sync.values = d.sync.values := by
  rcases h with h | ⟨entry, h⟩
  · exact h
  · exact (Host.Outcome.next.inj h).symm

/-- R87: a decoder whose table is full is in a step of the arm FULL, or begins one, and the beginning leaves fsm, counter and
dictionary. -/
theorem Decoder.begun_of_full {d : Decoder} (h : d.Inv p) (hph : d.phase = .run) (hfull : d.sync.values.branch = .full) :
    d.begun.midStep = some .full ∧ d.begun.sync.values = d.sync.values := by
  unfold Decoder.begun
  cases hm : d.midStep with
  | some br =>
    obtain ⟨-, hi⟩ := h.started (.inr hph)
    have hbr := (h.step br hm).2.mpr (Nat.le_antisymm hi.high (Fsm.no_room_of_full hfull))
    exact ⟨by rw [hm, hbr], rfl⟩
  | none => simp [hfull, Sync.pre, fsmApply]

theorem runDecoder_of_full (h : s.Inv) (hph : s.dec.phase = .run) (hfull : s.dec.sync.values.branch = .full)
    (ht : runDecoder s = .next t) : t.dec.sync.values = s.dec.sync.values := by
  obtain ⟨hm, hv⟩ := Decoder.begun_of_full h.dec hph hfull
  exact (runDecoder_addsOne h hph hm ht).of_full.trans hv

theorem takeEvent_decoder_of_full (h : s.Inv) (hph : s.dec.phase = .run) (hfull : s.dec.sync.values.branch = .full)
    {ev : Event} (hev : ev.external = true) (ht : takeEvent ev s = .next t) :
    t.dec.sync.values = s.dec.sync.values := by
  cases ha : ev.agent with
  | encoder =>
    obtain ⟨_, _, _, e⟩ := takeEvent_encoder_frame ha ht
    rw [e]
  | decoder =>
    cases ev with
    | decStep => exact runDecoder_of_full h hph hfull ht
    | deliver sl bytes =>
      cases ht
      unfold takeDelivery
      split
      · rfl
      · rw [Decoder.withSlot_sync]
    | finish sl => cases ht; rw [takeFinish, Decoder.withSlot_sync]
    | hold b on => cases (show b = .decoder from ha); cases ht; rfl
    | request q bits =>
      simp only [Event.external, Bool.and_eq_true, beq_iff_eq] at hev
      obtain ⟨hq, hw⟩ := hev
      cases q with
      | decStart =>
        rw [Port.width, List.length_eq_zero_iff] at hw
        subst hw
        rw [takeEvent, runRequest_decStart_refused (by simp [Decoder.busy, hph])] at ht
        cases ht; rfl
      | encStart => cases ha
      | encByte => cases ha
      | encEnd => cases ha
      | sentinel w => cases hq
      | padding k => cases hq
      | br a => cases hq
      | op a str c => cases hq

theorem step_decoder_of_full (h : s.Inv) (hph : s.dec.phase = .run) (hfull : s.dec.sync.values.branch = .full)
    (ht : step s = .next t) : t.dec.sync.values = s.dec.sync.values := by
  rcases step_of_sound h ht with ⟨ev, rest, hinv, hev, ht⟩ | ht | rfl
  · exact takeEvent_decoder_of_full (s := { s with agenda := rest }) hinv hph hfull hev ht
  · exact runDecoder_of_full h hph hfull ht
  · rfl

theorem step_encoder_of_full (h : s.Inv) (hbusy : s.enc.busy = true) (hfull : s.enc.sync.values.branch = .full)
    (ht : step s = .next t) : t.enc.sync.values = s.enc.sync.values := by
  rcases step_encoder_grows h hbusy ht with e | ⟨entry, e⟩
  · exact e
  · rw [e, Sync.grown_of_full hfull]

/-- Settles O27: in a FULL arm a growth event of the encoder and a `RUN` step of the decoder change neither fsm nor counter, and
FSM_CLASSIFY reads nothing else. -/
theorem fullIsAbsorbing : Obligations.FullIsAbsorbing := by
  unfold Obligations.FullIsAbsorbing
  intro s t h ht
  refine ⟨fun hbusy hfull => ?encoder, fun hph hfull => ?decoder⟩
  case encoder =>
    have hsync := step_encoder_of_full h hbusy hfull ht
    exact ⟨hsync, by rw [hsync, hfull]⟩
  case decoder =>
    have hsync := step_decoder_of_full h hph hfull ht
    exact ⟨hsync, by rw [hsync, hfull]⟩

end Sys2Proof.Machine
end

section

/-!
## dictionary_state_sync (R110 to R112)

What a lookup answers after an entry is placed, on either side; then PRE, ADD and SYNC_GROW by their arms. A sound sync has no
entry at its counter, so ADD is the placing of one entry there.
-/

namespace Sys2Proof.Machine

variable {p : Params} {a : Agent} {y : Sync} {br : Branch} {entry : Str}

/-! ### Lookups after an entry is placed (R64 to R66) -/

/-- R66: the base codes are below every code an entry can have. -/
theorem lookupCode_placeEntry {c : Nat} {s : Str} {t : CodeTable} (hc : firstCode ≤ c) (hfree : entryAt t c = none) (k : Nat) :
    lookupCode (placeEntry c s t) k = if k = c then some s else lookupCode t k := by
  by_cases hk : k ≤ 255
  · have hne : k ≠ c := by
      unfold firstCode at hc
      omega
    rw [lookupCode_base hk, lookupCode_base hk, if_neg hne]
  · have hentry : 256 ≤ k := Nat.not_le.mp hk
    rw [lookupCode_entry hentry, lookupCode_entry hentry, entryAt_placeEntry hfree]

/-- A string of any length but one is looked up among the entries. -/
theorem lookupStr_of_ne_single {t : CodeTable} {s : Str} (h : ∀ b, s ≠ [b]) : lookupStr t s = entryOf t s := by
  match s, h with
  | [], _ => rfl
  | [b], h => exact absurd rfl (h b)
  | _ :: _ :: _, _ => rfl

/-- R65: a string that is no key is no one-byte string, so its entry hides no base entry. -/
theorem lookupStr_placeEntry {c : Nat} {s : Str} {t : CodeTable} (hnew : lookupStr t s = none) (k : Str) :
    lookupStr (placeEntry c s t) k = if k = s then some c else lookupStr t k := by
  have hs : ∀ b, s ≠ [b] := by
    rintro b rfl
    cases hnew
  by_cases hk : ∃ b, k = [b]
  · obtain ⟨b, rfl⟩ := hk
    rw [lookupStr_single, lookupStr_single, if_neg (hs b).symm]
  · have hk : ∀ b, k ≠ [b] := not_exists.mp hk
    rw [lookupStr_of_ne_single hs] at hnew
    rw [lookupStr_of_ne_single hk, lookupStr_of_ne_single hk, entryOf_placeEntry hnew]

/-! ### PRE (R110) -/

theorem Sync.pre_of_ne_reset (h : br ≠ .reset) : y.pre br = { y with fsm := fsmApply br y.fsm } := by
  cases br with
  | insert => rfl
  | grow => rfl
  | reset => exact absurd rfl h
  | full => rfl

/-- Settles O29: PRE by its arms, and the room it leaves by the invariant that it keeps. -/
theorem preOfGrowth : Obligations.PreOfGrowth := by
  unfold Obligations.PreOfGrowth
  intro p a y hp h
  refine ⟨Sync.pre_fsm _ _, fun hreset => ?reset, fun hne => ?other, fun hne => ?room, (Sync.pre_room h hp).mp⟩
  case reset =>
    rw [hreset]
    exact ⟨rfl, rfl⟩
  case other =>
    rw [Sync.pre_of_ne_reset hne]
    exact ⟨rfl, rfl⟩
  case room => exact lt_of_le_of_ne (Sync.pre_inv h hp).high (mt (Sync.pre_room h hp).mpr hne)

/-! ### ADD (R111) -/

theorem Sync.added_full (entry : Str) (y : Sync) : y.added .full entry = y := rfl

theorem Sync.added_n (h : br ≠ .full) : (y.added br entry).n = y.n + 1 := by
  rw [Sync.added, if_neg h]

/-- R32: the counter is above every code of a sound table, so the entry that ADD appends is in its place. -/
theorem Sync.Inv.added_table (h : y.Inv p a) (hbr : br ≠ .full) :
    (y.added br entry).table = placeEntry y.n entry y.table := by
  rw [Sync.added, if_neg hbr, placeEntry_append fun e he => (h.code_range he).2]

theorem Sync.Inv.lookupCode_added (h : y.Inv p a) (hbr : br ≠ .full) (c : Nat) :
    lookupCode (y.added br entry).table c = if c = y.n then some entry else lookupCode y.table c := by
  rw [h.added_table hbr, lookupCode_placeEntry h.low h.entryAt_n]

theorem Sync.Inv.lookupStr_added (h : y.Inv p a) (hbr : br ≠ .full) (hnew : lookupStr y.table entry = none) (s : Str) :
    lookupStr (y.added br entry).table s = if s = entry then some y.n else lookupStr y.table s := by
  rw [h.added_table hbr, lookupStr_placeEntry hnew]

/-- Settles O30: the `Insert` of ADD is allowed at the counter of a sound sync, and the lookups after it are those after placing
the entry. -/
theorem addOfGrowth : Obligations.AddOfGrowth := by
  unfold Obligations.AddOfGrowth
  intro p a y br entry h hlen hnew
  refine ⟨fun hfull => ?full, fun hbr => ⟨y.added br entry, Sync.add_eq h hlen hnew, Sync.added_fsm _ _ _, Sync.added_n hbr,
    h.lookupCode_added hbr, fun ha => h.lookupStr_added hbr (hnew ha)⟩⟩
  case full =>
    subst hfull
    rw [Sync.add_eq h hlen hnew, Sync.added_full]

/-! ### SYNC_GROW (R112) -/

theorem Sync.grown_fsm (entry : Str) (y : Sync) : (y.grown entry).fsm = fsmApply y.branch y.fsm := by
  rw [Sync.grown, Sync.added_fsm, Sync.pre_fsm]

/-- Unless the arm is FULL, a growth event adds its entry to the counter and dictionary that PRE leaves. -/
theorem Sync.Inv.grown_adds (h : y.Inv p a) (hp : p.legal) (hbr : y.branch ≠ .full) (hnew : lookupStr y.table entry = none) :
    (y.grown entry).n = (y.pre y.branch).n + 1 ∧ ∀ s, lookupStr (y.grown entry).table s =
      if s = entry then some (y.pre y.branch).n else lookupStr (y.pre y.branch).table s :=
  ⟨Sync.added_n hbr, (Sync.pre_inv h hp).lookupStr_added hbr (Sync.pre_lookupStr hnew _)⟩

/-- Settles O31: the growth event is PRE and then ADD, in every arm but FULL, where it is nothing. -/
theorem growthEvent : Obligations.GrowthEvent := by
  unfold Obligations.GrowthEvent
  intro p y entry hp h hlen hnew
  refine ⟨y.grown entry, Sync.grow_eq h hp hlen hnew, fun hbr => ?insert, fun hbr => ?grow, fun hbr => ?adds,
    fun hbr => ?reset, fun hbr => Sync.grown_of_full hbr entry⟩
  case insert => rw [Sync.grown_fsm, hbr, fsmApply]
  case grow => rw [Sync.grown_fsm, hbr, fsmApply]
  case adds =>
    have hne : y.branch ≠ .reset ∧ y.branch ≠ .full := by
      rcases hbr with hbr | hbr <;> simp [hbr]
    have hadds := h.grown_adds hp hne.2 hnew
    rwa [Sync.pre_of_ne_reset hne.1] at hadds
  case reset =>
    have hadds := h.grown_adds hp (by simp [hbr]) hnew
    rw [hbr] at hadds
    exact ⟨by rw [Sync.grown_fsm, hbr, fsmApply], hadds⟩

end Sys2Proof.Machine
end

section

/-!
## The encoder's transactions (R122 to R130)

The row of a byte or of an end of input is an operation of the encoder, and the laws of that operation say which encoder
it leaves on a sound state. A refused transaction leaves all but the answer to the host.
-/

namespace Sys2Proof.Machine

variable {p : Params} {s : State} {b : Byte} {e : Encoder}

/-! ### Refused transactions, and the phases without a step (R130, R149) -/

/-- R149: there is no word to read, so there is nothing to run. -/
theorem runDecoder_of_no_step (hph : s.dec.phase = .idle ∨ s.dec.phase = .done ∨ s.dec.phase = .error) :
    runDecoder s = .next s := by
  rcases hph with hph | hph | hph <;> simp only [runDecoder, decoderFetch, hph, andThen_next]

/-- Settles O38: the law of each refused transaction, and a decoder without a read. -/
theorem refusedTransactionsChangeNothing : Obligations.RefusedTransactionsChangeNothing := by
  unfold Obligations.RefusedTransactionsChangeNothing
  exact fun s bits => ⟨runRequest_byte_refused, runRequest_end_refused, fun r f hph => runRequest_encStart_refused hph r f,
    fun hph => runRequest_decStart_refused (s.dec.busy_iff.mpr hph), runDecoder_of_no_step⟩

/-! ### The rows of a byte (R122 to R124) -/

theorem exec_encFirst_of_empty (hph : s.enc.phase = .empty) :
    exec (.encFirst b) s = .next { s with enc := { s.enc with cur := .write [b], phase := .run } } := by
  simp only [exec, execEncFirst, hph]

theorem exec_encExtend_of_known {c : Nat} (hph : s.enc.phase = .run)
    (hk : lookupStr s.enc.sync.values.table (s.enc.cur.value ++ [b]) = some c) :
    exec (.encExtend b) s = .next { s with enc := { s.enc with cur := .write (s.enc.cur.value ++ [b]) } } := by
  simp only [exec, execEncExtend, byteClass_of_known hph hk, andThen_next]

theorem exec_encEmit_of_new (hph : s.enc.phase = .run)
    (hk : lookupStr s.enc.sync.values.table (s.enc.cur.value ++ [b]) = none) :
    exec (.encEmit b) s = onEncoder s (s.enc.emit s.params.bitOrder b) := by
  simp only [exec, execEncEmit, byteClass_of_new hph hk, andThen_next]

/-- Settles O40: the two rows of a byte that write nothing. -/
theorem byteRowsWithoutOutput : Obligations.ByteRowsWithoutOutput := by
  unfold Obligations.ByteRowsWithoutOutput
  exact fun b s => ⟨exec_encFirst_of_empty, fun c => exec_encExtend_of_known⟩

/-- R113: `cur` is a key of the dictionary. -/
theorem Encoder.Inv.exists_code (h : e.Inv p) (hph : e.phase = .run) :
    ∃ c, lookupStr e.sync.values.table e.cur.value = some c := by
  obtain ⟨-, hcur⟩ := h.run hph
  exact Option.isSome_iff_exists.mp hcur.isSome

theorem Encoder.Inv.two_le_length (h : e.Inv p) (hph : e.phase = .run) (b : Byte) : 2 ≤ (e.cur.value ++ [b]).length := by
  obtain ⟨-, hne, -⟩ := h.run hph
  have := List.length_pos_iff.mpr hne
  rw [List.length_append, List.length_singleton]
  omega

/-- While a stream is open, its fsm and sync are sound. -/
theorem Encoder.Inv.sync_of_busy (h : e.Inv p) (hb : e.busy = true) : e.sync.values.Inv p .encoder := by
  have hne : e.phase ≠ .idle := by
    intro hidle
    simp [Encoder.busy, hidle] at hb
  obtain ⟨-, -, hsync⟩ := h.started hne
  exact hsync

/-- Settles O41: the code of `cur` and its range by the invariant, and the encoder that ENC_EMIT leaves by its law. -/
theorem encEmitWritesThenGrows : Obligations.EncEmitWritesThenGrows := by
  unfold Obligations.EncEmitWritesThenGrows
  intro b s h hph hnew
  obtain ⟨c, hc⟩ := h.enc.exists_code hph
  have hsync := h.enc.sync_of_busy (s.enc.busy_iff.mpr (.inr hph))
  obtain ⟨hlt, hne, hfits⟩ := lookupStr_lt hsync hc
  refine ⟨c, s.enc.sync.values.grown (s.enc.cur.value ++ [b]), hc, hne, hlt, hfits,
    Sync.grow_eq hsync h.params (h.enc.two_le_length hph b) hnew, ?_⟩
  rw [exec_encEmit_of_new hph hnew, Encoder.emit_eq h.enc h.params hph hc hnew, onEncoder_next]
  rfl

/-! ### The end of a stream (R125 to R128) -/

theorem exec_encEndRun_of_run (hph : s.enc.phase = .run) :
    exec .encEndRun s = onEncoder s (s.enc.endRun s.params.bitOrder) := by
  simp only [exec, execEncEndRun, hph]

theorem exec_encEndEmpty_of_empty (hph : s.enc.phase = .empty) :
    exec .encEndEmpty s = onEncoder s (s.enc.endEmpty s.params.bitOrder) := by
  simp only [exec, execEncEndEmpty, hph]

/-- Settles O42: the code of `cur` by the invariant, and the encoder that ENC_END_RUN leaves by its law. -/
theorem encEndRunClosesStream : Obligations.EncEndRunClosesStream := by
  unfold Obligations.EncEndRunClosesStream
  intro s h hph
  obtain ⟨c, hc⟩ := h.enc.exists_code hph
  refine ⟨c, hc, ?_⟩
  rw [exec_encEndRun_of_run hph, Encoder.endRun_eq h.enc h.params hph hc, onEncoder_next]
  rfl

/-- R126: with no entry yet there is room, so the anticipated width is the width in use, the smallest one. -/
theorem Encoder.Inv.nextWidth_of_empty (h : e.Inv p) (hp : p.legal) (hph : e.phase = .empty) :
    fsmNextWidth e.sync.values.fsm e.sync.values.n = e.sync.values.fsm.wMin := by
  obtain ⟨hn, hw⟩ := h.empty hph
  have hsync := h.sync_of_busy (e.busy_iff.mpr (.inl hph))
  have hroom : e.sync.values.n < e.sync.values.fsm.l := by
    rw [hn, hsync.fsm.cap]
    exact firstCode_lt _ (hsync.w_pos hp)
  rw [fsmNextWidth_eq hsync.fsm (fsmClassify_of_room hroom), fsmApply, hw]

/-- Settles O43: the encoder that ENC_END_EMPTY leaves by its law, the anticipated width being `WMIN`. -/
theorem encEndEmptyClosesStream : Obligations.EncEndEmptyClosesStream := by
  unfold Obligations.EncEndEmptyClosesStream
  intro s h hph
  rw [exec_encEndEmpty_of_empty hph, Encoder.endEmpty_eq h.enc h.params hph, onEncoder_next,
    ← h.enc.nextWidth_of_empty h.params hph]
  rfl

/-- R78: a row that names a width is SENTINEL_WRITE at that width. -/
theorem exec_of_sentinelWidth {i : Instr} {w : Nat} (hi : i.sentinelWidth = some w) (s : State) :
    exec i s = onEncoder s (s.enc.sentinelAt s.params.bitOrder w) := by
  unfold Instr.sentinelWidth at hi
  split at hi <;> cases hi <;> rfl

/-- R127: SENTINEL_WRITE at the anticipated width, a stream being open. -/
theorem Encoder.Inv.sentinelAt_eq (h : e.Inv p) (hp : p.legal) (hb : e.busy = true) {w : Nat}
    (hw : w = fsmNextWidth e.sync.values.fsm e.sync.values.n) (o : BitOrder) :
    e.sentinelAt o w = .next (e.wrote o sentinelCode w) := by
  obtain ⟨hopen, -⟩ := h.opened hb
  rw [Encoder.sentinelAt, if_pos hb, if_pos hw.symm, Encoder.sentinelWrite_eq hopen (h.sync_of_busy hb) hp, hw]

/-- Settles O44: the eight rows are one operation, whose law says what it writes. -/
theorem sentinelRows : Obligations.SentinelRows := by
  unfold Obligations.SentinelRows
  intro i w s hi h hb hw
  rw [exec_of_sentinelWidth hi, h.enc.sentinelAt_eq h.params hb hw, onEncoder_next]
  rfl

/-- R128: CLOSE, where the padding is the one that the position asks for. -/
theorem exec_pad_of_busy {k : Nat} (hb : s.enc.busy = true) (hk : padLength s.enc.nbits.value = k) :
    exec (.pad k) s = onEncoder s s.enc.closeOut := by
  simp only [exec, execPad, hb, hk, if_true]

/-- Settles O45: PAD is `CloseOut`, which pads by the length that the row names. -/
theorem padRow : Obligations.PadRow := by
  unfold Obligations.PadRow
  intro k s hb hopen hk
  rw [exec_pad_of_busy hb hk.symm, Encoder.closeOut_eq hopen, onEncoder_next, hk]
  rfl

end Sys2Proof.Machine
end

section

/-!
## The decoder's rows (R134, R136 to R146)

The row of a header or of a codeword is an operation of the decoder, and the law of that operation says which decoder it leaves.
-/

namespace Sys2Proof.Machine

variable {s : State} {br : Branch} {v : Nat}

/-! ### The header and the first codeword (R134, R136 to R138) -/

theorem exec_hdr_of_hdr (hph : s.dec.phase = .hdr) (r f : Bool) :
    exec (.hdr r f) s = .next { s with dec := s.dec.headed s.params r f } := by
  simp only [exec, execHdr, hph]

theorem exec_firstLit_of_first (hph : s.dec.phase = .first) (hv : v ≤ 255) :
    exec (.firstLit v) s = .next { s with dec := s.dec.opened [BitVec.ofNat 8 v] } := by
  simp only [exec, execFirstLit, hph, hv, if_true, Decoder.opened]

theorem exec_firstSent_of_first (hph : s.dec.phase = .first) (hopen : s.dec.out.closed = false) :
    exec .firstSent s = .next { s with dec := s.dec.finished } := by
  simp only [exec, execFirstSent, hph, Decoder.finish_eq hopen, onDecoder_next]

theorem exec_firstBad_of_first (hph : s.dec.phase = .first) (hv : firstCode ≤ v) :
    exec (.firstBad v) s = .next { s with dec := s.dec.trap .badCode } := by
  simp only [exec, execFirstBad, hph, hv, if_true]

/-- Settles O50: the law of each row of FIRST; a byte is the value of its codeword. -/
theorem firstRows : Obligations.FirstRows := by
  unfold Obligations.FirstRows
  intro s hph
  refine ⟨fun b => ?lit, fun hopen hm => ?sent, fun v hv => exec_firstBad_of_first hph hv⟩
  case lit =>
    rw [exec_firstLit_of_first hph (Nat.le_of_lt_succ b.isLt), BitVec.ofNat_toNat, BitVec.setWidth_eq]
    rfl
  case sent =>
    rw [exec_firstSent_of_first hph hopen, Decoder.finished, ← hm]

/-! ### SENT and BAD (R140, R144) -/

theorem exec_sent_of_run (hph : s.dec.phase = .run) (hm : s.dec.midStep = some br) (hopen : s.dec.out.closed = false) :
    exec .sent s = .next { s with dec := s.dec.finished } := by
  simp only [exec, execSent, Decoder.inStep_eq hph hm, andThen_next, Decoder.finish_eq hopen, onDecoder_next]

theorem exec_bad_of_run (hph : s.dec.phase = .run) (hm : s.dec.midStep = some br) (hv : s.dec.sync.values.n < v) :
    exec (.bad v) s = .next { s with dec := s.dec.trap .badCode } := by
  simp only [exec, execBad, Decoder.inStep_eq hph hm, andThen_next, hv, if_true]

/-- Settles O52: the normal end of the stream, and the trap. -/
theorem sentAndBadRows : Obligations.SentAndBadRows := by
  unfold Obligations.SentAndBadRows
  exact fun br s hph hm => ⟨exec_sent_of_run hph hm, fun v => exec_bad_of_run hph hm⟩

/-! ### The classes that are strings (R141 to R143, R145, R146) -/

/-- R146: CAPACITY_CHECK, as the rule writes it. -/
theorem overCapacity_eq_true {cap : Option Nat} {val str : Str} :
    overCapacity cap br val str = true ↔
      ∃ c, cap = some c ∧ (c < str.length ∨ br ≠ .full ∧ c < val.length + 1) := by
  cases cap <;> simp [overCapacity]

/-- R117: the entry that DEC_TAIL adds. -/
theorem two_le_length_entry {val str : Str} (hval : val ≠ []) (hstr : str ≠ []) : 2 ≤ (val ++ str.take 1).length := by
  have h1 := List.length_pos_iff.mpr hval
  have h2 := List.length_pos_iff.mpr hstr
  rw [List.length_append, List.length_take]
  omega

/-- R145: an instruction that runs DEC_TAIL on a string ends the step with it. -/
theorem State.Inv.endsStep_of_tailOf (h : s.Inv) (hm : s.dec.midStep = some br) {i : Instr} {str : Str} (hne : str ≠ [])
    (hi : exec i s = .next { s with dec := s.dec.tailOf s.params.strCap br str }) : s.endsStep i br str := by
  obtain ⟨hph, -⟩ := h.dec.step br hm
  obtain ⟨-, hsync⟩ := h.dec.started (.inr hph)
  obtain ⟨-, hval⟩ := h.dec.run hph
  have hadd := Sync.add_eq (br := br) hsync (two_le_length_entry hval hne) (fun ha => nomatch ha)
  refine ⟨fun hcap => ⟨_, hadd, ?fits⟩, fun hcap => ?exceeds⟩
  case fits =>
    rw [hi, Decoder.tailOf, hcap]
    rfl
  case exceeds => rw [hi, Decoder.tailOf, if_pos hcap]

/-- Settles O53: each class resolves its codeword to a string and runs DEC_TAIL on it. -/
theorem stringRows : Obligations.StringRows := by
  unfold Obligations.StringRows
  intro br s h hm
  obtain ⟨hph, -⟩ := h.dec.step br hm
  obtain ⟨-, hsync⟩ := h.dec.started (.inr hph)
  refine ⟨fun b => ?lit, fun v h1 h2 => ?ref, fun hbr => ?self, fun str => overCapacity_eq_true⟩
  case lit =>
    have hb : b.toNat ≤ 255 := Nat.le_of_lt_succ b.isLt
    have hlookup : lookupCode s.dec.sync.values.table b.toNat = some [b] := by
      rw [lookupCode_base hb, BitVec.ofNat_toNat, BitVec.setWidth_eq]
    have hexec := execRun_string h hm (List.cons_ne_nil b []) (.inl ⟨.inl hb, hlookup⟩)
    rw [classRun_lit hb] at hexec
    exact h.endsStep_of_tailOf hm (List.cons_ne_nil b []) hexec
  case ref =>
    obtain ⟨str, hlookup, hne⟩ := lookupCode_some hsync (.inr ⟨h1, h2⟩)
    have hexec := execRun_string h hm hne (.inl ⟨.inr ⟨h1, h2⟩, hlookup⟩)
    rw [classRun_ref h1 h2] at hexec
    exact ⟨str, hlookup, hne, h.endsStep_of_tailOf hm hne hexec⟩
  case self =>
    have hne : s.dec.val.value ++ s.dec.val.value.take 1 ≠ [] := List.append_ne_nil_of_left_ne_nil (h.dec.run hph).2 _
    have hexec := execRun_string h hm hne (.inr ⟨⟨rfl, hbr⟩, rfl⟩)
    rw [classRun_self hsync.low] at hexec
    exact h.endsStep_of_tailOf hm hne hexec

end Sys2Proof.Machine
end

section

/-!
## The decoder's steps (R134, R135, R139, R147)

A step of the decoder is its read and then the row of its codeword. Where the read is short, the step is the trap; where the
codeword is the sentinel, it is the end of the stream, and the bits behind the codeword are where they were.
-/

namespace Sys2Proof.Machine

variable {p : Params} {s : State}

/-! ### Steps whose read is short (R134, R135, R139) -/

theorem runDecoder_hdr_short (hph : s.dec.phase = .hdr) (hshort : s.readsShort headerBits) :
    runDecoder s = .next (s.afterShort .truncHeader) := by
  obtain ⟨hl, hend⟩ := hshort
  simp only [runDecoder, decoderFetch, hph, readToken_short hl hend, andThen_next]

theorem runDecoder_first_short (hph : s.dec.phase = .first) (hshort : s.readsShort s.dec.sync.values.fsm.w) :
    runDecoder s = .next (s.afterShort .truncCodeword) := by
  obtain ⟨hl, hend⟩ := hshort
  simp only [runDecoder, decoderFetch, hph, fsmWidth, readToken_short hl hend, andThen_next]

/-- R139: `val` is emitted and PRE runs before the read. -/
theorem runDecoder_run_short (h : s.Inv) (hph : s.dec.phase = .run) (hshort : s.readsShort s.dec.begun.sync.values.fsm.w) :
    runDecoder s = .next (State.afterShort .truncCodeword { s with dec := s.dec.begun }) := by
  obtain ⟨hl, hend⟩ := hshort
  obtain ⟨-, hopen, -⟩ := h.dec.busy (by simp [Decoder.busy, hph])
  have hl : s.dec.begun.inp.bits.length < s.dec.begun.sync.values.fsm.w := by rwa [Decoder.begun_inp]
  have hend : s.dec.begun.inp.ended = true ∨ s.params.underrun = .short := by rwa [Decoder.begun_inp]
  have hread (c : Ctx) (e : DecErr) := readToken_short (c := c) (e := e) (s := { s with dec := s.dec.begun }) hl hend
  simp only [runDecoder, decoderFetch, hph, Decoder.begin_eq hopen, fsmWidth, hread, andThen_next]

/-- Settles O48: the law of the header row, and of the step with and without two bits to read. -/
theorem headerStep : Obligations.HeaderStep := by
  unfold Obligations.HeaderStep
  intro s hph
  refine ⟨fun r f => ⟨_, _, exec_hdr_of_hdr hph r f⟩, fun r f rest hbits => ?step, runDecoder_hdr_short hph⟩
  case step =>
    have hstep := runDecoder_hdr hph (by simp [hbits, headerBits])
    rw [State.afterRead, hbits] at hstep
    exact ⟨_, _, hstep⟩

/-- Settles O49: in FIRST the width is `WMIN`, and the value of the codeword names its row. -/
theorem firstStep : Obligations.FirstStep := by
  unfold Obligations.FirstStep
  intro s h hph
  obtain ⟨-, hw⟩ := h.dec.first hph
  rw [← hw]
  refine ⟨fun hl => ?read, runDecoder_first_short hph⟩
  case read =>
    rw [runDecoder_first hph hl]
    exact ⟨fun hv => by rw [classFirst_lit hv], fun hv => by rw [hv]; rfl, fun hv => by rw [classFirst_bad hv]⟩

/-! ### The step of the phase RUN (R139) -/

/-- R139: the decoder at the read of a step that has not begun. -/
theorem Decoder.begun_of_fresh {d : Decoder} (hm : d.midStep = none) :
    d.begun = { d with
      out := { d.out with bytes := d.out.bytes ++ d.val.value }
      sync := .put (d.sync.values.pre d.sync.values.branch), midStep := some d.sync.values.branch } := by
  rw [Decoder.begun, hm]

/-- R104: PRE leaves the anticipated width. -/
theorem Sync.Inv.pre_w {y : Sync} {a : Agent} (h : y.Inv p a) : (y.pre y.branch).fsm.w = fsmNextWidth y.fsm y.n := by
  rw [Sync.pre_fsm]
  exact fsmApply_w h.fsm y.n

/-- Settles O51: the decoder that has begun the step reads at the width of its sync, and the value of the codeword names its row. -/
theorem runStep : Obligations.RunStep := by
  unfold Obligations.RunStep
  intro s h hph hm z u v
  obtain ⟨-, hsync⟩ := h.dec.started (.inr hph)
  have hu : u = { s with dec := s.dec.begun } := by rw [Decoder.begun_of_fresh hm]
  have hz : s.dec.begun.sync.values = z := by rw [Decoder.begun_of_fresh hm]; rfl
  have hn : firstCode ≤ z.n := (Sync.pre_inv hsync h.params).low
  have hshort := runDecoder_run_short h hph
  have hread := runDecoder_run h hph
  rw [hz, ← hu] at hshort hread
  refine ⟨hsync.pre_w, fun hl => ?read, hshort⟩
  case read =>
    have hread : runDecoder s = exec (classRun z.n v) (u.afterRead z.fsm.w) := hread hl
    rw [hread]
    exact ⟨fun hv => by rw [hv]; rfl, fun hv => by rw [classRun_lit hv], fun h1 h2 => by rw [classRun_ref h1 h2],
      fun hv => by rw [hv, classRun_self hn], fun hv => by rw [classRun_bad (hn.trans hv.le) hv]⟩

/-! ### The step that reads the sentinel (R137, R140, R147) -/

/-- The decoder at the read of its step: a step of the phase RUN has begun. -/
def Decoder.atRead (d : Decoder) : Decoder := if d.phase = .run then d.begun else d

theorem Decoder.atRead_of_first {d : Decoder} (hph : d.phase = .first) : d.atRead = d := if_neg (by simp [hph])

theorem Decoder.atRead_of_run {d : Decoder} (hph : d.phase = .run) : d.atRead = d.begun := if_pos hph

@[simp] theorem Decoder.atRead_err (d : Decoder) : d.atRead.err = d.err := by
  unfold Decoder.atRead
  split <;> simp

@[simp] theorem Decoder.atRead_pos (d : Decoder) : d.atRead.pos = d.pos := by
  unfold Decoder.atRead
  split <;> simp

@[simp] theorem Decoder.atRead_inp (d : Decoder) : d.atRead.inp = d.inp := by
  unfold Decoder.atRead
  split <;> simp

theorem Decoder.begun_withInp (d : Decoder) (i : BitIn) : ({ d with inp := i } : Decoder).begun = { d.begun with inp := i } := by
  cases hm : d.midStep <;> simp only [Decoder.begun, hm]

/-- What comes before the read does not look at the input. -/
theorem Decoder.atRead_withInp (d : Decoder) (i : BitIn) : ({ d with inp := i } : Decoder).atRead = { d.atRead with inp := i } := by
  simp only [Decoder.atRead]
  split
  · exact d.begun_withInp i
  · rfl

/-- The machine after a step of the decoder that has read `n` bits and ended its stream. -/
def State.endedAfter (n : Nat) (s : State) : State :=
  { s with dec := (State.afterRead n { s with dec := s.dec.atRead }).dec.finished }

/-- R99: at the first code there is room, so the anticipated width is the width. -/
theorem Sync.Inv.nextWidth_of_firstCode {y : Sync} {a : Agent} (h : y.Inv p a) (hp : p.legal) (hn : y.n = firstCode) :
    fsmNextWidth y.fsm y.n = y.fsm.w := by
  have hroom : y.n < y.fsm.l := by
    rw [hn, h.fsm.cap]
    exact firstCode_lt _ (h.w_pos hp)
  rw [fsmNextWidth_eq h.fsm (fsmClassify_of_room hroom), fsmApply]

/-- R137, R140: a word of the width in use that is the sentinel ends the stream, whatever follows it. -/
theorem runDecoder_sentinel (h : s.Inv) (hph : s.dec.phase = .first ∨ s.dec.phase = .run ∧ s.dec.midStep = none)
    {word rest : Bits} (hlen : word.length = fsmNextWidth s.dec.sync.values.fsm s.dec.sync.values.n)
    (hv : bitsValue s.params.bitOrder word = sentinelCode) (hbits : s.dec.inp.bits = word ++ rest) :
    runDecoder s = .next (s.endedAfter word.length) := by
  have hl : word.length ≤ s.dec.inp.bits.length := by simp [hbits]
  have htake : s.dec.inp.bits.take word.length = word := by rw [hbits, List.take_left]
  rcases hph with hph | ⟨hph, hm⟩
  · obtain ⟨-, hopen, -⟩ := h.dec.busy (by simp [Decoder.busy, hph])
    obtain ⟨hn, -⟩ := h.dec.first hph
    obtain ⟨-, hsync⟩ := h.dec.started (.inl hph)
    have hw : s.dec.sync.values.fsm.w = word.length := (hlen.trans (hsync.nextWidth_of_firstCode h.params hn)).symm
    rw [runDecoder_first hph (hw.trans_le hl), hw, htake, hv, classFirst_sent,
      exec_firstSent_of_first (s := s.afterRead word.length) hph hopen, State.endedAfter, Decoder.atRead_of_first hph]
    rfl
  · have h1 := h.begun hph
    obtain ⟨br, hbr⟩ := s.dec.begun_midStep
    obtain ⟨hph1, -⟩ := h1.dec.step br hbr
    obtain ⟨-, hopen, -⟩ := h1.dec.busy ((Decoder.busy_iff _).mpr (.inr (.inr hph1)))
    obtain ⟨-, hsync⟩ := h.dec.started (.inr hph)
    have hw : s.dec.begun.sync.values.fsm.w = word.length := by
      rw [Decoder.begun_of_fresh hm, hlen]
      exact hsync.pre_w
    rw [runDecoder_run h hph (hw.trans_le hl), hw, htake, hv, classRun_sent,
      exec_sent_of_run (s := State.afterRead word.length { s with dec := s.dec.begun }) hph1 hbr hopen, State.endedAfter,
      Decoder.atRead_of_run hph]
    rfl

/-- Settles O58: the step ends the stream just past the sentinel, and the decoder it leaves is the same for any bits that follow. -/
theorem bitsAfterSentinelIgnored : Obligations.BitsAfterSentinelIgnored := by
  unfold Obligations.BitsAfterSentinelIgnored
  intro s word rest h hph hlen hv hbits
  obtain ⟨herr, -, -⟩ := h.dec.busy (by rcases hph with hph | ⟨hph, -⟩ <;> simp [Decoder.busy, hph])
  refine ⟨s.endedAfter word.length, runDecoder_sentinel h hph hlen hv hbits, rfl, ?err, ?pos, ?unread,
    runDecoder_of_no_step (.inr (.inl rfl)), fun other => ?other⟩
  case err => simpa [State.endedAfter, State.afterRead, Decoder.finished] using herr
  case pos => simp [State.endedAfter, State.afterRead, Decoder.finished]
  case unread => simp [State.endedAfter, State.afterRead, Decoder.finished, hbits]
  case other =>
    have h' := h.withDec (h.dec.withInputs { s.dec.inp with bits := word ++ other } s.dec.nextInp s.dec.held)
    rw [runDecoder_sentinel h' hph hlen hv rfl]
    simp [State.endedAfter, State.afterRead, Decoder.finished, Decoder.atRead_withInp]

end Sys2Proof.Machine
end

section

/-!
## Progress of the decoder (R151)

A step of the decoder whose input has ended ends the stream or consumes the word that it reads: two bits of the header, and at
least nine bits of a codeword, `WMIN` being at least nine. So the unread bits bound the steps to come.
-/

namespace Sys2Proof.Machine

variable {s t : State} {d d' : Decoder} {br : Branch} {v : Nat}

/-! ### What the instruction of a codeword does (R136 to R145) -/

/-- A first codeword opens the phase RUN, ends the stream, or takes BAD_CODE. -/
theorem exec_classFirst_cases (h : s.Inv) (hph : s.dec.phase = .first) (v : Nat) :
    ∃ d, exec (classFirst v) s = .next { s with dec := d } ∧
      ((∃ str, d = s.dec.opened str) ∨ d = s.dec.finished ∨ d = s.dec.trap .badCode) := by
  obtain ⟨-, hopen, -⟩ := h.dec.busy (s.dec.busy_iff.mpr (.inr (.inl hph)))
  rcases classFirst_cases v with ⟨hv, e⟩ | ⟨-, e⟩ | ⟨hv, e⟩ <;> rw [e]
  · exact ⟨_, exec_firstLit_of_first hph hv, .inl ⟨_, rfl⟩⟩
  · exact ⟨_, exec_firstSent_of_first hph hopen, .inr (.inl rfl)⟩
  · exact ⟨_, exec_firstBad_of_first hph hv, .inr (.inr rfl)⟩

/-- A later codeword of the width in use runs DEC_TAIL, ends the stream, or takes BAD_CODE. -/
theorem exec_classRun_cases (h : s.Inv) (hm : s.dec.midStep = some br) (hv : v < 2 ^ s.dec.sync.values.fsm.w) :
    ∃ d, exec (classRun s.dec.sync.values.n v) s = .next { s with dec := d } ∧
      ((∃ str, d = s.dec.tailOf s.params.strCap br str) ∨ d = s.dec.finished ∨ d = s.dec.trap .badCode) := by
  obtain ⟨hph, hroom⟩ := h.dec.step br hm
  obtain ⟨-, hopen, -⟩ := h.dec.busy (s.dec.busy_iff.mpr (.inr (.inr hph)))
  obtain ⟨-, hsync⟩ := h.dec.started (.inr hph)
  rcases classRun_cases hsync.low v with ⟨-, e⟩ | ⟨hv, -⟩ | ⟨hv, -⟩ | ⟨rfl, -⟩ | ⟨hv, e⟩
  · exact ⟨_, e ▸ exec_sent_of_run hph hm hopen, .inr (.inl rfl)⟩
  · obtain ⟨str, hstr, hne⟩ := lookupCode_some hsync (.inl hv)
    exact ⟨_, execRun_string h hm hne (.inl ⟨.inl hv, hstr⟩), .inl ⟨str, rfl⟩⟩
  · obtain ⟨str, hstr, hne⟩ := lookupCode_some hsync (.inr hv)
    exact ⟨_, execRun_string h hm hne (.inl ⟨.inr hv, hstr⟩), .inl ⟨str, rfl⟩⟩
  · have hne : s.dec.val.value ++ s.dec.val.value.take 1 ≠ [] := List.append_ne_nil_of_left_ne_nil (h.dec.run hph).2 _
    have hbr : br ≠ .full := fun hfull => absurd (hroom.mp hfull) (by rw [hsync.fsm.cap]; exact hv.ne)
    exact ⟨_, execRun_string h hm hne (.inr ⟨⟨rfl, hbr⟩, rfl⟩), .inl ⟨_, rfl⟩⟩
  · exact ⟨_, e ▸ exec_bad_of_run hph hm hv, .inr (.inr rfl)⟩

/-- The instruction of a codeword, which has been read, leaves the input, and ends the stream or leaves it in RUN. -/
structure Decoder.Resolves (d d' : Decoder) : Prop where
  inp : d'.inp = d.inp
  held : d'.held = d.held
  phase : d'.phase = .done ∨ d'.phase = .error ∨ d'.phase = .run

theorem Decoder.opened_resolves (d : Decoder) (str : Str) : d.Resolves (d.opened str) := ⟨rfl, rfl, .inr (.inr rfl)⟩

theorem Decoder.finished_resolves (d : Decoder) : d.Resolves d.finished := ⟨rfl, rfl, .inl rfl⟩

theorem Decoder.trap_resolves (d : Decoder) (e : DecErr) : d.Resolves (d.trap e) := ⟨rfl, rfl, .inr (.inl rfl)⟩

theorem Decoder.tailOf_resolves (hph : d.phase = .run) (cap : Option Nat) (br : Branch) (str : Str) :
    d.Resolves (d.tailOf cap br str) := by
  unfold Decoder.tailOf
  split
  · exact d.trap_resolves _
  · exact ⟨rfl, rfl, .inr (.inr hph)⟩

theorem exec_classFirst_resolves (h : s.Inv) (hph : s.dec.phase = .first) (ht : exec (classFirst v) s = .next t) :
    s.dec.Resolves t.dec := by
  obtain ⟨d, hd, hcases⟩ := exec_classFirst_cases h hph v
  cases ht.symm.trans hd
  rcases hcases with ⟨str, rfl⟩ | rfl | rfl
  · exact s.dec.opened_resolves str
  · exact s.dec.finished_resolves
  · exact s.dec.trap_resolves _

theorem exec_classRun_resolves (h : s.Inv) (hm : s.dec.midStep = some br) (hv : v < 2 ^ s.dec.sync.values.fsm.w)
    (ht : exec (classRun s.dec.sync.values.n v) s = .next t) : s.dec.Resolves t.dec := by
  obtain ⟨hph, -⟩ := h.dec.step br hm
  obtain ⟨d, hd, hcases⟩ := exec_classRun_cases h hm hv
  cases ht.symm.trans hd
  rcases hcases with ⟨str, rfl⟩ | rfl | rfl
  · exact Decoder.tailOf_resolves hph _ _ str
  · exact s.dec.finished_resolves
  · exact s.dec.trap_resolves _

/-! ### A step consumes bits or ends the stream -/

/-- The stream of the decoder has ended, normally or by an exception. -/
def Decoder.hasEnded (d : Decoder) : Prop := d.phase = .done ∨ d.phase = .error

/-- The stream goes on behind the header, with at least `n` bits of the input consumed. -/
structure Decoder.Consumes (n : Nat) (d d' : Decoder) : Prop where
  phase : d'.phase = .first ∨ d'.phase = .run
  ended : d'.inp.ended = d.inp.ended
  bits : d'.inp.bits.length + n ≤ d.inp.bits.length

/-- R134, R135, R139: the number of bits that a step consumes at least. -/
def Decoder.leastRead (d : Decoder) : Nat := if d.phase = .hdr then 2 else 9

theorem Decoder.leastRead_of_codeword {d : Decoder} (hph : d.phase = .first ∨ d.phase = .run) : d.leastRead = 9 := by
  rcases hph with hph | hph <;> simp [Decoder.leastRead, hph]

/-- A codeword of `w` bits is read, and its instruction runs. -/
theorem Decoder.Resolves.progress {n w : Nat} {u : State} (hr : (u.afterRead w).dec.Resolves d') (hn : n ≤ w)
    (hl : w ≤ u.dec.inp.bits.length) : d'.hasEnded ∨ u.dec.Consumes n d' := by
  rcases hr.phase with hph | hph | hph
  · exact .inl (.inl hph)
  · exact .inl (.inr hph)
  · refine .inr ⟨.inr hph, by rw [hr.inp]; rfl, ?_⟩
    rw [hr.inp, State.afterRead, List.length_drop]
    omega

/-- Where the input has ended, a read that does not answer at once is short. -/
theorem State.readsShort_of_ended {n : Nat} (hend : s.dec.inp.ended = true) (hl : ¬ n ≤ s.dec.inp.bits.length) :
    s.readsShort n := ⟨Nat.lt_of_not_le hl, .inl hend⟩

theorem runDecoder_hdr_progress (hph : s.dec.phase = .hdr) (hend : s.dec.inp.ended = true) (ht : runDecoder s = .next t) :
    t.dec.held = s.dec.held ∧ (t.dec.hasEnded ∨ s.dec.Consumes 2 t.dec) := by
  by_cases hl : headerBits ≤ s.dec.inp.bits.length
  · cases ht.symm.trans (runDecoder_hdr hph hl)
    refine ⟨rfl, .inr ⟨.inl rfl, rfl, ?_⟩⟩
    rw [Decoder.headed_inp, State.afterRead, List.length_drop]
    exact (Nat.sub_add_cancel hl).le
  · cases ht.symm.trans (runDecoder_hdr_short hph (State.readsShort_of_ended hend hl))
    exact ⟨rfl, .inl (.inr rfl)⟩

theorem runDecoder_first_progress (h : s.Inv) (hph : s.dec.phase = .first) (hend : s.dec.inp.ended = true)
    (ht : runDecoder s = .next t) : t.dec.held = s.dec.held ∧ (t.dec.hasEnded ∨ s.dec.Consumes 9 t.dec) := by
  obtain ⟨-, hsync⟩ := h.dec.started (.inl hph)
  by_cases hl : s.dec.sync.values.fsm.w ≤ s.dec.inp.bits.length
  · rw [runDecoder_first hph hl] at ht
    have hr := exec_classFirst_resolves (h.afterRead _) hph ht
    exact ⟨hr.held, hr.progress (hsync.w_pos h.params) hl⟩
  · cases ht.symm.trans (runDecoder_first_short hph (State.readsShort_of_ended hend hl))
    exact ⟨rfl, .inl (.inr rfl)⟩

theorem runDecoder_run_progress (h : s.Inv) (hph : s.dec.phase = .run) (hend : s.dec.inp.ended = true)
    (ht : runDecoder s = .next t) : t.dec.held = s.dec.held ∧ (t.dec.hasEnded ∨ s.dec.Consumes 9 t.dec) := by
  have h1 := h.begun hph
  obtain ⟨br, hm⟩ := s.dec.begun_midStep
  obtain ⟨-, hsync⟩ := h1.dec.started (.inr (h1.dec.step br hm).1)
  by_cases hl : s.dec.begun.sync.values.fsm.w ≤ s.dec.inp.bits.length
  · rw [runDecoder_run h hph hl] at ht
    have hfits : bitsValue s.params.bitOrder (s.dec.inp.bits.take s.dec.begun.sync.values.fsm.w) <
        2 ^ s.dec.begun.sync.values.fsm.w := by
      have hlt := bitsValue_lt s.params.bitOrder (s.dec.inp.bits.take s.dec.begun.sync.values.fsm.w)
      rwa [List.length_take_of_le hl] at hlt
    have hr := exec_classRun_resolves (h1.afterRead s.dec.begun.sync.values.fsm.w) hm hfits ht
    obtain hdone | hgo := hr.progress (hsync.w_pos h.params) (by simpa using hl)
    · exact ⟨hr.held.trans s.dec.begun_held, .inl hdone⟩
    · exact ⟨hr.held.trans s.dec.begun_held, .inr ⟨hgo.phase, by simpa using hgo.ended, by simpa using hgo.bits⟩⟩
  · cases ht.symm.trans (runDecoder_run_short h hph (State.readsShort_of_ended hend hl))
    exact ⟨s.dec.begun_held, .inl (.inr rfl)⟩

/-- R151: a step of a busy decoder whose input has ended. -/
theorem runDecoder_progress (h : s.Inv) (hb : s.dec.busy = true) (hend : s.dec.inp.ended = true) (ht : runDecoder s = .next t) :
    t.dec.held = s.dec.held ∧ (t.dec.hasEnded ∨ s.dec.Consumes s.dec.leastRead t.dec) := by
  rcases s.dec.busy_iff.mp hb with hph | hph | hph
  · rw [Decoder.leastRead, if_pos hph]
    exact runDecoder_hdr_progress hph hend ht
  · rw [Decoder.leastRead_of_codeword (.inl hph)]
    exact runDecoder_first_progress h hph hend ht
  · rw [Decoder.leastRead_of_codeword (.inr hph)]
    exact runDecoder_run_progress h hph hend ht

/-! ### The run to the end of the stream -/

/-- The decoder has the machine to itself: no other input is lined up, its collaborators answer, and its input has ended. -/
structure State.Draining (s : State) : Prop where
  inv : s.Inv
  agenda : s.agenda = []
  held : s.dec.held = false
  ended : s.dec.inp.ended = true

/-- One step of a machine that drains the decoder's input. -/
theorem State.Draining.step (h : s.Draining) (hb : s.dec.busy = true) :
    ∃ t, Machine.step s = .next t ∧ (t.dec.hasEnded ∨ t.Draining ∧ s.dec.Consumes s.dec.leastRead t.dec) := by
  obtain ⟨t, ht, htinv⟩ := runDecoder_sound h.inv
  obtain ⟨hheld, hprogress⟩ := runDecoder_progress h.inv hb h.ended ht
  obtain ⟨r, hframe⟩ := runDecoder_frame ht
  refine ⟨t, (step_decoder h.agenda hb h.held).trans ht, hprogress.imp_right fun hgo => ⟨⟨htinv, ?_, ?_, ?_⟩, hgo⟩⟩
  · rw [hframe]
    exact h.agenda
  · rw [hheld, h.held]
  · rw [hgo.ended, h.ended]

/-- R151: behind the header, nine bits pay for a step, and the last step may find fewer. -/
theorem State.Draining.ends (N : Nat) : ∀ {s : State}, s.Draining → s.dec.phase = .first ∨ s.dec.phase = .run →
    s.dec.inp.bits.length = N → ∃ k t, k ≤ N / 9 + 1 ∧ runSteps k s = .next t ∧ t.dec.hasEnded := by
  induction N using Nat.strong_induction_on with
  | _ N ih =>
    intro s h hph hN
    obtain ⟨t, hstep, hended | ⟨hdrain, hgo⟩⟩ := h.step (s.dec.busy_iff.mpr (.inr hph))
    · exact ⟨1, t, by omega, (runSteps_succ hstep 0).trans (runSteps_zero t), hended⟩
    · have hbits := hgo.bits
      rw [Decoder.leastRead_of_codeword hph, hN] at hbits
      obtain ⟨k, u, hk, hrun, hended⟩ := ih _ (by omega) hdrain hgo.phase rfl
      exact ⟨k + 1, u, by omega, (runSteps_succ hstep k).trans hrun, hended⟩

/-- Settles O59: each step consumes its word or ends the stream, and so the run from the header ends, by induction on the number
of unread bits. -/
theorem decoderTerminates : Obligations.DecoderTerminates := by
  unfold Obligations.DecoderTerminates
  refine ⟨fun s t h hb hend ht => ?progress, fun s h ha hh hph hend => ?bound⟩
  case progress =>
    obtain ⟨-, (hdone | herror) | hgo⟩ := runDecoder_progress h hb hend ht
    · exact .inl hdone
    · exact .inr (.inl herror)
    · exact .inr (.inr ⟨t.dec.busy_iff.mpr (.inr hgo.phase), hgo.ended.trans hend, hgo.bits⟩)
  case bound =>
    obtain ⟨t, hstep, hended | ⟨hdrain, hgo⟩⟩ := State.Draining.step ⟨h, ha, hh, hend⟩ (s.dec.busy_iff.mpr (.inl hph))
    · exact ⟨1, t, by omega, (runSteps_succ hstep 0).trans (runSteps_zero t), hended⟩
    · obtain ⟨k, u, hk, hrun, hended⟩ := hdrain.ends _ hgo.phase rfl
      have hbits := hgo.bits
      exact ⟨k + 1, u, by omega, (runSteps_succ hstep k).trans hrun, hended⟩

end Sys2Proof.Machine
end

section

/-!
## Expand after compress (R152)

The encoder's run writes the stream of its input, zero bits filling the last byte; the packed bytes are exactly those bits; and
the decoder, started on them, emits what the encoder was given.
-/

namespace Sys2Proof.Machine

variable {p : Params} {s u : State}

/-- R56, R128: the encoder has closed its output, and padded it to whole bytes. -/
theorem Encoder.Inv.closed_of_done {e : Encoder} (h : e.Inv p) (hph : e.phase = .done) :
    e.out.closed = true ∧ e.out.bits.length % 8 = 0 := by
  obtain ⟨hclosed, hlen⟩ := h.done hph
  exact ⟨hclosed, by rw [hlen, add_padLength]⟩

/-- R52: bytes packed from whole groups of eight bits hold those bits and no padding. -/
theorem unpackBytes_packBytes_of_whole (o : BitOrder) {bits : Bits} (h : bits.length % 8 = 0) :
    unpackBytes o (packBytes o bits) = bits := by
  simp [unpackBytes_packBytes, h]

/-- The machine whose decoder has been started on the bits of a complete stream. -/
def State.presented (bits : Bits) (s : State) : State :=
  State.tookDec { s with agenda := [] } { s.dec.start with inp := { bits := bits, ended := true } }

theorem State.Inv.presented (h : s.Inv) (bits : Bits) : (s.presented bits).Inv :=
  (h.withAgenda (l := []) (by simp)).tookDec (s.dec.start_inv.withInputs _ _ _)

/-- The machine whose decoder has this input lined up for its next stream. -/
def State.linedUp (bits : Bits) (ended : Bool) (s : State) : State :=
  { s with dec := { s.dec with nextInp := { bits := bits, ended := ended } } }

/-- R133, R164: the bytes are delivered, the producer closes, and DEC_START opens the stream. -/
theorem runSteps_expandInputs (hb : s.dec.busy = false) (hh : s.dec.held = false) (hnext : s.dec.nextInp = .fresh) (bytes : Str) :
    runSteps 3 { s with agenda := expandInputs bytes } = .next (s.presented (unpackBytes s.params.bitOrder bytes)) := by
  have deliver : step { s with agenda := expandInputs bytes } =
      .next { s.linedUp (unpackBytes s.params.bitOrder bytes) false with agenda := [.finish .next, .request .decStart []] } := by
    rw [step_event rfl rfl]
    simp [State.linedUp, takeEvent, takeDelivery, Decoder.slot, Decoder.withSlot, hnext, BitIn.deliver, BitIn.fresh]
  have finish (bits : Bits) : step { s.linedUp bits false with agenda := [.finish .next, .request .decStart []] } =
      .next { s.linedUp bits true with agenda := [.request .decStart []] } := by
    rw [step_event rfl rfl]
    rfl
  have start (bits : Bits) : step { s.linedUp bits true with agenda := [.request .decStart []] } = .next (s.presented bits) :=
    (step_event (s := { s.linedUp bits true with agenda := [.request .decStart []] }) rfl
      (State.isBlocked_of_answered hh)).trans (runRequest_decStart (s := { s.linedUp bits true with agenda := [] }) hb)
  rw [runSteps_succ deliver, runSteps_succ (finish _), runSteps_succ (start _), runSteps_zero]

/-- Settles O60: the laws of the encoder's and of the decoder's run, joined by the packing of the bits in bytes. -/
theorem roundTrip : Obligations.RoundTrip := by
  unfold Obligations.RoundTrip
  intro s u r f S hs hu hparams hcap hph hheld hagenda hbusy hanswers hfresh
  obtain ⟨t, hrun, ht, htph, -, k, hbits⟩ := compress_stream hs hph hheld hagenda
  obtain ⟨hclosed, hwhole⟩ := ht.enc.closed_of_done htph
  refine ⟨t, hrun, htph, hclosed, hwhole, ?_⟩
  have hunpack : unpackBytes u.params.bitOrder (packBytes s.params.bitOrder t.enc.out.bits) = t.enc.out.bits := by
    rw [hparams, unpackBytes_packBytes_of_whole _ hwhole]
  have hstart := runSteps_expandInputs hbusy hanswers hfresh (packBytes s.params.bitOrder t.enc.out.bits)
  rw [hunpack] at hstart
  have hstream : (u.presented t.enc.out.bits).dec.inp.bits =
      r :: f :: streamOf u.params.bitOrder (Sync.init u.params r f) S ++ List.replicate k false := by
    rw [hparams]
    exact hbits
  rw [← hparams] at hcap
  obtain ⟨j, v, hexpand, hended⟩ := expand_stream (hu.presented _) hcap rfl hanswers rfl rfl rfl hstream
  exact ⟨3 + j, v, (runSteps_add hstart j).trans hexpand, hended⟩

end Sys2Proof.Machine
end

section

/-!
## Taking an exception, and ERROR (R154 to R157)

A step of the decoder that raises an exception is the trap of the decoder at its read: `val` emitted and PRE run where the step
began, and nothing else but the read. In ERROR there is no step, and so only DEC_START writes what the trap left.
-/

namespace Sys2Proof.Machine

variable {s t : State} {d : Decoder} {br : Branch} {v : Nat}

/-! ### The decoder at its read (R134, R135, R139) -/

/-- R139: the decoder's step is a `RUN` step that has not begun. -/
def Decoder.startsStep (d : Decoder) : Bool := d.phase = .run && d.midStep = none

/-- What comes before the read emits `val` and runs PRE, or does nothing. -/
theorem Decoder.atRead_of_startsStep (hstarts : d.startsStep = true) :
    d.atRead = { d with
      out := { d.out with bytes := d.out.bytes ++ d.val.value }
      sync := .put (d.sync.values.pre d.sync.values.branch), midStep := some d.sync.values.branch } := by
  obtain ⟨hph, hm⟩ : d.phase = .run ∧ d.midStep = none := by simpa [Decoder.startsStep] using hstarts
  rw [Decoder.atRead_of_run hph, Decoder.begun_of_fresh hm]

theorem Decoder.atRead_of_not_startsStep (hstarts : d.startsStep = false) : d.atRead = d := by
  unfold Decoder.atRead Decoder.begun
  split
  next hph =>
    cases hm : d.midStep with
    | some br => rfl
    | none => simp [Decoder.startsStep, hph, hm] at hstarts
  next => rfl

@[simp] theorem Decoder.atRead_val (d : Decoder) : d.atRead.val = d.val := by
  unfold Decoder.atRead
  split <;> simp

theorem Decoder.atRead_values (d : Decoder) : d.atRead.sync.values =
    if d.startsStep then d.sync.values.pre d.sync.values.branch else d.sync.values := by
  cases hstarts : d.startsStep
  · simp [Decoder.atRead_of_not_startsStep hstarts]
  · simp [Decoder.atRead_of_startsStep hstarts]

theorem Decoder.atRead_out (d : Decoder) : d.atRead.out =
    { d.out with bytes := d.out.bytes ++ if d.startsStep then d.val.value else [] } := by
  cases hstarts : d.startsStep
  · simp [Decoder.atRead_of_not_startsStep hstarts]
  · simp [Decoder.atRead_of_startsStep hstarts]

/-- The machine at the read of the decoder's step. -/
def State.atRead (s : State) : State := { s with dec := s.dec.atRead }

/-- The number of bits that the decoder's step reads. -/
def Decoder.readWidth (d : Decoder) : Nat := if d.phase = .hdr then headerBits else d.atRead.sync.values.fsm.w

theorem Decoder.readWidth_of_hdr (hph : d.phase = .hdr) : d.readWidth = headerBits := if_pos hph

theorem Decoder.readWidth_of_first (hph : d.phase = .first) : d.readWidth = d.sync.values.fsm.w := by
  rw [Decoder.readWidth, if_neg (by simp [hph]), Decoder.atRead_of_first hph]

theorem Decoder.readWidth_of_run (hph : d.phase = .run) : d.readWidth = d.begun.sync.values.fsm.w := by
  rw [Decoder.readWidth, if_neg (by simp [hph]), Decoder.atRead_of_run hph]

/-- R154: what a short read of the phase raises. -/
def Decoder.truncation (d : Decoder) : DecErr := if d.phase = .hdr then .truncHeader else .truncCodeword

/-- R134, R135, R139: the step of a busy decoder is one read, whose width and whose exception are those of the phase. -/
theorem decoderFetch_of_busy (h : s.Inv) (hb : s.dec.busy = true) :
    ∃ c, decoderFetch s = readToken s.dec.readWidth c s.dec.truncation s.atRead := by
  unfold decoderFetch State.atRead
  rcases s.dec.busy_iff.mp hb with hph | hph | hph
  · have hat : s.dec.atRead = s.dec := if_neg (by simp [hph])
    rw [Decoder.readWidth_of_hdr hph, hat]
    simp only [hph, Decoder.truncation, if_true]
    exact ⟨_, rfl⟩
  · rw [Decoder.readWidth_of_first hph, Decoder.atRead_of_first hph]
    simp only [hph, Decoder.truncation, reduceCtorEq, if_false]
    exact ⟨_, rfl⟩
  · obtain ⟨-, hopen, -⟩ := h.dec.busy hb
    rw [Decoder.readWidth_of_run hph, Decoder.atRead_of_run hph]
    simp only [hph, Decoder.truncation, reduceCtorEq, if_false, Decoder.begin_eq hopen, andThen_next]
    exact ⟨_, rfl⟩

/-- R60, R154: a short read is the trap. -/
theorem runDecoder_of_readsShort (h : s.Inv) (hb : s.dec.busy = true) (hshort : s.readsShort s.dec.readWidth) :
    runDecoder s = .next (s.atRead.afterShort s.dec.truncation) := by
  obtain ⟨hl, hend⟩ : s.atRead.readsShort s.dec.readWidth := by simpa [State.readsShort, State.atRead] using hshort
  obtain ⟨c, hfetch⟩ := decoderFetch_of_busy h hb
  rw [runDecoder, hfetch, readToken_short hl hend, andThen_next]

/-- R72: a read that does not answer leaves the step at its read. -/
theorem runDecoder_of_readsBlock (h : s.Inv) (hb : s.dec.busy = true) (hblock : s.readsBlock s.dec.readWidth) :
    runDecoder s = .next s.atRead := by
  obtain ⟨hl, hend, hu⟩ : s.atRead.readsBlock s.dec.readWidth := by simpa [State.readsBlock, State.atRead] using hblock
  obtain ⟨c, hfetch⟩ := decoderFetch_of_busy h hb
  rw [runDecoder, hfetch, readToken_blocked hl hend hu, andThen_next]

/-! ### The steps that raise an exception (R154, R155, R156) -/

/-- R154: a codeword that has been read raises BAD_CODE or CAPACITY. -/
def Decoder.FailsTo (d d' : Decoder) : Prop := ∃ e, (e = .badCode ∨ e = .capacity) ∧ d' = d.trap e

/-- R145: DEC_TAIL raises CAPACITY or leaves `err`. -/
theorem Decoder.tailOf_err (herr : d.err = .none) (cap : Option Nat) (br : Branch) (str : Str) :
    (d.tailOf cap br str).err = .none ∨ d.FailsTo (d.tailOf cap br str) := by
  unfold Decoder.tailOf
  split
  · exact .inr ⟨.capacity, .inr rfl, rfl⟩
  · exact .inl herr

theorem exec_classFirst_err (h : s.Inv) (hph : s.dec.phase = .first) (ht : exec (classFirst v) s = .next t) :
    t.dec.err = .none ∨ s.dec.FailsTo t.dec := by
  obtain ⟨herr, -, -⟩ := h.dec.busy (s.dec.busy_iff.mpr (.inr (.inl hph)))
  obtain ⟨d, hd, hcases⟩ := exec_classFirst_cases h hph v
  cases ht.symm.trans hd
  rcases hcases with ⟨str, rfl⟩ | rfl | rfl
  · exact .inl herr
  · exact .inl herr
  · exact .inr ⟨.badCode, .inl rfl, rfl⟩

theorem exec_classRun_err (h : s.Inv) (hm : s.dec.midStep = some br) (hv : v < 2 ^ s.dec.sync.values.fsm.w)
    (ht : exec (classRun s.dec.sync.values.n v) s = .next t) : t.dec.err = .none ∨ s.dec.FailsTo t.dec := by
  obtain ⟨hph, -⟩ := h.dec.step br hm
  obtain ⟨herr, -, -⟩ := h.dec.busy (s.dec.busy_iff.mpr (.inr (.inr hph)))
  obtain ⟨d, hd, hcases⟩ := exec_classRun_cases h hm hv
  cases ht.symm.trans hd
  rcases hcases with ⟨str, rfl⟩ | rfl | rfl
  · exact Decoder.tailOf_err herr _ _ str
  · exact .inl herr
  · exact .inr ⟨.badCode, .inl rfl, rfl⟩

/-- R83: a codeword of `w` bits that has been read is below `2^w`. -/
theorem bitsValue_take_lt (o : BitOrder) {w : Nat} {bits : Bits} (hl : w ≤ bits.length) : bitsValue o (bits.take w) < 2 ^ w := by
  have hlt := bitsValue_lt o (bits.take w)
  rwa [List.length_take_of_le hl] at hlt

/-- R134, R136 to R146: a step whose read answers raises nothing but BAD_CODE or CAPACITY, after the read. -/
theorem runDecoder_err_of_read (h : s.Inv) (hb : s.dec.busy = true) (hl : s.dec.readWidth ≤ s.dec.inp.bits.length)
    (ht : runDecoder s = .next t) :
    t.dec.err = .none ∨ (s.atRead.afterRead s.dec.readWidth).dec.FailsTo t.dec := by
  obtain ⟨herr, -, -⟩ := h.dec.busy hb
  unfold State.atRead
  rcases s.dec.busy_iff.mp hb with hph | hph | hph
  · rw [Decoder.readWidth_of_hdr hph] at hl
    cases ht.symm.trans (runDecoder_hdr hph hl)
    exact .inl herr
  · rw [Decoder.readWidth_of_first hph] at hl ⊢
    rw [Decoder.atRead_of_first hph]
    rw [runDecoder_first hph hl] at ht
    exact exec_classFirst_err (h.afterRead _) hph ht
  · rw [Decoder.readWidth_of_run hph] at hl ⊢
    rw [Decoder.atRead_of_run hph]
    rw [runDecoder_run h hph hl] at ht
    obtain ⟨br, hm⟩ := s.dec.begun_midStep
    exact exec_classRun_err ((h.begun hph).afterRead s.dec.begun.sync.values.fsm.w) hm (bitsValue_take_lt _ hl) ht

/-- R155: a step that raises an exception is the trap of the decoder at its read, moved along its input by the read alone. -/
theorem runDecoder_trap (h : s.Inv) (hb : s.dec.busy = true) (ht : runDecoder s = .next t) (herr : t.dec.err ≠ .none) :
    ∃ inp pos e, t.dec = Decoder.trap e { s.dec.atRead with inp := inp, pos := pos } ∧
      (s.readsShort s.dec.readWidth → pos = s.dec.pos ∧ e = s.dec.truncation) ∧
      (¬ s.readsShort s.dec.readWidth → pos = .write (s.dec.pos.value + s.dec.readWidth) ∧ (e = .badCode ∨ e = .capacity)) := by
  rcases s.dec.inp.read_cases s.params.underrun s.dec.readWidth with ⟨hl, -⟩ | ⟨hl, hend, -⟩ | ⟨hl, hend, hu, -⟩
  · obtain hnone | ⟨e, he, htrap⟩ := runDecoder_err_of_read h hb hl ht
    · exact absurd hnone herr
    · refine ⟨_, _, e, htrap, fun hshort => absurd hshort.1 (Nat.not_lt.mpr hl), fun _ => ⟨?_, he⟩⟩
      simp [State.atRead]
  · cases ht.symm.trans (runDecoder_of_readsShort h hb ⟨hl, hend⟩)
    exact ⟨_, s.dec.atRead.pos, _, rfl, fun _ => ⟨s.dec.atRead_pos, rfl⟩, fun hread => absurd ⟨hl, hend⟩ hread⟩
  · cases ht.symm.trans (runDecoder_of_readsBlock h hb ⟨hl, hend, hu⟩)
    obtain ⟨hnone, -, -⟩ := h.dec.busy hb
    exact absurd (s.dec.atRead_err.trans hnone) herr

/-- Settles O55: the step is the trap of the decoder at its read, whose sync and output are known. -/
theorem trapEntry : Obligations.TrapEntry := by
  unfold Obligations.TrapEntry
  intro s t h hb ht herr starts y w
  obtain ⟨-, hopen, -⟩ := h.dec.busy hb
  have hsync : s.dec.atRead.sync.values = y := s.dec.atRead_values
  have hw : s.dec.readWidth = w := by rw [Decoder.readWidth, hsync]; rfl
  obtain ⟨r, hframe⟩ := runDecoder_frame ht
  obtain ⟨inp, pos, e, htrap, hshort, hread⟩ := runDecoder_trap h hb ht herr
  rw [hw] at hshort hread
  rw [htrap]
  refine ⟨rfl, rfl, s.dec.atRead_val, hsync, ?enc, ?out, hshort, hread⟩
  case enc => rw [hframe]
  case out =>
    rw [Decoder.trap, s.dec.atRead_out]
    rfl

/-! ### ERROR is terminal (R157) -/

/-- What the trap wrote and kept is as it was. -/
structure Decoder.Keeps (d d' : Decoder) : Prop where
  phase : d'.phase = d.phase
  err : d'.err = d.err
  out : d'.out = d.out
  sync : d'.sync = d.sync
  val : d'.val = d.val
  pos : d'.pos = d.pos

theorem Decoder.Keeps.refl (d : Decoder) : d.Keeps d := ⟨rfl, rfl, rfl, rfl, rfl, rfl⟩

theorem Decoder.withSlot_keeps (a : Slot) (i : BitIn) (d : Decoder) : d.Keeps (d.withSlot a i) := by
  constructor <;> simp

/-- R80: DEC_START is the only word that a host has for the decoder. -/
theorem Port.eq_decStart_of_host {p : Port} (hhost : p.isHost = true) (ha : p.agent = .decoder) : p = .decStart := by
  cases p <;> simp [Port.isHost, Port.agent] at hhost ha ⊢

/-- R149, R157: without a step to do, an input from outside leaves the decoder, or is a DEC_START. -/
theorem takeEvent_of_error (hph : s.dec.phase = .error) {ev : Event} (he : ev.external = true) (ht : takeEvent ev s = .next t) :
    s.dec.Keeps t.dec ∨ ev = .request .decStart [] ∧ t.dec = s.dec.start := by
  cases ha : ev.agent with
  | encoder =>
    obtain ⟨r, x, c, hframe⟩ := takeEvent_encoder_frame ha ht
    rw [hframe]
    exact .inl (.refl _)
  | decoder =>
    cases ev with
    | request p bits =>
      obtain ⟨hhost, hlen⟩ : p.isHost = true ∧ bits.length = p.width := by simpa [Event.external] using he
      obtain rfl := Port.eq_decStart_of_host hhost ha
      obtain rfl := List.eq_nil_of_length_eq_zero hlen
      cases ht.symm.trans (runRequest_decStart (by simp [Decoder.busy, hph]))
      exact .inr ⟨rfl, rfl⟩
    | decStep =>
      cases ht.symm.trans (runDecoder_of_no_step (.inr (.inr hph)))
      exact .inl (.refl _)
    | deliver a bytes =>
      cases ht
      unfold takeDelivery
      split
      · exact .inl (.refl _)
      · exact .inl (s.dec.withSlot_keeps a _)
    | finish a =>
      cases ht
      exact .inl (s.dec.withSlot_keeps a _)
    | hold a on =>
      cases ht
      cases a
      · exact .inl (.refl _)
      · exact .inl ⟨rfl, rfl, rfl, rfl, rfl, rfl⟩

/-- Settles O56: a step takes an input, which leaves the decoder unless it is DEC_START; without one the decoder has no step. -/
theorem errorIsTerminal : Obligations.ErrorIsTerminal := by
  unfold Obligations.ErrorIsTerminal
  intro s t h hph ht
  have kept (hk : s.dec.Keeps t.dec) : t.dec.phase = .error ∧ t.dec.err = s.dec.err ∧ t.dec.out = s.dec.out ∧
      t.dec.sync = s.dec.sync ∧ t.dec.val = s.dec.val ∧ t.dec.pos = s.dec.pos :=
    ⟨hk.phase.trans hph, hk.err, hk.out, hk.sync, hk.val, hk.pos⟩
  rcases step_cases s with ⟨ev, rest, hnext, hstep⟩ | ⟨-, hb, -, -⟩ | ⟨-, -, hstep⟩
  · obtain ⟨hmem, -, -⟩ := nextEvent_some hnext
    rw [hstep] at ht
    obtain hk | ⟨rfl, hstart⟩ := takeEvent_of_error (s := { s with agenda := rest }) hph (h.agenda ev hmem) ht
    · exact .inl (kept hk)
    · rw [hstart]
      exact .inr ⟨rfl, rfl, rest, hnext⟩
  · simp [Decoder.busy, hph] at hb
  · cases ht.symm.trans hstep
    exact .inl (kept (.refl _))

end Sys2Proof.Machine
end

section

/-!
## Power-on (R172)

With no stream open, the two STARTs run and the rows of a byte and of an end of input are refused; at power-on no stream is
open, and no register but the phases and the error has been written.
-/

namespace Sys2Proof.Machine

variable {s : State}

/-! ### The transactions while no stream is open (R120, R130, R133) -/

theorem exec_encStart_of_closed (hph : s.enc.phase = .idle ∨ s.enc.phase = .done) (r f : Bool) :
    exec (.encStart r f) s = .next { s with enc := s.enc.started s.params r f } := by
  rcases hph with hph | hph <;> simp only [exec, execEncStart, hph, Encoder.start_eq, onEncoder_next]

theorem exec_decStart_of_closed (hph : s.dec.phase = .idle ∨ s.dec.phase = .done ∨ s.dec.phase = .error) :
    exec .decStart s = .next { s with dec := s.dec.start } := by
  rcases hph with hph | hph | hph <;> simp only [exec, execDecStart, hph]

/-- R130: with no stream open, the row of a byte is refused in each of its three classes. -/
theorem exec_encByte_refused (hph : s.enc.phase = .idle ∨ s.enc.phase = .done) (b : Byte) :
    exec (.encFirst b) s = .refused .transaction ∧ exec (.encExtend b) s = .refused .transaction ∧
      exec (.encEmit b) s = .refused .transaction := by
  have hclass : byteClass b s.enc = .refused .transaction := byteClass_of_closed hph
  refine ⟨?first, ?extend, ?emit⟩
  case first => rcases hph with hph | hph <;> simp only [exec, execEncFirst, hph]
  case extend => simp only [exec, execEncExtend, hclass, andThen_refused]
  case emit => simp only [exec, execEncEmit, hclass, andThen_refused]

/-- R130: with no stream open, the row of an end of input is refused in both of its classes. -/
theorem exec_encEnd_refused (hph : s.enc.phase = .idle ∨ s.enc.phase = .done) :
    exec .encEndRun s = .refused .transaction ∧ exec .encEndEmpty s = .refused .transaction := by
  constructor
  · rcases hph with hph | hph <;> simp only [exec, execEncEndRun, hph]
  · rcases hph with hph | hph <;> simp only [exec, execEncEndEmpty, hph]

/-! ### The registers at power-on (R45) -/

theorem Reg.powerOn_written {α : Type} (v : α) : (Reg.powerOn v).written = false := rfl

/-- Fsm, sync and dictionary of each agent are as power-on leaves them. -/
theorem State.reset_syncOf (a : Agent) : State.reset.syncOf a = .powerOn := by
  cases a <;> rfl

theorem SyncRegs.powerOn_unwritten :
    SyncRegs.powerOn.fsm.written = false ∧ SyncRegs.powerOn.n.written = false ∧ SyncRegs.powerOn.table.written = false :=
  ⟨Reg.powerOn_written _, Reg.powerOn_written _, Reg.powerOn_written _⟩

/-- Settles O1: both phases are IDLE, so no stream is open and only the STARTs run; every other
register is as power-on leaves it. -/
theorem powerOnState : Obligations.PowerOnState := by
  unfold Obligations.PowerOnState
  have henc : State.reset.enc.phase = .idle := rfl
  have hdec : State.reset.dec.phase = .idle := rfl
  have hsync (a : Agent) : (State.reset.syncOf a).fsm.written = false ∧ (State.reset.syncOf a).n.written = false ∧
      (State.reset.syncOf a).table.written = false := by
    rw [State.reset_syncOf]
    exact SyncRegs.powerOn_unwritten
  refine ⟨henc, hdec, rfl, hsync, Reg.powerOn_written _, Reg.powerOn_written _, Reg.powerOn_written _, Reg.powerOn_written _,
    by simp [Encoder.busy, henc], by simp [Decoder.busy, hdec], ?encStart, ?decStart, exec_encByte_refused (.inl henc),
    exec_encEnd_refused (.inl henc)⟩
  case encStart => exact fun r f => ⟨_, exec_encStart_of_closed (.inl henc) r f⟩
  case decStart => exact ⟨_, exec_decStart_of_closed (.inl hdec)⟩

end Sys2Proof.Machine
end

section

/-!
## A sound machine goes on (R28, R32, R34, R36, R61)

Power-on is sound, and each of the three things that a step can be answers a sound state from a sound one.
-/

namespace Sys2Proof.Machine

variable {p : Params} {s : State}

/-! ### Power-on (R172) -/

/-- R33, R172: with no stream started, nothing is claimed of the encoder. -/
theorem Encoder.powerOn_inv : Encoder.powerOn.Inv p where
  started := fun hidle => absurd rfl hidle
  opened := fun hbusy => by cases hbusy
  empty := fun hempty => by cases hempty
  run := fun hrun => by cases hrun
  done := fun hdone => by cases hdone

/-- R35, R172: with no stream started, `err` is NONE and nothing else is claimed of the decoder. -/
theorem Decoder.powerOn_inv : Decoder.powerOn.Inv p where
  busy := fun hbusy => by cases hbusy
  started := fun hstarted => by rcases hstarted with h | h <;> cases h
  first := fun hfirst => by cases hfirst
  run := fun hrun => by cases hrun
  step := fun br hbr => by cases hbr
  idle := fun _ => rfl
  done := fun hdone => by cases hdone
  error := fun herror => by cases herror

/-- R8: the normative parameters are legal. -/
theorem Params.normative_legal : Params.normative.legal := by decide

/-- Settles O2: both instances are idle, and no input is lined up. -/
theorem powerOnMeetsInvariant : Obligations.PowerOnMeetsInvariant := by
  unfold Obligations.PowerOnMeetsInvariant
  exact ⟨Params.normative_legal, List.forall_mem_nil _, Encoder.powerOn_inv, Decoder.powerOn_inv⟩

/-! ### The step -/

/-- A step from a sound state answers a sound state, be it an input from outside, the decoder by itself, or nothing. -/
theorem step_sound (h : s.Inv) : ∃ t, step s = .next t ∧ t.Inv := by
  rcases step_cases s with ⟨ev, rest, hnext, hstep⟩ | ⟨-, -, -, hstep⟩ | ⟨-, -, hstep⟩ <;> rw [hstep]
  · obtain ⟨hmem, -, hrest⟩ := nextEvent_some hnext
    exact takeEvent_sound (h.withAgenda hrest) (h.agenda ev hmem)
  · exact runDecoder_sound h
  · exact ⟨s, rfl, h⟩

/-- Settles O4: the step of a sound state is always there. -/
theorem stepNeverStops : Obligations.StepNeverStops := by
  unfold Obligations.StepNeverStops
  intro s h
  obtain ⟨t, ht, -⟩ := step_sound h
  exact ⟨t, ht⟩

/-- Settles O3: the state that the step of a sound state answers is the sound one. -/
theorem stepKeepsInvariant : Obligations.StepKeepsInvariant := by
  unfold Obligations.StepKeepsInvariant
  intro s t h ht
  obtain ⟨u, hu, hinv⟩ := step_sound h
  cases ht.symm.trans hu
  exact hinv

end Sys2Proof.Machine
end

section

/-!
## Decode and encode (R75 to R92)

Every instruction's word decodes to it in every context that can hold it, and a word takes nothing from the bits behind it.
Back from a word: the instruction of each context carries all that the word's bits say.
-/

namespace Sys2Proof.Laws.Encoding

variable {o : BitOrder} {c : Ctx} {word rest : Bits} {i : Instr}

/-! ### Decode after encode -/

/-- Every instruction is read back from its own word. -/
theorem decode_encode_whole (i : Instr) : Statement i := by
  cases i with
  | hdr r f => exact hdr r f
  | firstLit v => exact firstLit v
  | firstSent => exact firstSent
  | firstBad v => exact firstBad v
  | sent => exact sent
  | lit v => exact lit v
  | ref v => exact ref v
  | selfRef => exact selfRef
  | bad v => exact bad v
  | sentAt9 => exact sentAt9
  | sentAt10 => exact sentAt10
  | sentAt11 => exact sentAt11
  | sentAt12 => exact sentAt12
  | sentAt13 => exact sentAt13
  | sentAt14 => exact sentAt14
  | sentAt15 => exact sentAt15
  | sentAt16 => exact sentAt16
  | pad k => exact pad k
  | encStart r f => exact encStart r f
  | encFirst b => exact encFirst b
  | encExtend b => exact encExtend b
  | encEmit b => exact encEmit b
  | encEndRun => exact encEndRun
  | encEndEmpty => exact encEndEmpty
  | decStart => exact decStart
  | brInsert a => exact brInsert a
  | brGrow a => exact brGrow a
  | brReset a => exact brReset a
  | brFull a => exact brFull a
  | opLookup k => exact opLookup k
  | opInsert a str code => exact opInsert a str code
  | opReinit a => exact opReinit a
  | opReserved a => exact opReserved a

/-- The decoder looks at the bits of the word and leaves what follows them. -/
theorem decode_append (hlen : word.length = c.width) (rest : Bits) :
    decode o c (word ++ rest) = (decodeWord o c word).map fun i => (i, rest) := by
  rw [decode, if_neg (by simp [hlen]), ← hlen, List.take_left, List.drop_left]
  cases decodeWord o c word <;> rfl

/-- A word that decodes and leaves nothing is exactly as long as its context says. -/
theorem length_of_decode_whole (h : decode o c word = .ok (i, [])) : word.length = c.width := by
  unfold decode at h
  split at h
  · cases h
  · next hlong =>
    split at h
    · rw [Except.ok.injEq, Prod.mk.injEq, List.drop_eq_nil_iff] at h
      exact Nat.le_antisymm h.2 (Nat.not_lt.mp hlong)
    · cases h

/-- A word that decodes as a whole decodes the same in front of other bits. -/
theorem decode_append_of_whole (h : decode o c word = .ok (i, [])) (rest : Bits) :
    decode o c (word ++ rest) = .ok (i, rest) := by
  have hlen := length_of_decode_whole h
  have hword : decodeWord o c word = .ok i := by
    rw [← List.append_nil word, decode_append hlen] at h
    cases hd : decodeWord o c word <;> rw [hd] at h <;> cases h
    rfl
  rw [decode_append hlen, hword]
  rfl

/-- Settles O14: each instruction is read back from its word, and the bits behind the word are not looked at. -/
theorem decodeEncode : Obligations.DecodeEncode := by
  unfold Obligations.DecodeEncode
  exact fun o c i rest hfits => decode_append_of_whole (decode_encode_whole i o c hfits) rest

/-! ### Encode after decode -/

/-- R85: the word of a first codeword's class is that codeword. -/
theorem encode_classFirst (o : BitOrder) (w v : Nat) : encode o (.first w) (classFirst v) = valueBits o v w := by
  rcases classFirst_cases v with ⟨-, hclass⟩ | ⟨rfl, hclass⟩ | ⟨-, hclass⟩ <;> rw [hclass] <;> rfl

/-- R86: the word of a later codeword's class is that codeword; SELF carries `n`. -/
theorem encode_classRun (o : BitOrder) (w n v : Nat) : encode o (.run w n) (classRun n v) = valueBits o v w := by
  unfold classRun
  split
  · next hv => rw [hv]; rfl
  split
  · rfl
  split
  · rfl
  split
  · next hv => rw [hv]; rfl
  · rfl

/-- R78: the word of a sentinel row is the sentinel at its width. -/
theorem encode_sentinelRow {w : Nat} (h : sentinelRow w = some i) :
    encode o (.sentinel w) i = valueBits o sentinelCode w := by
  unfold sentinelRow at h
  split at h <;> cases h <;> rfl

/-- R88: a byte's word is its eight bits. -/
theorem bitsMsb_byteOfBits (h : word.length = 8) : bitsMsb (byteOfBits .msbFirst word).toNat 8 = word :=
  byteBits_byteOfBits .msbFirst h

/-- A word of two bits, as the list of them. -/
theorem eq_pair_of_length (h : word.length = 2) : word = [word.getD 0 false, word.getD 1 false] := by
  match word, h with
  | [_, _], _ => rfl

/-- R81: a growth-branch code is that of its row. -/
theorem encode_branchRow (a : Agent) (hi lo : Bool) : encode o c (branchRow a hi lo) = [hi, lo] := by
  cases hi <;> cases lo <;> rfl

/-- R82: a CodeTable operation code is that of its row. -/
theorem encode_tableOpRow (a : Agent) (str : Str) (code : Nat) (hi lo : Bool) :
    encode o c (tableOpRow a str code hi lo) = [hi, lo] := by
  cases hi <;> cases lo <;> rfl

/-- A word of its context's width is the word of the instruction it is, unless it is padding. -/
theorem encode_of_decodeWord (hlen : word.length = c.width) (hpad : ∀ k, c ≠ .padding k)
    (h : decodeWord o c word = .ok i) : encode o c i = word := by
  cases c with
  | header => cases h; exact (eq_pair_of_length hlen).symm
  | first w =>
    cases h
    rw [encode_classFirst, ← show word.length = w from hlen, valueBits_bitsValue]
  | run w n =>
    cases h
    rw [encode_classRun, ← show word.length = w from hlen, valueBits_bitsValue]
  | sentinel w =>
    rw [decodeWord] at h
    split at h
    · next hrow =>
      cases h
      split at hrow
      · next hv => rw [encode_sentinelRow hrow, ← show word.length = w from hlen, ← hv, valueBits_bitsValue]
      · cases hrow
    · cases h
  | padding k => exact absurd rfl (hpad k)
  | encStart => cases h; exact (eq_pair_of_length hlen).symm
  | encByte k => cases k <;> cases h <;> exact bitsMsb_byteOfBits hlen
  | encEnd k => cases k <;> cases h <;> exact (List.eq_nil_of_length_eq_zero hlen).symm
  | decStart => cases h; exact (List.eq_nil_of_length_eq_zero hlen).symm
  | br a =>
    cases h
    rw [encode_branchRow, ← eq_pair_of_length hlen]
  | op a str code =>
    cases h
    rw [encode_tableOpRow, ← eq_pair_of_length hlen]

/-- Settles O15: the decoder has read the word alone, and the instruction's word is that word. -/
theorem encodeDecode : Obligations.EncodeDecode := by
  unfold Obligations.EncodeDecode
  intro o c i word rest hlen hpad h
  have hword := Machine.decode_ok h
  rw [← hlen, List.take_left] at hword
  exact encode_of_decodeWord hlen hpad hword

/-! ### Words that the spec writes out -/

/-- Settles O18: a codeword that fits its width is the class that its value has. -/
theorem codewordClasses : Obligations.CodewordClasses := by
  unfold Obligations.CodewordClasses
  intro o w v hv
  refine ⟨fun hlit => first_whole hv (classFirst_lit hlit), fun hsent => first_whole hv (hsent ▸ classFirst_sent),
    fun hbad => first_whole hv (classFirst_bad hbad), fun n hn => ?run⟩
  case run =>
    exact ⟨fun hsent => run_whole hv (hsent ▸ classRun_sent n), fun hlit => run_whole hv (classRun_lit hlit),
      fun hlow hlt => run_whole hv (classRun_ref hlow hlt), fun hself => run_whole hv (by rw [hself, classRun_self hn]),
      fun hlt => run_whole hv (classRun_bad (hn.trans hlt.le) hlt)⟩

/-- A row that names a width is the sentinel row of that width. -/
theorem sentinelRow_of_sentinelWidth {w : Nat} (h : i.sentinelWidth = some w) : sentinelRow w = some i := by
  unfold Instr.sentinelWidth at h
  split at h <;> cases h <;> rfl

/-- R78: the sentinel fits nine bits and more. -/
theorem sentinelCode_lt (k : Nat) : sentinelCode < 2 ^ (9 + k) :=
  calc sentinelCode < 2 ^ 9 := by decide
    _ ≤ 2 ^ (9 + k) := Nat.pow_le_pow_right (by decide) (Nat.le_add_right 9 k)

/-- R78: the pattern of the sentinel. -/
theorem bitsMsb_sentinel (k : Nat) : bitsMsb sentinelCode (9 + k) =
    List.replicate k false ++ [true, false, false, false, false, false, false, false, false] := by
  induction k with
  | zero => decide
  | succ k ih =>
    have hbit : sentinelCode.testBit (9 + k) = false := Nat.testBit_lt_two_pow (sentinelCode_lt k)
    rw [← Nat.add_assoc, bitsMsb, ih, hbit, List.replicate_succ, List.cons_append]

/-- Settles O20: the word of a sentinel row is 256 at its width, whose bits are the pattern. -/
theorem sentinelPatterns : Obligations.SentinelPatterns := by
  unfold Obligations.SentinelPatterns
  refine ⟨bitsMsb_sentinel 0, fun k i hi => ?_⟩
  have hrow := sentinelRow_of_sentinelWidth hi
  rw [encode_sentinelRow hrow, ← bitsMsb_sentinel k]
  exact ⟨rfl, sentinel_whole (sentinelCode_lt k) hrow⟩

/-- Settles O21: each word, decoded. -/
theorem specWordsDecode : Obligations.SpecWordsDecode := by
  unfold Obligations.SpecWordsDecode
  exact ⟨by decide, by decide, by decide, by decide, by decide, by decide, by decide, fun a => decode_whole rfl rfl,
    fun a str code => decode_whole rfl rfl⟩

end Sys2Proof.Laws.Encoding
end

section

/-!
## The bounds of a sound sync (R10, R25 to R29, R87), and the growth event on both sides (R116)

The widths of a sound fsm are within the bounds of its mode, so its capacity and its counter are within the powers of two of
those; PRE keeps this. A counter at the capacity leaves no word for SELF or BAD, and a counter bounds the length of `cur`. At the end
the growth event is seen from both sides: the decoder's PRE and ADD are the encoder's.
-/

namespace Sys2Proof.Machine

variable {p : Params} {a : Agent} {y : Sync} {f : Fsm}

/-! ### FULL has no SELF and no BAD (R87) -/

/-- Settles O19: after PRE the counter is at most the capacity, which it reaches just with FULL, and a word is below it. -/
theorem fullHasNoSelfOrBad : Obligations.FullHasNoSelfOrBad := by
  unfold Obligations.FullHasNoSelfOrBad
  intro p a y hp h
  have hpre := Sync.pre_inv h hp
  have hroom := Sync.pre_room h hp
  refine ⟨fun hfull => ?full, fun hne => ?room⟩
  case full =>
    have hn := (hroom.mp hfull).trans hpre.fsm.cap
    refine ⟨hn, fun o word hlen => ⟨_, decode_run o hlen, ?_⟩⟩
    have hv := bitsValue_lt o word
    rw [hlen, ← hn] at hv
    rcases classRun_cases hpre.low (bitsValue o word) with ⟨-, sent⟩ | ⟨-, lit⟩ | ⟨-, ref⟩ | ⟨hself, -⟩ | ⟨hbad, -⟩
    · exact .inl sent
    · exact .inr (.inl ⟨_, lit⟩)
    · exact .inr (.inr ⟨_, ref⟩)
    · exact absurd hself hv.ne
    · exact absurd hbad hv.asymm
  case room =>
    rw [← hpre.fsm.cap]
    exact lt_of_le_of_ne hpre.high (mt hroom.mpr hne)

/-! ### The widths of the registers (R25 to R29, R105, R184) -/

/-- R9, R28: the bounds of either mode are below 32, and the width is between them. -/
theorem Fsm.Inv.widths_lt (h : f.Inv p) (hfits : p.fitsRegisters) : f.wMax < 2 ^ 5 ∧ f.wMin < 2 ^ 5 ∧ f.w < 2 ^ 5 := by
  obtain ⟨hdyn, hfix⟩ := hfits
  have hmin := h.min_le
  have hmax := h.le_max
  have hbound : f.wMax < 2 ^ 5 := by
    have hb := congrArg Prod.snd h.bounds
    unfold Params.bounds at hb
    split at hb <;> omega
  omega

/-- R27: the capacity is within a register of one bit more than the largest width. -/
theorem Fsm.Inv.l_lt (h : f.Inv p) : f.l < 2 ^ (max p.wMaxDyn p.wFixed + 1) := by
  have hmax := h.le_max
  have hb := congrArg Prod.snd h.bounds
  rw [h.cap]
  refine Nat.pow_lt_pow_right (by decide) ?_
  unfold Params.bounds at hb
  split at hb <;> omega

/-- Settles O26: the registers of a sound sync fit, PRE leaves a sound sync, and without FULL its counter is below the capacity. -/
theorem registersNeverOverflow : Obligations.RegistersNeverOverflow := by
  unfold Obligations.RegistersNeverOverflow
  intro p a y hp hfits h
  have hpre := Sync.pre_inv h hp
  obtain ⟨hmax, hmin, hw⟩ := h.fsm.widths_lt hfits
  obtain ⟨-, -, hw'⟩ := hpre.fsm.widths_lt hfits
  refine ⟨hmin, hmax, hw, h.fsm.l_lt, h.high.trans_lt h.fsm.l_lt, hw', hpre.fsm.l_lt, fun hne => ?_⟩
  have hroom := lt_of_le_of_ne hpre.high (mt (Sync.pre_room h hp).mpr hne)
  exact Nat.lt_of_le_of_lt hroom hpre.fsm.l_lt

/-! ### The length of `cur` (R10) -/

/-- Settles O46: the beginnings of `cur` are entries, so the counter bounds its length, and the code space bounds the counter. -/
theorem curLengthBound : Obligations.CurLengthBound := by
  unfold Obligations.CurLengthBound
  intro s h hph
  obtain ⟨-, hknown⟩ := h.enc.run hph
  have hsync := h.enc.sync_of_busy (s.enc.busy_iff.mpr (.inr hph))
  have hle := hknown.length_le hsync
  exact ⟨hle, hle.trans hsync.n_le⟩

/-! ### The decoder follows the encoder (R115, R116) -/

/-- R84, R86: a code that resolves by the table is below the counter. -/
theorem Sync.Inv.lt_of_resolves (h : y.Inv p a) {v : Nat} (hv : v ≤ 255 ∨ firstCode ≤ v ∧ v < y.n) : v < y.n := by
  obtain hbase | ⟨-, hlt⟩ := hv
  · exact hbase.trans_lt (Nat.lt_of_lt_of_le (by decide) h.low)
  · exact hlt

/-- Settles O32: the decoder's PRE and ADD are the parts of the encoder's growth event, and the code of `cur` after it names
`cur` before ADD, or is the entry to come. -/
theorem decoderFollowsEncoder : Obligations.DecoderFollowsEncoder := by
  unfold Obligations.DecoderFollowsEncoder
  intro p y t val cur c v hp h hval hnew hhead hgrow hcode
  obtain ⟨rest, rfl⟩ := List.head?_eq_some_iff.mp hhead
  have hpre := Sync.pre_inv h hp
  have hlen : 2 ≤ (val ++ [c]).length := two_le_length_entry hval (List.cons_ne_nil c [])
  obtain rfl : y.grown (val ++ [c]) = t := Host.Outcome.next.inj ((Sync.grow_eq h hp hlen hnew).symm.trans hgrow)
  have hgrown : (y.grown (val ++ [c])).Inv p .encoder := Sync.grown_inv h hp hlen fun _ => hnew
  obtain ⟨-, hne, hfits⟩ := lookupStr_lt hgrown hcode
  refine ⟨by rw [Sync.grown, Sync.added_fsm], hfits, hne, ?names, ?adds⟩
  case names =>
    obtain ⟨hv, hlookup⟩ | hself := Sync.grown_code h hp hval (List.cons_ne_nil c rest) hcode
    · exact .inl ⟨hpre.lt_of_resolves hv, hlookup⟩
    · exact .inr hself
  case adds => exact Sync.add_eq hpre.side hlen fun ha => nomatch ha

end Sys2Proof.Machine
end

section

/-!
## The CodeTable (R64 to R67)

`Insert` places an entry whose key is new and whose code is free; a lookup then answers the entry for its key and what it answered
before for every other. The rows of the CodeTable are these operations on the registers of one agent.
-/

namespace Sys2Proof.Machine

variable {p : Params} {a b : Agent} {y : Sync} {s t : State} {str : Str} {c : Nat} {r r' : SyncRegs}

/-! ### Lookups after an insert, and in the base dictionary -/

/-- R84: the base entry of a byte. -/
theorem lookupCode_byte (t : CodeTable) (b : Byte) : lookupCode t b.toNat = some [b] := by
  rw [lookupCode_base (Nat.le_of_lt_succ b.isLt), BitVec.ofNat_toNat, BitVec.setWidth_eq]

theorem insertEntry_encoder_lookupStr {t t' : CodeTable} (h : insertEntry .encoder str c t = .next t') (k : Str) :
    lookupStr t' k = if k = str then some c else lookupStr t k := by
  obtain ⟨⟨-, -, hnew, -⟩, rfl⟩ := insertEntry_eq_next.mp h
  exact lookupStr_placeEntry (hnew rfl) k

theorem insertEntry_lookupCode {t t' : CodeTable} (h : insertEntry a str c t = .next t') (k : Nat) :
    lookupCode t' k = if k = c then some str else lookupCode t k := by
  obtain ⟨⟨hc, hfree, -, -⟩, rfl⟩ := insertEntry_eq_next.mp h
  exact lookupCode_placeEntry hc hfree k

/-- Settles O33: the lookups after placing an entry, and those of the base dictionary. -/
theorem tableReads : Obligations.TableReads := by
  unfold Obligations.TableReads
  refine ⟨fun t t' str c => insertEntry_encoder_lookupStr, fun t t' str c => insertEntry_lookupCode,
    fun t b => ⟨lookupStr_single t b, lookupCode_byte t b⟩, fun str hlen => ?string, fun c hc => ?code⟩
  case string => rw [lookupStr_long hlen, baseTable, entryOf_nil]
  case code => rw [lookupCode_entry hc, baseTable, entryAt_nil]

/-! ### The canonical form -/

/-- The registers of an agent, after those of one have been written. -/
theorem State.syncOf_withSync_cases (s : State) (a b : Agent) (r : SyncRegs) :
    (s.withSync a r).syncOf b = r ∧ b = a ∨ (s.withSync a r).syncOf b = s.syncOf b := by
  cases a <;> cases b
  · exact .inl ⟨rfl, rfl⟩
  · exact .inr rfl
  · exact .inr rfl
  · exact .inl ⟨rfl, rfl⟩

/-- An operation on the registers of one agent keeps the form of both tables, if it keeps that of the agent's. -/
theorem onSync_keeps_wf {x : SyncRegs → Out SyncRegs}
    (hx : ∀ r r', x r = .next r' → CodeTable.wf r.table.value = true → CodeTable.wf r'.table.value = true)
    (ht : onSync x a s = .next t) (hwf : CodeTable.wf (s.syncOf b).table.value = true) :
    CodeTable.wf (t.syncOf b).table.value = true := by
  obtain ⟨r, hr, ht⟩ := andThen_eq_next.mp ht
  cases ht
  obtain ⟨hsync, rfl⟩ | hsync := s.syncOf_withSync_cases a b r <;> rw [hsync]
  · exact hx _ _ hr hwf
  · exact hwf

theorem insertRegs_keeps_wf (h : insertRegs a str c r = .next r') (hwf : CodeTable.wf r.table.value = true) :
    CodeTable.wf r'.table.value = true := by
  obtain ⟨t, ht, rfl⟩ := insertRegs_eq_next h
  exact insertEntry_wf ht hwf

/-- R32: the codes of a sound table are consecutive from 257. -/
theorem Sync.Inv.table_wf (h : y.Inv p a) : CodeTable.wf y.table = true := by
  refine CodeTable.wf_iff.mpr ⟨?_, fun e he => (h.code_range he).1⟩
  have hrising : (y.table.map (·.1)).Pairwise (· < ·) := by
    rw [h.codes]
    exact List.pairwise_lt_range'
  exact List.pairwise_map.mp hrising

/-- R89: no entry of a sound table has the sentinel's code. -/
theorem Sync.Inv.lookupCode_sentinel (h : y.Inv p a) : lookupCode y.table sentinelCode = none := by
  rw [lookupCode_entry (by decide), entryAt_eq_none, h.codes, List.mem_range'_1]
  exact fun hmem => absurd hmem.1 (by decide)

/-- Settles O34: placing an entry keeps the form, the base dictionary has it, and the codes of a sound sync are consecutive. -/
theorem tableKeepsForm : Obligations.TableKeepsForm := by
  unfold Obligations.TableKeepsForm
  refine ⟨CodeTable.wf_base, fun a b str c s t ht => ?insert, fun a b s t ht => ?reinit,
    fun p a y h => ⟨h.table_wf, h.lookupCode_sentinel⟩⟩
  case insert =>
    rw [exec, execOpInsert_onSync] at ht
    exact onSync_keeps_wf (fun r r' => insertRegs_keeps_wf) ht
  case reinit =>
    refine onSync_keeps_wf (x := fun r => .next { r with table := .write baseTable }) (fun r r' hr _ => ?_) ht
    cases hr
    exact CodeTable.wf_base

/-! ### The rows (R64 to R67) -/

theorem inCodeSpace_eq_true {f : Reg Fsm} : inCodeSpace f c = true ↔ (f.written = true → c < 2 ^ f.value.wMax) := by
  cases hf : f.written <;> simp [inCodeSpace, hf]

/-- R30: a code from 257 up that no lookup finds has no entry. -/
theorem entryAt_of_lookupCode {t : CodeTable} (hc : firstCode ≤ c) (hfree : lookupCode t c = none) : entryAt t c = none := by
  rwa [lookupCode_entry (Nat.le_of_succ_le hc)] at hfree

/-- R65, R66: what OP_INSERT requires of the registers of an agent. -/
structure InsertFits (a : Agent) (str : Str) (c : Nat) (r : SyncRegs) : Prop where
  space : r.fsm.written = true → c < 2 ^ r.fsm.value.wMax
  code : firstCode ≤ c
  free : lookupCode r.table.value c = none
  key : a = .encoder → lookupStr r.table.value str = none
  string : a = .decoder → str ≠ []

theorem InsertFits.insertEntry_eq (h : InsertFits a str c r) :
    insertEntry a str c r.table.value = .next (placeEntry c str r.table.value) :=
  insertEntry_eq_next.mpr ⟨⟨h.code, entryAt_of_lookupCode h.code h.free, h.key, h.string⟩, rfl⟩

/-- R65, R66: OP_INSERT where its requirement holds. -/
theorem InsertFits.exec_opInsert (h : InsertFits a str c (s.syncOf a)) :
    exec (.opInsert a str c) s = .next (s.withSync a
      { (s.syncOf a).noteRead (s.syncOf a).table.written with
        table := .write (placeEntry c str (s.syncOf a).table.value) }) := by
  rw [exec, execOpInsert, insertRegs, if_pos (inCodeSpace_eq_true.mpr h.space), h.insertEntry_eq]
  rfl

/-- R64, R66: a lookup answers its key in the table, and where the table is written nothing is put on record. -/
theorem exec_opLookup_of_written {k : TableKey} (hw : (s.syncOf k.agent).table.written = true) :
    exec (.opLookup k) s = .next { s with
      reply := some (tableAnswer k s.freeReplies (s.syncOf k.agent).table.value)
      freeReplies := s.freeReplies + freeRepliesOf k } := by
  rw [exec, execOpLookup, hw, SyncRegs.noteRead_true, State.withSync_self]

/-- Settles O35: a lookup of a written table, the entry that an insert places, and the base dictionary. -/
theorem tableRows : Obligations.TableRows := by
  unfold Obligations.TableRows
  intro a s t htable
  have hwritten : (s.syncOf a).table.written = true := by rw [htable]; rfl
  have hvalue : (s.syncOf a).table.value = t := by rw [htable]; rfl
  refine ⟨fun str ha hne => ?lookupStr, fun c ha => ?lookupCode, fun str c hspace hc hfree hkey hstr => ?insert,
    baseTable, rfl, fun str => ?baseStr, lookupCode_baseTable⟩
  case lookupStr =>
    subst ha
    obtain ⟨b, l, rfl⟩ := List.exists_cons_of_ne_nil hne
    rw [exec_opLookup_of_written (k := .str (b :: l)) hwritten, ← hvalue]
    rfl
  case lookupCode =>
    subst ha
    rw [exec_opLookup_of_written (k := .code c) hwritten, ← hvalue]
    rfl
  case insert =>
    subst hvalue
    have hfits : InsertFits a str c (s.syncOf a) := ⟨hspace, hc, hfree, hkey, hstr⟩
    refine ⟨placeEntry c str (s.syncOf a).table.value, ?_, fun ha => ?_, insertEntry_lookupCode hfits.insertEntry_eq⟩
    · rw [hfits.exec_opInsert, hwritten, SyncRegs.noteRead_true]
    · exact lookupStr_placeEntry (hkey ha)
  case baseStr =>
    split
    · rfl
    · next hne => exact lookupStr_baseTable_of_ne_single hne

end Sys2Proof.Machine
end

section

/-!
## The two agents and their inputs (R22, R38, R50, R61, R72, R166, R188)

An input reads and moves one agent, so inputs for different agents commute. What a step leaves of an agent is then what an input,
or the decoder by itself, leaves of it: the same stream going on, or a new one. An agent that is suspended gets none of its inputs.
-/

namespace Sys2Proof.Machine

variable {s t : State} {p : Port} {bits : Bits} {rest : List Event}

/-! ### Inputs for different agents (R22, R166, R188) -/

/-- Settles O6: an input for an agent is a function of that agent, of the parameters and of the counter of short reads. -/
theorem instancesShareNothing : Obligations.InstancesShareNothing := by
  unfold Obligations.InstancesShareNothing
  intro s s' ev t hparams huses ht
  refine ⟨fun ha henc => ?encoder, fun ha hdec => ?decoder⟩
  case encoder =>
    obtain ⟨r, x, c, ht'⟩ := takeEvent_encoder ha hparams henc ht
    exact ⟨_, ht', rfl, rfl⟩
  case decoder =>
    obtain ⟨r, x, ht'⟩ := takeEvent_decoder ha hparams hdec huses ht
    exact ⟨_, ht', rfl, rfl⟩

/-- An input for the encoder and then one for the decoder, in the other order. -/
theorem takeEvent_encoder_decoder {a b : State} {e d : Event} (he : e.agent = .encoder) (hd : d.agent = .decoder)
    (ha : takeEvent e s = .next a) (hb : takeEvent d a = .next b) :
    ∃ a' b', takeEvent d s = .next a' ∧ takeEvent e a' = .next b' ∧ b'.enc = b.enc ∧ b'.dec = b.dec := by
  obtain ⟨_, _, _, hframeA⟩ := takeEvent_encoder_frame he ha
  obtain ⟨_, _, hframeB⟩ := takeEvent_decoder_frame hd hb
  have hkept : b.enc = a.enc := by rw [hframeB]
  obtain ⟨r, x, ha'⟩ := takeEvent_decoder (s' := s) hd (by rw [hframeA]) (by rw [hframeA]) (by rw [hframeA]) hb
  obtain ⟨r', x', c, hb'⟩ := takeEvent_encoder (s := s)
    (s' := { s with dec := b.dec, freeUses := b.freeUses, reply := r, response := x }) he rfl rfl ha
  exact ⟨_, _, ha', hb', hkept.symm, rfl⟩

/-- An input for the decoder and then one for the encoder, in the other order. -/
theorem takeEvent_decoder_encoder {a b : State} {e d : Event} (he : e.agent = .decoder) (hd : d.agent = .encoder)
    (ha : takeEvent e s = .next a) (hb : takeEvent d a = .next b) :
    ∃ a' b', takeEvent d s = .next a' ∧ takeEvent e a' = .next b' ∧ b'.enc = b.enc ∧ b'.dec = b.dec := by
  obtain ⟨_, _, hframeA⟩ := takeEvent_decoder_frame he ha
  obtain ⟨_, _, _, hframeB⟩ := takeEvent_encoder_frame hd hb
  have hkept : b.dec = a.dec := by rw [hframeB]
  obtain ⟨r, x, c, ha'⟩ := takeEvent_encoder (s' := s) hd (by rw [hframeA]) (by rw [hframeA]) hb
  obtain ⟨r', x', hb'⟩ := takeEvent_decoder (s := s)
    (s' := { s with enc := b.enc, reply := r, response := x, freeReplies := c }) he rfl rfl rfl ha
  exact ⟨_, _, ha', hb', rfl, hkept.symm⟩

/-- Settles O7: neither input reads what the other one moves. -/
theorem interleavingDoesNotMatter : Obligations.InterleavingDoesNotMatter := by
  unfold Obligations.InterleavingDoesNotMatter
  intro s a b e d hne ha hb
  cases he : e.agent <;> cases hd : d.agent
  · exact absurd (he.trans hd.symm) hne
  · exact takeEvent_encoder_decoder he hd ha hb
  · exact takeEvent_decoder_encoder he hd ha hb
  · exact absurd (he.trans hd.symm) hne

/-! ### What a step leaves of a stream (R38, R50, R61) -/

/-- A step goes on with the encoder's stream, or opens one. -/
theorem step_encoder_continues (ht : step s = .next t) :
    t.params = s.params ∧ (s.enc.Continues t.enc ∨ s.enc.busy = false ∧ t.enc.phase = .empty) := by
  rcases step_cases s with ⟨ev, rest, -, hstep⟩ | ⟨-, -, -, hstep⟩ | ⟨-, -, hstep⟩ <;> rw [hstep] at ht
  · exact takeEvent_encoder_continues (s := { s with agenda := rest }) ht
  · obtain ⟨r, hframe⟩ := runDecoder_frame ht
    rw [hframe]
    exact ⟨rfl, .inl (.refl _)⟩
  · cases ht
    exact ⟨rfl, .inl (.refl _)⟩

/-- A step goes on with the decoder's stream, or opens one. -/
theorem step_decoder_continues (ht : step s = .next t) :
    s.dec.Continues t.dec ∨ s.dec.busy = false ∧ t.dec.phase = .hdr := by
  rcases step_cases s with ⟨ev, rest, -, hstep⟩ | ⟨-, -, -, hstep⟩ | ⟨-, -, hstep⟩ <;> rw [hstep] at ht
  · exact takeEvent_decoder_continues (s := { s with agenda := rest }) ht
  · exact runDecoder_continues ht
  · cases ht
    exact .inl (.refl _)

/-- Settles O8: an open stream goes on, with its configuration, and no input changes the parameters. -/
theorem configurationIsConstant : Obligations.ConfigurationIsConstant := by
  unfold Obligations.ConfigurationIsConstant
  intro s t ht
  obtain ⟨hparams, henc⟩ := step_encoder_continues ht
  refine ⟨hparams, fun hbusy => ?encoder, fun hph => ?decoder⟩
  case encoder =>
    obtain hgo | ⟨hclosed, -⟩ := henc
    · exact hgo.config
    · simp [hbusy] at hclosed
  case decoder =>
    obtain hgo | ⟨hclosed, -⟩ := step_decoder_continues ht
    · exact hgo.config (by rcases hph with hph | hph <;> simp [hph])
    · simp [s.dec.busy_iff.mpr (.inr hph)] at hclosed

/-- Settles O10: a stream that goes on adds to its output while it is open, and every other step opens a new one. -/
theorem outputsOnlyGrow : Obligations.OutputsOnlyGrow := by
  unfold Obligations.OutputsOnlyGrow
  intro s t ht
  obtain ⟨-, henc⟩ := step_encoder_continues ht
  exact ⟨henc.imp_left fun hgo => ⟨hgo.grows, hgo.closed⟩,
    (step_decoder_continues ht).imp_left fun hgo => ⟨hgo.grows, hgo.closed⟩⟩

/-! ### Suspended agents (R72, R170) -/

/-- R72: an input that can be taken and is for the suspended encoder is the end of its waiting, or a new one. -/
theorem takeEvent_of_blocked_encoder (hblock : s.isBlocked .encoder = true) {ev : Event} (hfree : ev.isHeld s = false)
    (ht : takeEvent ev { s with agenda := rest } = .next t) : t.enc = { s.enc with held := t.enc.held } := by
  cases ha : ev.agent with
  | decoder =>
    obtain ⟨_, _, hframe⟩ := takeEvent_decoder_frame ha ht
    rw [hframe]
  | encoder =>
    cases ev with
    | request p bits => simp [Event.isHeld, show p.agent = .encoder from ha, hblock] at hfree
    | decStep => cases ha
    | deliver sl bytes => cases ha
    | finish sl => cases ha
    | hold a on =>
      cases (show a = .encoder from ha)
      cases ht
      rfl

/-- A delivery to a decoder, or the end of one, is a change of its inputs. -/
theorem Decoder.withSlot_eq (sl : Slot) (i : BitIn) (d : Decoder) :
    d.withSlot sl i = { d with inp := (d.withSlot sl i).inp, nextInp := (d.withSlot sl i).nextInp } := by
  cases sl <;> rfl

/-- R72: an input that can be taken and is for the suspended decoder changes its inputs or its waiting. -/
theorem takeEvent_of_blocked_decoder (hblock : s.isBlocked .decoder = true) {ev : Event} (hfree : ev.isHeld s = false)
    (ht : takeEvent ev { s with agenda := rest } = .next t) :
    t.dec = { s.dec with inp := t.dec.inp, nextInp := t.dec.nextInp, held := t.dec.held } := by
  cases ha : ev.agent with
  | encoder =>
    obtain ⟨_, _, _, hframe⟩ := takeEvent_encoder_frame ha ht
    rw [hframe]
  | decoder =>
    cases ev with
    | request p bits => simp [Event.isHeld, show p.agent = .decoder from ha, hblock] at hfree
    | decStep => simp [Event.isHeld, hblock] at hfree
    | deliver sl bytes =>
      cases ht
      unfold takeDelivery
      split
      · rfl
      · rw [Decoder.withSlot_eq]
    | finish sl =>
      cases ht
      rw [takeFinish, Decoder.withSlot_eq]
    | hold a on =>
      cases (show a = .decoder from ha)
      cases ht
      rfl

theorem step_of_blocked_encoder (hblock : s.isBlocked .encoder = true) (ht : step s = .next t) :
    t.enc = { s.enc with held := t.enc.held } := by
  rcases step_cases s with ⟨ev, rest, hnext, hstep⟩ | ⟨-, -, -, hstep⟩ | ⟨-, -, hstep⟩ <;> rw [hstep] at ht
  · obtain ⟨-, hfree, -⟩ := nextEvent_some hnext
    exact takeEvent_of_blocked_encoder hblock hfree ht
  · obtain ⟨r, hframe⟩ := runDecoder_frame ht
    rw [hframe]
  · cases ht
    rfl

theorem step_of_blocked_decoder (hblock : s.isBlocked .decoder = true) (ht : step s = .next t) :
    t.dec = { s.dec with inp := t.dec.inp, nextInp := t.dec.nextInp, held := t.dec.held } := by
  rcases step_cases s with ⟨ev, rest, hnext, hstep⟩ | ⟨-, -, hanswers, -⟩ | ⟨-, -, hstep⟩
  · rw [hstep] at ht
    obtain ⟨-, hfree, -⟩ := nextEvent_some hnext
    exact takeEvent_of_blocked_decoder hblock hfree ht
  · have hheld : s.dec.held = true := State.isHeld_of_isBlocked hblock
    simp [hanswers] at hheld
  · cases ht.symm.trans hstep
    rfl

/-- R72: the first word is taken where its agent's collaborators answer, or where its step calls none of them. -/
theorem step_request (ha : s.agenda = .request p bits :: rest) (hfree : s.isHeld p.agent = false ∨ p.callsPrimitive s = false) :
    step s = runRequest p bits { s with agenda := rest } := by
  refine step_event ha ?_
  rw [isHeld_head ha]
  rcases hfree with hfree | hfree <;> simp [hfree]

theorem nextEvent_eq_none {l : List Event} (h : ∀ ev ∈ l, ev.isHeld s = true) : nextEvent s l = none := by
  induction l with
  | nil => rfl
  | cons ev l ih =>
    obtain ⟨hev, hl⟩ := List.forall_mem_cons.mp h
    rw [nextEvent, if_pos hev, ih hl]
    rfl

/-- R170: with nothing to do the machine waits. -/
theorem step_of_nothing (hall : ∀ ev ∈ s.agenda, ev.isHeld s = true) (hdec : s.dec.busy = false ∨ s.dec.held = true) :
    step s = .next s := by
  rcases step_cases s with ⟨ev, rest, hnext, -⟩ | ⟨-, hbusy, hanswers, -⟩ | ⟨-, -, hstep⟩
  · cases (nextEvent_eq_none hall).symm.trans hnext
  · simp [hbusy, hanswers] at hdec
  · exact hstep

/-- Settles O11: a suspended agent gets none of its inputs, a word that calls no primitive is taken, and with nothing to take
the machine waits. -/
theorem heldInstanceTakesNoStep : Obligations.HeldInstanceTakesNoStep := by
  unfold Obligations.HeldInstanceTakesNoStep
  refine ⟨fun s t ht => ⟨fun hblock => step_of_blocked_encoder hblock ht, fun hblock => step_of_blocked_decoder hblock ht⟩,
    fun s rest => ⟨fun b ha hph => step_request ha (.inr ?byte), fun b ha => step_request ha (.inr rfl),
      fun b ha hbusy => step_request ha (.inr ?start), fun b ha hbusy => step_request ha (.inr hbusy),
      fun a b ha => step_request ha (.inr rfl)⟩,
    fun s => step_of_nothing⟩
  case byte => simpa [Port.callsPrimitive] using hph
  case start => simpa [Port.callsPrimitive] using hbusy

end Sys2Proof.Machine
end

section

/-!
## Words that run (R93, R120, R133 to R139, R170)

A step runs the instruction of the word that arrives, or of the word that the decoder reads; where a read does not answer, the
step is at its read.
-/

namespace Sys2Proof.Machine

variable {s : State}

/-! ### The word of a request -/

/-- Settles O12: the request is taken, and its fetch is the instruction. -/
theorem stepRunsDecodedRequest : Obligations.StepRunsDecodedRequest := by
  unfold Obligations.StepRunsDecodedRequest
  intro s p bits rest i ha hfree hfetch
  rw [step_request ha hfree, runRequest, hfetch, andThen_next]

/-! ### The word that the decoder reads -/

/-- R60: the step whose fetch is a read of enough bits runs the word's instruction after the read. -/
theorem runDecoder_of_read {u : State} {n : Nat} {c : Ctx} {e : DecErr} {i : Instr} {r : Bits}
    (hfetch : decoderFetch s = readToken n c e u) (hl : n ≤ u.dec.inp.bits.length)
    (hd : decode u.params.bitOrder c (u.dec.inp.bits.take n) = .ok (i, r)) : runDecoder s = exec i (u.afterRead n) := by
  rw [runDecoder, hfetch, readToken_bits hl hd, andThen_next]

theorem decoderFetch_of_hdr (hph : s.dec.phase = .hdr) : decoderFetch s = readToken headerBits .header .truncHeader s := by
  simp only [decoderFetch, hph]

theorem decoderFetch_of_first (hph : s.dec.phase = .first) :
    decoderFetch s = readToken s.dec.sync.values.fsm.w (.first s.dec.sync.values.fsm.w) .truncCodeword s := by
  simp only [decoderFetch, hph, fsmWidth]

theorem decoderFetch_of_begin {d : Decoder} (hph : s.dec.phase = .run) (hbegin : s.dec.begin = .next d) :
    decoderFetch s = readToken d.sync.values.fsm.w (.run d.sync.values.fsm.w d.sync.values.n) .truncCodeword
      { s with dec := d } := by
  simp only [decoderFetch, hph, hbegin, andThen_next, fsmWidth]

/-- R139: the beginning of a `RUN` step leaves the input. -/
theorem Decoder.begin_inp {d d' : Decoder} (h : d.begin = .next d') : d'.inp = d.inp := by
  unfold Decoder.begin at h
  split at h
  · cases h
    rfl
  · obtain ⟨d1, h1, h⟩ := andThen_eq_next.mp h
    cases h
    unfold Decoder.emit at h1
    split at h1
    · cases h1
    · cases h1
      rfl

/-- Settles O13: with no input lined up the decoder steps, and its fetch is the read of its phase. -/
theorem stepRunsDecodedCodeword : Obligations.StepRunsDecodedCodeword := by
  unfold Obligations.StepRunsDecodedCodeword
  intro s i r ha hheld
  have hstep (hph : s.dec.phase = .hdr ∨ s.dec.phase = .first ∨ s.dec.phase = .run) : step s = runDecoder s :=
    step_decoder ha (s.dec.busy_iff.mpr hph) hheld
  refine ⟨fun hph hl hd => ?hdr, fun w hph hw hl hd => ?first, fun d w hph hbegin hw hl hd => ?run⟩
  case hdr =>
    rw [hstep (.inl hph)]
    exact runDecoder_of_read (decoderFetch_of_hdr hph) hl hd
  case first =>
    subst hw
    rw [hstep (.inr (.inl hph))]
    exact runDecoder_of_read (decoderFetch_of_first hph) hl hd
  case run =>
    subst hw
    rw [← Decoder.begin_inp hbegin] at hl hd
    rw [hstep (.inr (.inr hph))]
    exact runDecoder_of_read (decoderFetch_of_begin hph hbegin) hl hd

/-! ### The read that does not answer -/

/-- R72: a step whose beginning is over waits as it is. -/
theorem runDecoder_of_readsBlock_begun (h : s.Inv) (hb : s.dec.busy = true) (hstarts : s.dec.startsStep = false)
    (hblock : s.readsBlock s.dec.readWidth) : runDecoder s = .next s := by
  rw [runDecoder_of_readsBlock h hb hblock, State.atRead, Decoder.atRead_of_not_startsStep hstarts]

/-- Settles O57: the step is left at its read, to which only the beginning of a `RUN` step leads. -/
theorem blockedReadWaits : Obligations.BlockedReadWaits := by
  unfold Obligations.BlockedReadWaits
  intro s h
  refine ⟨fun hph hblock => ?hdr, fun hph hblock => ?first, fun br hm hblock => ?begun, fun hph hm hblock => ?fresh⟩
  case hdr =>
    refine runDecoder_of_readsBlock_begun h (s.dec.busy_iff.mpr (.inl hph)) (by simp [Decoder.startsStep, hph]) ?_
    rwa [Decoder.readWidth_of_hdr hph]
  case first =>
    refine runDecoder_of_readsBlock_begun h (s.dec.busy_iff.mpr (.inr (.inl hph))) (by simp [Decoder.startsStep, hph]) ?_
    rwa [Decoder.readWidth_of_first hph]
  case begun =>
    obtain ⟨hph, -⟩ := h.dec.step br hm
    refine runDecoder_of_readsBlock_begun h (s.dec.busy_iff.mpr (.inr (.inr hph))) (by simp [Decoder.startsStep, hm]) ?_
    rw [Decoder.readWidth_of_run hph, Decoder.begun, hm]
    exact hblock
  case fresh =>
    obtain ⟨-, hsync⟩ := h.dec.started (.inr hph)
    rw [runDecoder_of_readsBlock h (s.dec.busy_iff.mpr (.inr (.inr hph))), State.atRead,
      Decoder.atRead_of_startsStep (by simp [Decoder.startsStep, hph, hm])]
    rw [Decoder.readWidth_of_run hph, Decoder.begun_of_fresh hm, SyncRegs.values_put, hsync.pre_w]
    exact hblock

/-! ### The two STARTs (R120, R133) -/

theorem exec_decStart_refused (hph : s.dec.phase = .hdr ∨ s.dec.phase = .first ∨ s.dec.phase = .run) :
    exec .decStart s = .refused .transaction := by
  rcases hph with hph | hph | hph <;> simp only [exec, execDecStart, hph]

/-- Settles O39: the encoder that ENC_START leaves by its law; under legal parameters the two bounds are one just in static mode. -/
theorem encStartOpensStream : Obligations.EncStartOpensStream := by
  unfold Obligations.EncStartOpensStream
  intro r f s hp
  refine ⟨fun hph => ⟨_, exec_encStart_of_closed hph r f, rfl, rfl, rfl, ?out, ⟨_, rfl⟩, rfl⟩, exec_encStart_refused r f⟩
  case out => rw [Encoder.started, bounds_eq_iff hp]

/-- Settles O47: the decoder that DEC_START leaves. -/
theorem decStartOpensStream : Obligations.DecStartOpensStream := by
  unfold Obligations.DecStartOpensStream
  exact fun s => ⟨fun hph => ⟨_, exec_decStart_of_closed hph, rfl, rfl, rfl, rfl, rfl, rfl, rfl, rfl, rfl, rfl⟩,
    exec_decStart_refused⟩

end Sys2Proof.Machine
end

section

/-!
## Rows outside their conditions (R81, R85 to R88, R101 to R103, R127, R128)

Where the phase, the value, the lookup or the arm of a row is another, the row is refused and an `Insert` is a fault. A row that
reads a register that nothing has written goes on with the value that it holds, and the read is put on record.
-/

namespace Sys2Proof.Machine

variable {s : State} {a : Agent} {b : Byte} {c v : Nat} {str : Str} {r : SyncRegs}

/-! ### The decoder's rows in another phase, or with another value -/

theorem exec_hdr_refused (hph : s.dec.phase ≠ .hdr) (r f : Bool) : exec (.hdr r f) s = .refused .notThisClass := by
  cases hp : s.dec.phase with
  | hdr => exact absurd hp hph
  | _ => simp only [exec, execHdr, hp]

theorem exec_firstLit_refused (h : s.dec.phase ≠ .first ∨ 255 < v) : exec (.firstLit v) s = .refused .notThisClass := by
  simp only [exec, execFirstLit]
  split
  · next hph => exact if_neg (Nat.not_le.mpr (h.resolve_left (not_not_intro hph)))
  · rfl

theorem exec_firstSent_refused (hph : s.dec.phase ≠ .first) : exec .firstSent s = .refused .notThisClass := by
  cases hp : s.dec.phase with
  | first => exact absurd hp hph
  | _ => simp only [exec, execFirstSent, hp]

theorem exec_firstBad_refused (h : s.dec.phase ≠ .first ∨ v < 257) : exec (.firstBad v) s = .refused .notThisClass := by
  simp only [exec, execFirstBad]
  split
  · next hph => exact if_neg (Nat.not_le.mpr (h.resolve_left (not_not_intro hph)))
  · rfl

/-- R86: outside a `RUN` step in progress no class of a later codeword applies. -/
theorem Decoder.andThen_inStep_refused {d : Decoder} {f : Branch → Out State}
    (h : ∀ br, d.phase = .run → d.midStep = some br → f br = .refused .notThisClass) :
    andThen d.inStep f = .refused .notThisClass := by
  unfold Decoder.inStep
  split
  · next br hph hm => exact h br hph hm
  · rfl

theorem exec_sent_refused (h : s.dec.phase ≠ .run ∨ s.dec.midStep = none) : exec .sent s = .refused .notThisClass := by
  refine Decoder.andThen_inStep_refused fun br hph hm => ?_
  simp [hph, hm] at h

theorem exec_lit_refused (h : s.dec.phase ≠ .run ∨ s.dec.midStep = none ∨ 255 < v) :
    exec (.lit v) s = .refused .notThisClass := by
  refine Decoder.andThen_inStep_refused fun br hph hm => ?_
  simp only [hph, hm, ne_eq, not_true, reduceCtorEq, false_or] at h
  exact if_neg (Nat.not_le.mpr h)

theorem exec_selfRef_refused (h : s.dec.phase ≠ .run ∨ s.dec.midStep = none ∨ s.dec.midStep = some .full) :
    exec .selfRef s = .refused .notThisClass := by
  refine Decoder.andThen_inStep_refused fun br hph hm => ?_
  simp only [hph, hm, ne_eq, not_true, reduceCtorEq, false_or, Option.some.injEq] at h
  exact if_pos h

theorem exec_ref_refused (h : s.dec.phase ≠ .run ∨ s.dec.midStep = none ∨ v < 257 ∨ s.dec.sync.values.n ≤ v) :
    exec (.ref v) s = .refused .notThisClass := by
  refine Decoder.andThen_inStep_refused fun br hph hm => ?_
  simp only [hph, hm, ne_eq, not_true, reduceCtorEq, false_or] at h
  refine if_neg fun ⟨hlow, hhigh⟩ => ?_
  rcases h with h | h
  · exact Nat.not_le.mpr h hlow
  · exact Nat.not_le.mpr hhigh h

theorem exec_bad_refused (h : s.dec.phase ≠ .run ∨ s.dec.midStep = none ∨ v ≤ s.dec.sync.values.n) :
    exec (.bad v) s = .refused .notThisClass := by
  refine Decoder.andThen_inStep_refused fun br hph hm => ?_
  simp only [hph, hm, ne_eq, not_true, reduceCtorEq, false_or] at h
  exact if_neg (Nat.not_lt.mpr h)

/-! ### The encoder's rows of another class -/

/-- R88: in RUN a byte is not the first, and the input is not empty. -/
theorem exec_empty_rows_refused_in_run (hph : s.enc.phase = .run) (b : Byte) :
    exec (.encFirst b) s = .refused .notThisClass ∧ exec .encEndEmpty s = .refused .notThisClass := by
  constructor
  · simp only [exec, execEncFirst, hph]
  · simp only [exec, execEncEndEmpty, hph]

/-- R88: in EMPTY a byte is the first, and there is no `cur` to end with. -/
theorem exec_run_rows_refused_in_empty (hph : s.enc.phase = .empty) (b : Byte) :
    exec (.encExtend b) s = .refused .notThisClass ∧ exec (.encEmit b) s = .refused .notThisClass ∧
      exec .encEndRun s = .refused .notThisClass := by
  refine ⟨?extend, ?emit, ?endRun⟩
  case extend => simp only [exec, execEncExtend, byteClass_of_empty hph, andThen_next]
  case emit => simp only [exec, execEncEmit, byteClass_of_empty hph, andThen_next]
  case endRun => simp only [exec, execEncEndRun, hph]

theorem exec_encExtend_refused_of_new (hph : s.enc.phase = .run)
    (hk : lookupStr s.enc.sync.values.table (s.enc.cur.value ++ [b]) = none) :
    exec (.encExtend b) s = .refused .notThisClass := by
  simp only [exec, execEncExtend, byteClass_of_new hph hk, andThen_next]

theorem exec_encEmit_refused_of_known (hph : s.enc.phase = .run)
    (hk : lookupStr s.enc.sync.values.table (s.enc.cur.value ++ [b]) ≠ none) :
    exec (.encEmit b) s = .refused .notThisClass := by
  obtain ⟨c, hc⟩ := Option.ne_none_iff_exists'.mp hk
  simp only [exec, execEncEmit, byteClass_of_known hph hc, andThen_next]

/-- R127: no stream is open, or the row's width is not the anticipated one. -/
theorem exec_sentinel_refused {i : Instr} {w : Nat} (hi : i.sentinelWidth = some w)
    (h : s.enc.busy = false ∨ w ≠ fsmNextWidth s.enc.sync.values.fsm s.enc.sync.values.n) :
    exec i s = .refused .notThisClass := by
  rw [exec_of_sentinelWidth hi, Encoder.sentinelAt]
  rcases h with h | h
  · simp [h]
  · simp [h.symm]

/-- R128: no stream is open, or the row's length is not the one that the position asks for. -/
theorem exec_pad_refused (h : s.enc.busy = false ∨ v ≠ (8 - s.enc.nbits.value % 8) % 8) :
    exec (.pad v) s = .refused .notThisClass := by
  simp only [exec, execPad]
  rcases h with h | h
  · simp [h]
  · simp [padLength, h.symm]

/-! ### FSM_APPLY (R101 to R103) -/

theorem applyBranch_refused {br : Branch} (h : branchRegs br (s.syncOf a) = .refused .notThisClass) :
    applyBranch br a s = .refused .notThisClass := by
  rw [applyBranch, h, andThen_refused]

theorem branchRegs_grow_refused (h : r.fsm.value.wMax ≤ r.fsm.value.w) : branchRegs .grow r = .refused .notThisClass :=
  if_neg (Nat.not_lt.mpr h)

theorem branchRegs_reset_refused (h : r.fsm.value.w ≠ r.fsm.value.wMax ∨ r.n.value ≠ r.fsm.value.l ∨ r.fsm.value.allow = false) :
    branchRegs .reset r = .refused .notThisClass := by
  refine if_neg fun ⟨hw, hn, hallow⟩ => ?_
  simp [hw, hn, hallow] at h

theorem branchRegs_full_refused (h : r.fsm.value.w ≠ r.fsm.value.wMax ∨ r.n.value ≠ r.fsm.value.l ∨ r.fsm.value.allow = true) :
    branchRegs .full r = .refused .notThisClass := by
  refine if_neg fun ⟨hw, hn, hallow⟩ => ?_
  simp [hw, hn, hallow] at h

/-- R45, R101: GROW with an fsm that nothing has written. -/
theorem branchRegs_grow_of_unwritten (hu : r.fsm.written = false) (hw : r.fsm.value.w < r.fsm.value.wMax) :
    branchRegs .grow r = .next { r with fsm := .write (fsmApply .grow r.fsm.value), readUnwritten := true } := by
  rw [branchRegs, if_pos hw, hu, SyncRegs.noteRead_false]

/-- R45, R102: RESET with an fsm or a counter that nothing has written. -/
theorem branchRegs_reset_of_unwritten (hu : (r.fsm.written && r.n.written) = false) (hw : r.fsm.value.w = r.fsm.value.wMax)
    (hn : r.n.value = r.fsm.value.l) (hallow : r.fsm.value.allow = true) :
    branchRegs .reset r = .next { r with fsm := .write (fsmApply .reset r.fsm.value), readUnwritten := true } := by
  rw [branchRegs, if_pos ⟨hw, hn, hallow⟩, hu, SyncRegs.noteRead_false]

/-- R45, R103: FULL with an fsm or a counter that nothing has written. -/
theorem branchRegs_full_of_unwritten (hu : (r.fsm.written && r.n.written) = false) (hw : r.fsm.value.w = r.fsm.value.wMax)
    (hn : r.n.value = r.fsm.value.l) (hallow : r.fsm.value.allow = false) :
    branchRegs .full r = .next { r with readUnwritten := true } := by
  rw [branchRegs, if_pos ⟨hw, hn, hallow⟩, hu, SyncRegs.noteRead_false]

/-! ### OP_LOOKUP and OP_INSERT (R64 to R66) -/

/-- R45: a lookup in a table that nothing has written. -/
theorem exec_opLookup_of_unwritten {k : TableKey} (hu : (s.syncOf k.agent).table.written = false) :
    exec (.opLookup k) s = .next { s.withSync k.agent { s.syncOf k.agent with readUnwritten := true } with
      reply := some (tableAnswer k s.freeReplies (s.syncOf k.agent).table.value)
      freeReplies := s.freeReplies + freeRepliesOf k } := by
  rw [exec, execOpLookup, hu, SyncRegs.noteRead_false]

/-- R45: an insert into a table that nothing has written. -/
theorem InsertFits.exec_opInsert_of_unwritten (h : InsertFits a str c (s.syncOf a)) (hu : (s.syncOf a).table.written = false) :
    exec (.opInsert a str c) s = .next (s.withSync a { s.syncOf a with
      table := .write (placeEntry c str (s.syncOf a).table.value), readUnwritten := true }) := by
  rw [h.exec_opInsert, hu, SyncRegs.noteRead_false]

/-- An OP_INSERT runs only where its requirement holds. -/
theorem insertFits_of_insertRegs {r' : SyncRegs} (h : insertRegs a str c r = .next r') : InsertFits a str c r := by
  unfold insertRegs at h
  split at h
  · next hspace =>
    obtain ⟨t, ht, -⟩ := andThen_eq_next.mp h
    obtain ⟨⟨hcode, hfree, hkey, hstr⟩, -⟩ := insertEntry_eq_next.mp ht
    refine ⟨inCodeSpace_eq_true.mp hspace, hcode, ?_, hkey, hstr⟩
    rw [lookupCode_entry (Nat.le_of_succ_le hcode), hfree]
  · cases h

/-- R47, R65, R66: OP_INSERT runs, or it is the fault of a requirement that does not hold. -/
theorem exec_opInsert_cases (a : Agent) (str : Str) (c : Nat) (s : State) :
    InsertFits a str c (s.syncOf a) ∨ exec (.opInsert a str c) s = .fault .insertConflict := by
  have hregs : (∃ r, insertRegs a str c (s.syncOf a) = .next r) ∨ insertRegs a str c (s.syncOf a) = .fault .insertConflict := by
    unfold insertRegs insertEntry
    split
    · split
      · exact .inl ⟨_, rfl⟩
      · exact .inr rfl
    · exact .inr rfl
  refine hregs.imp (fun ⟨r, hr⟩ => insertFits_of_insertRegs hr) fun hfault => ?_
  rw [exec, execOpInsert, hfault, andThen_fault]

theorem exec_opInsert_fault (h : ((s.syncOf a).fsm.written = true ∧ 2 ^ (s.syncOf a).fsm.value.wMax ≤ c) ∨ c < 257 ∨
    lookupCode (s.syncOf a).table.value c ≠ none ∨
    (a = .encoder ∧ lookupStr (s.syncOf a).table.value str ≠ none) ∨ (a = .decoder ∧ str = [])) :
    exec (.opInsert a str c) s = .fault .insertConflict := by
  refine (exec_opInsert_cases a str c s).resolve_left fun hfits => ?_
  rcases h with ⟨hw, hc⟩ | hc | hc | ⟨ha, hk⟩ | ⟨ha, hk⟩
  · exact Nat.not_lt.mpr hc (hfits.space hw)
  · exact Nat.not_le.mpr hc hfits.code
  · exact hc hfits.free
  · exact hk (hfits.key ha)
  · exact hfits.string ha hk

/-- Settles O54: the refusal, the fault or the recorded read of each row, one at a time. -/
theorem rowsOutsideTheirConditions : Obligations.RowsOutsideTheirConditions := by
  unfold Obligations.RowsOutsideTheirConditions
  intro s r f v b
  refine ⟨fun hph => exec_hdr_refused hph r f, exec_firstLit_refused, exec_firstSent_refused, exec_firstBad_refused,
    exec_sent_refused, exec_lit_refused, exec_selfRef_refused, exec_ref_refused, exec_bad_refused,
    fun hph => exec_empty_rows_refused_in_run hph b, fun hph => exec_run_rows_refused_in_empty hph b,
    fun hph => ⟨exec_encExtend_refused_of_new hph, exec_encEmit_refused_of_known hph⟩,
    fun i w => exec_sentinel_refused, exec_pad_refused, ?arms, ?emptyLookup, ?insertFault, ?growUnwritten, ?armsUnwritten,
    ?lookupUnwritten, ?insertUnwritten⟩
  case arms =>
    rintro a _ _ rfl rfl
    exact ⟨fun h => applyBranch_refused (branchRegs_grow_refused h), fun h => applyBranch_refused (branchRegs_reset_refused h),
      fun h => applyBranch_refused (branchRegs_full_refused h)⟩
  case emptyLookup => exact fun hw => ⟨_, exec_opLookup_of_written (k := .str []) hw⟩
  case insertFault =>
    rintro a str _ rfl
    exact exec_opInsert_fault
  case growUnwritten =>
    rintro a _ rfl hu hw
    exact applyBranch_of_next (branchRegs_grow_of_unwritten hu hw)
  case armsUnwritten =>
    rintro a _ rfl hu hw hn
    rw [← Bool.and_eq_false_iff] at hu
    exact ⟨fun hallow => applyBranch_of_next (branchRegs_reset_of_unwritten hu hw hn hallow),
      fun hallow => applyBranch_of_next (branchRegs_full_of_unwritten hu hw hn hallow)⟩
  case lookupUnwritten =>
    rintro k _ rfl hu
    exact ⟨_, _, exec_opLookup_of_unwritten hu⟩
  case insertUnwritten =>
    rintro a str _ rfl hu hspace hc hfree hkey hstr
    exact ⟨_, InsertFits.exec_opInsert_of_unwritten ⟨hspace, hc, hfree, hkey, hstr⟩ hu⟩

end Sys2Proof.Machine
end

section

/-!
## Unwritten registers (R45, I6)

Two machines are alike that differ in nothing but what their unwritten registers hold. A sound machine has written every register
that its phases read, so an operation takes two alike machines alike: a register that it does not read goes along, or is
overwritten. And it leaves the registers of fsm and sync or writes them all, so it puts no read of them on record.
-/

namespace Sys2Proof.Machine

variable {p : Params} {s s' t : State} {e e' : Encoder} {d d' : Decoder}

/-! ### Registers without what they hold unwritten -/

section
variable {α : Type} {v : α} {r r' : Reg α}

@[simp] theorem Reg.forget_written (v : α) (r : Reg α) : (r.forget v).written = r.written := by
  cases hw : r.written <;> simp [Reg.forget, hw, Reg.powerOn]

theorem Reg.forget_of_written (hw : r.written = true) : r.forget v = r := if_pos hw

theorem Reg.written_eq_of_alike (h : r'.forget v = r.forget v) : r'.written = r.written := by
  simpa using congrArg Reg.written h

/-- A written register is the same in an alike machine. -/
theorem Reg.eq_of_alike (h : r'.forget v = r.forget v) (hw : r.written = true) : r' = r := by
  have hw' : r'.written = true := (Reg.written_eq_of_alike h).trans hw
  rwa [Reg.forget_of_written hw, Reg.forget_of_written hw'] at h

end

theorem SyncRegs.written_iff {r : SyncRegs} :
    r.written = true ↔ r.fsm.written = true ∧ r.n.written = true ∧ r.table.written = true := by
  simp [SyncRegs.written, and_assoc]

theorem SyncRegs.forget_of_written {r : SyncRegs} (hw : r.written = true) : r.forget = r := by
  obtain ⟨hfsm, hn, htable⟩ := SyncRegs.written_iff.mp hw
  rw [SyncRegs.forget, Reg.forget_of_written hfsm, Reg.forget_of_written hn, Reg.forget_of_written htable]

theorem SyncRegs.eq_of_alike {r r' : SyncRegs} (h : r'.forget = r.forget) (hw : r.written = true) : r' = r := by
  obtain ⟨hfsm, hn, htable⟩ := SyncRegs.written_iff.mp hw
  obtain ⟨fsm, n, table, readUnwritten⟩ := r
  obtain ⟨fsm', n', table', readUnwritten'⟩ := r'
  simp only [SyncRegs.forget, SyncRegs.mk.injEq] at h ⊢
  exact ⟨Reg.eq_of_alike h.1 hfsm, Reg.eq_of_alike h.2.1 hn, Reg.eq_of_alike h.2.2.1 htable, h.2.2.2⟩

/-! ### Alike agents -/

/-- R45: the encoder without what its unwritten registers hold. -/
def Encoder.forget (e : Encoder) : Encoder :=
  { e with sync := e.sync.forget, cur := e.cur.forget [], nbits := e.nbits.forget 0 }

/-- R45: the decoder without what its unwritten registers hold. -/
def Decoder.forget (d : Decoder) : Decoder :=
  { d with sync := d.sync.forget, val := d.val.forget [], pos := d.pos.forget 0 }

theorem State.forget_eq (s : State) : s.forget = { s with enc := s.enc.forget, dec := s.dec.forget } := rfl

theorem Encoder.ne_idle_of_busy (h : e.busy = true) : e.phase ≠ .idle := by
  intro hidle
  simp [Encoder.busy, hidle] at h

/-- An encoder alike to a sound one is sound: the invariant speaks of written registers alone. -/
theorem Encoder.Inv.of_alike (h : e.Inv p) (he : e'.forget = e.forget) : e'.Inv p := by
  have hphase : e'.phase = e.phase := (congrArg Encoder.phase he :)
  have hout : e'.out = e.out := (congrArg Encoder.out he :)
  have hbusy : e'.busy = e.busy := by rw [Encoder.busy, hphase, Encoder.busy]
  have sync (hne : e.phase ≠ .idle) : e'.sync = e.sync := SyncRegs.eq_of_alike (congrArg Encoder.sync he) (h.started hne).1
  have nbits (hne : e.phase ≠ .idle) : e'.nbits = e.nbits := Reg.eq_of_alike (congrArg Encoder.nbits he) (h.started hne).2.1
  have cur (hrun : e.phase = .run) : e'.cur = e.cur := Reg.eq_of_alike (congrArg Encoder.cur he) (h.run hrun).1
  constructor
  case started =>
    intro hne
    rw [hphase] at hne
    rw [sync hne, nbits hne]
    exact h.started hne
  case opened =>
    intro hb
    rw [hbusy] at hb
    rw [hout, nbits (Encoder.ne_idle_of_busy hb)]
    exact h.opened hb
  case empty =>
    intro hempty
    rw [hphase] at hempty
    rw [sync (by simp [hempty])]
    exact h.empty hempty
  case run =>
    intro hrun
    rw [hphase] at hrun
    rw [cur hrun, sync (by simp [hrun])]
    exact h.run hrun
  case done =>
    intro hdone
    rw [hphase] at hdone
    rw [hout, nbits (by simp [hdone])]
    exact h.done hdone

/-- In RUN a sound encoder has written every register. -/
theorem Encoder.Inv.eq_of_alike (h : e.Inv p) (hph : e.phase = .run) (he : e'.forget = e.forget) : e' = e := by
  obtain ⟨hs, hn, -⟩ := h.started (by simp [hph])
  obtain ⟨hc, -⟩ := h.run hph
  have hsync := SyncRegs.eq_of_alike (congrArg Encoder.sync he) hs
  have hcur := Reg.eq_of_alike (congrArg Encoder.cur he) hc
  have hnbits := Reg.eq_of_alike (congrArg Encoder.nbits he) hn
  obtain ⟨phase, sync, cur, nbits, out, held, freeCurs⟩ := e
  obtain ⟨phase', sync', cur', nbits', out', held', freeCurs'⟩ := e'
  simp only [Encoder.forget, Encoder.mk.injEq] at he hsync hcur hnbits ⊢
  exact ⟨he.1, hsync, hcur, hnbits, he.2.2.2.2⟩

/-- A decoder alike to a sound one is sound. -/
theorem Decoder.Inv.of_alike (h : d.Inv p) (hd : d'.forget = d.forget) : d'.Inv p := by
  have hphase : d'.phase = d.phase := (congrArg Decoder.phase hd :)
  have herr : d'.err = d.err := (congrArg Decoder.err hd :)
  have hout : d'.out = d.out := (congrArg Decoder.out hd :)
  have hmid : d'.midStep = d.midStep := (congrArg Decoder.midStep hd :)
  have hpos : d'.pos.written = d.pos.written := Reg.written_eq_of_alike (congrArg Decoder.pos hd)
  have hbusy : d'.busy = d.busy := by rw [Decoder.busy, hphase, Decoder.busy]
  have sync (hph : d.phase = .first ∨ d.phase = .run) : d'.sync = d.sync :=
    SyncRegs.eq_of_alike (congrArg Decoder.sync hd) (h.started hph).1
  have val (hrun : d.phase = .run) : d'.val = d.val := Reg.eq_of_alike (congrArg Decoder.val hd) (h.run hrun).1
  constructor
  case busy =>
    rw [hbusy, herr, hout, hpos]
    exact h.busy
  case started =>
    intro hph
    rw [hphase] at hph
    rw [sync hph]
    exact h.started hph
  case first =>
    intro hfirst
    rw [hphase] at hfirst
    rw [sync (.inl hfirst)]
    exact h.first hfirst
  case run =>
    intro hrun
    rw [hphase] at hrun
    rw [val hrun]
    exact h.run hrun
  case step =>
    intro br hbr
    rw [hmid] at hbr
    obtain ⟨hrun, hfull⟩ := h.step br hbr
    rw [hphase, sync (.inr hrun)]
    exact ⟨hrun, hfull⟩
  case idle =>
    rw [hphase, herr]
    exact h.idle
  case done =>
    rw [hphase, herr, hout]
    exact h.done
  case error =>
    rw [hphase, herr, hout]
    exact h.error

/-- In RUN a sound decoder has written every register. -/
theorem Decoder.Inv.eq_of_alike (h : d.Inv p) (hph : d.phase = .run) (hd : d'.forget = d.forget) : d' = d := by
  obtain ⟨-, -, hp⟩ := h.busy (d.busy_iff.mpr (.inr (.inr hph)))
  obtain ⟨hs, -⟩ := h.started (.inr hph)
  obtain ⟨hv, -⟩ := h.run hph
  have hsync := SyncRegs.eq_of_alike (congrArg Decoder.sync hd) hs
  have hval := Reg.eq_of_alike (congrArg Decoder.val hd) hv
  have hpos := Reg.eq_of_alike (congrArg Decoder.pos hd) hp
  obtain ⟨phase, err, sync, val, pos, midStep, inp, nextInp, out, held, freeVals⟩ := d
  obtain ⟨phase', err', sync', val', pos', midStep', inp', nextInp', out', held', freeVals'⟩ := d'
  simp only [Decoder.forget, Decoder.mk.injEq] at hd hsync hval hpos ⊢
  exact ⟨hd.1, hd.2.1, hsync, hval, hpos, hd.2.2.2.2.2⟩

/-! ### Alike machines -/

/-- Two sound machines that differ in nothing but what their unwritten registers hold. -/
structure State.Alike (s s' : State) : Prop where
  inv : s.Inv
  inv' : s'.Inv
  same : s'.forget = s.forget

section
variable (h : s.Alike s')
include h

theorem State.Alike.params : s'.params = s.params := (congrArg State.params h.same :)
theorem State.Alike.agenda : s'.agenda = s.agenda := (congrArg State.agenda h.same :)
theorem State.Alike.freeUses : s'.freeUses = s.freeUses := (congrArg State.freeUses h.same :)
theorem State.Alike.enc : s'.enc.forget = s.enc.forget := (congrArg State.enc h.same :)
theorem State.Alike.dec : s'.dec.forget = s.dec.forget := (congrArg State.dec h.same :)
theorem State.Alike.encPhase : s'.enc.phase = s.enc.phase := (congrArg Encoder.phase h.enc :)
theorem State.Alike.decPhase : s'.dec.phase = s.dec.phase := (congrArg Decoder.phase h.dec :)
theorem State.Alike.inp : s'.dec.inp = s.dec.inp := (congrArg Decoder.inp h.dec :)

theorem State.Alike.decBusy : s'.dec.busy = s.dec.busy := by
  rw [Decoder.busy, h.decPhase, Decoder.busy]

theorem State.Alike.decSync (hph : s.dec.phase = .first ∨ s.dec.phase = .run) : s'.dec.sync = s.dec.sync :=
  SyncRegs.eq_of_alike (congrArg Decoder.sync h.dec) (h.inv.dec.started hph).1

/-- An update that looks at no unwritten register keeps two machines alike. -/
theorem State.Alike.update {F : State → State} (hF : ∀ u : State, (F u).forget = F u.forget) : (F s').forget = (F s).forget := by
  rw [hF, hF, h.same]

theorem State.Alike.withAgenda {l : List Event} (hl : ∀ ev ∈ l, ev ∈ s.agenda) :
    ({ s with agenda := l } : State).Alike { s' with agenda := l } where
  inv := h.inv.withAgenda hl
  inv' := h.inv'.withAgenda (by rwa [h.agenda])
  same := h.update (F := fun u => { u with agenda := l }) fun _ => rfl

theorem State.Alike.tookEnc (he : e'.forget = e.forget) : (s'.tookEnc e').forget = (s.tookEnc e).forget :=
  calc (s'.tookEnc e').forget
    _ = { s'.forget with enc := e'.forget, response := .accepted } := rfl
    _ = (s.tookEnc e).forget := by rw [h.same, he]; rfl

theorem State.Alike.withDec (hd : d'.forget = d.forget) :
    ({ s' with dec := d' } : State).forget = ({ s with dec := d } : State).forget :=
  calc ({ s' with dec := d' } : State).forget
    _ = { s'.forget with dec := d'.forget } := rfl
    _ = ({ s with dec := d } : State).forget := by rw [h.same, hd]; rfl

end

/-- R45: the registers of fsm and sync are left, or written all of them. -/
def SyncRegs.LeftOrPut (r r' : SyncRegs) : Prop := r' = r ∨ ∃ y, r' = .put y

theorem SyncRegs.LeftOrPut.trans {r r' r'' : SyncRegs} (h : r.LeftOrPut r') (h' : r'.LeftOrPut r'') : r.LeftOrPut r'' := by
  obtain rfl | hput := h'
  · exact h
  · exact .inr hput

theorem SyncRegs.LeftOrPut.readUnwritten {r r' : SyncRegs} (h : r.LeftOrPut r') (hr : r.readUnwritten = false) :
    r'.readUnwritten = false := by
  obtain rfl | ⟨y, rfl⟩ := h
  · exact hr
  · rfl

/-- An operation goes on from the machine `s` with `x`, and from an alike one with `x'`, which are alike again; and it has put no
read of an unwritten register on record. -/
def State.TakenAlike (s : State) (x x' : Out State) : Prop :=
  ∃ t t', x = .next t ∧ x' = .next t' ∧ t'.forget = t.forget ∧ ∀ a, (s.syncOf a).LeftOrPut (t.syncOf a)

/-! ### Host transactions -/

/-- R171: a transaction that is refused for both machines. -/
theorem State.Alike.refused (h : s.Alike s') {x x' : Out State} (hx : x = .next s.turnedAway) (hx' : x' = .next s'.turnedAway) :
    s.TakenAlike x x' :=
  ⟨_, _, hx, hx', h.update (F := State.turnedAway) fun _ => rfl, fun _ => .inl rfl⟩

/-- A transaction that the encoders of both machines take. -/
theorem State.Alike.taken (h : s.Alike s') {x x' : Out State} (hx : x = .next (s.tookEnc e)) (hx' : x' = .next (s'.tookEnc e'))
    (he : e'.forget = e.forget) (hsync : s.enc.sync.LeftOrPut e.sync) : s.TakenAlike x x' :=
  ⟨_, _, hx, hx', h.tookEnc he, fun a => match a with
    | .encoder => hsync
    | .decoder => .inl rfl⟩

/-- R120: ENC_START overwrites every register. -/
theorem Encoder.started_forget (p : Params) (r f : Bool) (e : Encoder) : e.forget.started p r f = e.started p r f := rfl

/-- R126: the end of an empty input reads fsm, sync and `nbits`, and leaves `cur`. -/
theorem Encoder.ended_forget (hs : e.sync.written = true) (hn : e.nbits.written = true) (o : BitOrder) :
    (e.ended o).forget = e.forget.ended o := by
  have hended : (e.ended o).sync.written = true := hs
  rw [Encoder.forget, Encoder.forget, SyncRegs.forget_of_written hended, SyncRegs.forget_of_written hs,
    Reg.forget_of_written hn]
  rfl

theorem State.Alike.encStart (h : s.Alike s') (r f : Bool) :
    s.TakenAlike (runRequest .encStart [r, f] s) (runRequest .encStart [r, f] s') := by
  have opens (hph : s.enc.phase = .idle ∨ s.enc.phase = .done) :
      s.TakenAlike (runRequest .encStart [r, f] s) (runRequest .encStart [r, f] s') := by
    refine h.taken (runRequest_encStart hph r f) (runRequest_encStart (by rwa [h.encPhase]) r f) ?_ (.inr ⟨_, rfl⟩)
    rw [h.params, ← Encoder.started_forget, h.enc, Encoder.started_forget]
  have closed (hph : s.enc.phase = .empty ∨ s.enc.phase = .run) :
      s.TakenAlike (runRequest .encStart [r, f] s) (runRequest .encStart [r, f] s') :=
    h.refused (runRequest_encStart_refused hph r f) (runRequest_encStart_refused (by rwa [h.encPhase]) r f)
  cases hph : s.enc.phase with
  | idle => exact opens (.inl hph)
  | done => exact opens (.inr hph)
  | empty => exact closed (.inl hph)
  | run => exact closed (.inr hph)

theorem State.Alike.encByte (h : s.Alike s') {bits : Bits} (hw : bits.length = 8) :
    s.TakenAlike (runRequest .encByte bits s) (runRequest .encByte bits s') := by
  have refused (hph : s.enc.phase = .idle ∨ s.enc.phase = .done) :
      s.TakenAlike (runRequest .encByte bits s) (runRequest .encByte bits s') :=
    h.refused (runRequest_byte_refused hph hw) (runRequest_byte_refused (by rwa [h.encPhase]) hw)
  cases hph : s.enc.phase with
  | idle => exact refused (.inl hph)
  | done => exact refused (.inr hph)
  | empty =>
    refine h.taken (runRequest_first hph hw rfl) (runRequest_first (h.encPhase.trans hph) hw rfl) ?_ (.inl rfl)
    have commutes (u : Encoder) : ({ u with cur := .write [byteOfBits .msbFirst bits], phase := .run } : Encoder).forget =
      { u.forget with cur := .write [byteOfBits .msbFirst bits], phase := .run } := rfl
    rw [commutes, h.enc, commutes]
  | run =>
    have henc : s'.enc = s.enc := h.inv.enc.eq_of_alike hph h.enc
    have hph' : s'.enc.phase = .run := h.encPhase.trans hph
    cases hk : lookupStr s.enc.sync.values.table (s.enc.cur.value ++ [byteOfBits .msbFirst bits]) with
    | some k =>
      exact h.taken (runRequest_extend hph hw rfl hk) (runRequest_extend hph' hw rfl (by rw [henc, hk])) (by rw [henc]) (.inl rfl)
    | none =>
      obtain ⟨c, hc⟩ := h.inv.enc.exists_code hph
      exact h.taken (runRequest_emit h.inv hph hw rfl hc hk)
        (runRequest_emit h.inv' hph' hw rfl (c := c) (by rw [henc, hc]) (by rw [henc, hk])) (by rw [henc, h.params])
        (.inr ⟨_, rfl⟩)

theorem State.Alike.encEnd (h : s.Alike s') : s.TakenAlike (runRequest .encEnd [] s) (runRequest .encEnd [] s') := by
  have refused (hph : s.enc.phase = .idle ∨ s.enc.phase = .done) :
      s.TakenAlike (runRequest .encEnd [] s) (runRequest .encEnd [] s') :=
    h.refused (runRequest_end_refused hph) (runRequest_end_refused (by rwa [h.encPhase]))
  cases hph : s.enc.phase with
  | idle => exact refused (.inl hph)
  | done => exact refused (.inr hph)
  | empty =>
    have hph' : s'.enc.phase = .empty := h.encPhase.trans hph
    obtain ⟨hs, hn, -⟩ := h.inv.enc.started (by simp [hph])
    obtain ⟨hs', hn', -⟩ := h.inv'.enc.started (by simp [hph'])
    refine h.taken (runRequest_endEmpty h.inv hph) (runRequest_endEmpty h.inv' hph') ?_ (.inl rfl)
    rw [Encoder.ended_forget hs hn, Encoder.ended_forget hs' hn', h.enc, h.params]
  | run =>
    have henc : s'.enc = s.enc := h.inv.enc.eq_of_alike hph h.enc
    obtain ⟨c, hc⟩ := h.inv.enc.exists_code hph
    exact h.taken (runRequest_endRun h.inv hph hc)
      (runRequest_endRun h.inv' (h.encPhase.trans hph) (c := c) (by rw [henc, hc])) (by rw [henc, h.params]) (.inl rfl)

/-- R133, R174: DEC_START leaves fsm, sync and `val` as they are. -/
theorem State.Alike.decStart (h : s.Alike s') : s.TakenAlike (runRequest .decStart [] s) (runRequest .decStart [] s') := by
  cases hb : s.dec.busy with
  | true => exact h.refused (runRequest_decStart_refused hb) (runRequest_decStart_refused (h.decBusy.trans hb))
  | false =>
    exact ⟨_, _, runRequest_decStart hb, runRequest_decStart (h.decBusy.trans hb),
      h.update (F := fun u => u.tookDec u.dec.start) fun _ => rfl, fun _ => .inl rfl⟩

theorem State.Alike.request (h : s.Alike s') {q : Port} {bits : Bits} (hq : q.isHost = true) (hw : bits.length = q.width) :
    s.TakenAlike (runRequest q bits s) (runRequest q bits s') := by
  cases q with
  | encStart =>
    match bits, hw with
    | [r, f], _ => exact h.encStart r f
  | encByte => exact h.encByte hw
  | encEnd =>
    match bits, hw with
    | [], _ => exact h.encEnd
  | decStart =>
    match bits, hw with
    | [], _ => exact h.decStart
  | sentinel w => cases hq
  | padding k => cases hq
  | br a => cases hq
  | op a str c => cases hq

/-! ### Steps of the decoder -/

/-- R60: a read adds to the position, which a busy decoder has written. -/
theorem State.Alike.afterRead (h : s.Alike s') (hb : s.dec.busy = true) (n : Nat) : (s.afterRead n).Alike (s'.afterRead n) where
  inv := h.inv.afterRead n
  inv' := h.inv'.afterRead n
  same := by
    have commutes {u : State} (hpos : u.dec.pos.written = true) : (u.afterRead n).forget = u.forget.afterRead n := by
      simp only [State.forget_eq, State.afterRead, Decoder.forget, Reg.forget_of_written hpos]
      rfl
    obtain ⟨-, -, hpos⟩ := h.inv.dec.busy hb
    obtain ⟨-, -, hpos'⟩ := h.inv'.dec.busy (h.decBusy.trans hb)
    rw [commutes hpos, commutes hpos', h.same]

/-- An operation of the decoders of both machines. -/
theorem State.Alike.ranDec (h : s.Alike s') {x x' : Out State} (hx : x = .next { s with dec := d })
    (hx' : x' = .next { s' with dec := d' }) (hd : d'.forget = d.forget) (hsync : s.dec.sync.LeftOrPut d.sync) :
    s.TakenAlike x x' :=
  ⟨_, _, hx, hx', h.withDec hd, fun a => match a with
    | .encoder => .inl rfl
    | .decoder => hsync⟩

theorem Decoder.headed_forget (p : Params) (r f : Bool) (d : Decoder) : (d.headed p r f).forget = d.forget.headed p r f := rfl
theorem Decoder.opened_forget (str : Str) (d : Decoder) : (d.opened str).forget = d.forget.opened str := rfl
theorem Decoder.finished_forget (d : Decoder) : d.finished.forget = d.forget.finished := rfl
theorem Decoder.trap_forget (err : DecErr) (d : Decoder) : (d.trap err).forget = d.forget.trap err := rfl

/-- R134, R176: the header writes every register that DEC_START did not. -/
theorem State.Alike.hdrRead (h : s.Alike s') (hph : s.dec.phase = .hdr) (hl : headerBits ≤ s.dec.inp.bits.length) :
    s.TakenAlike (runDecoder s) (runDecoder s') := by
  have hread := h.afterRead (s.dec.busy_iff.mpr (.inl hph)) headerBits
  refine hread.ranDec (runDecoder_hdr hph hl) (runDecoder_hdr (h.decPhase.trans hph) (by rwa [h.inp])) ?_ (.inr ⟨_, rfl⟩)
  rw [h.inp, h.params, Decoder.headed_forget, hread.dec, Decoder.headed_forget]

/-- R136 to R138: the first codeword writes `val` or leaves it. -/
theorem State.Alike.classFirst (h : s.Alike s') (hph : s.dec.phase = .first) (v : Nat) :
    s.TakenAlike (exec (classFirst v) s) (exec (classFirst v) s') := by
  have hph' : s'.dec.phase = .first := h.decPhase.trans hph
  obtain ⟨-, hopen, -⟩ := h.inv.dec.busy (s.dec.busy_iff.mpr (.inr (.inl hph)))
  obtain ⟨-, hopen', -⟩ := h.inv'.dec.busy (s'.dec.busy_iff.mpr (.inr (.inl hph')))
  rcases classFirst_cases v with ⟨hv, e⟩ | ⟨-, e⟩ | ⟨hv, e⟩ <;> rw [e]
  · exact h.ranDec (exec_firstLit_of_first hph hv) (exec_firstLit_of_first hph' hv)
      (by rw [Decoder.opened_forget, h.dec, Decoder.opened_forget]) (.inl rfl)
  · exact h.ranDec (exec_firstSent_of_first hph hopen) (exec_firstSent_of_first hph' hopen')
      (by rw [Decoder.finished_forget, h.dec, Decoder.finished_forget]) (.inl rfl)
  · exact h.ranDec (exec_firstBad_of_first hph hv) (exec_firstBad_of_first hph' hv)
      (by rw [Decoder.trap_forget, h.dec, Decoder.trap_forget]) (.inl rfl)

/-- R135: in FIRST the fsm is written, so both machines read at one width. -/
theorem State.Alike.firstRead (h : s.Alike s') (hph : s.dec.phase = .first)
    (hl : s.dec.sync.values.fsm.w ≤ s.dec.inp.bits.length) : s.TakenAlike (runDecoder s) (runDecoder s') := by
  have hsync := h.decSync (.inl hph)
  rw [runDecoder_first hph hl, runDecoder_first (h.decPhase.trans hph) (by rwa [hsync, h.inp]), hsync, h.inp, h.params]
  exact (h.afterRead (s.dec.busy_iff.mpr (.inr (.inl hph))) _).classFirst hph _

/-- R145: DEC_TAIL writes fsm and sync with the entry, or leaves them in the trap. -/
theorem Decoder.tailOf_leftOrPut (cap : Option Nat) (br : Branch) (str : Str) (d : Decoder) :
    d.sync.LeftOrPut (d.tailOf cap br str).sync := by
  unfold Decoder.tailOf
  split
  · exact .inl rfl
  · exact .inr ⟨_, rfl⟩

/-- R139: what comes before a read runs PRE, or nothing. -/
theorem Decoder.atRead_leftOrPut (d : Decoder) : d.sync.LeftOrPut d.atRead.sync := by
  cases hstarts : d.startsStep
  · rw [Decoder.atRead_of_not_startsStep hstarts]
    exact .inl rfl
  · rw [Decoder.atRead_of_startsStep hstarts]
    exact .inr ⟨_, rfl⟩

/-- R139 to R145: a `RUN` step with enough bits moves the decoder alone. -/
theorem runDecoder_run_read (h : s.Inv) (hph : s.dec.phase = .run) (hl : s.dec.begun.sync.values.fsm.w ≤ s.dec.inp.bits.length) :
    ∃ d, runDecoder s = .next { s with dec := d } ∧ s.dec.sync.LeftOrPut d.sync := by
  obtain ⟨br, hm⟩ := s.dec.begun_midStep
  obtain ⟨d, hd, hcases⟩ := exec_classRun_cases ((h.begun hph).afterRead s.dec.begun.sync.values.fsm.w) hm
    (bitsValue_take_lt s.params.bitOrder hl)
  refine ⟨d, (runDecoder_run h hph hl).trans hd, ?_⟩
  have hbegun : s.dec.sync.LeftOrPut s.dec.begun.sync := Decoder.atRead_of_run hph ▸ s.dec.atRead_leftOrPut
  refine hbegun.trans ?_
  rcases hcases with ⟨str, rfl⟩ | rfl | rfl
  · exact Decoder.tailOf_leftOrPut _ br str _
  · exact .inl rfl
  · exact .inl rfl

/-- R139: in RUN the decoders of both machines are one. -/
theorem State.Alike.runRead (h : s.Alike s') (hph : s.dec.phase = .run)
    (hl : s.dec.begun.sync.values.fsm.w ≤ s.dec.inp.bits.length) : s.TakenAlike (runDecoder s) (runDecoder s') := by
  have hdec : s'.dec = s.dec := h.inv.dec.eq_of_alike hph h.dec
  obtain ⟨d, hd, hsync⟩ := runDecoder_run_read h.inv hph hl
  obtain ⟨d', hd', -⟩ := runDecoder_run_read h.inv' (h.decPhase.trans hph) (by rwa [hdec])
  obtain ⟨r, hcongr⟩ := runDecoder_congr h.params hdec h.freeUses hd
  have hone : d' = d := congrArg State.dec (Host.Outcome.next.inj (hd'.symm.trans hcongr))
  exact h.ranDec hd hd' (by rw [hone]) hsync

/-- The beginning of a step reads nothing unwritten. -/
theorem State.Alike.atRead (h : s.Alike s') : s'.atRead.forget = s.atRead.forget := by
  by_cases hph : s.dec.phase = .run
  · exact h.withDec (by rw [h.inv.dec.eq_of_alike hph h.dec])
  · have hph' : s'.dec.phase ≠ .run := by rwa [h.decPhase]
    rw [State.atRead, State.atRead, Decoder.atRead, Decoder.atRead, if_neg hph, if_neg hph', h.same]

theorem State.Alike.readWidth (h : s.Alike s') (hb : s.dec.busy = true) : s'.dec.readWidth = s.dec.readWidth := by
  rcases s.dec.busy_iff.mp hb with hph | hph | hph
  · rw [Decoder.readWidth_of_hdr hph, Decoder.readWidth_of_hdr (h.decPhase.trans hph)]
  · rw [Decoder.readWidth_of_first hph, Decoder.readWidth_of_first (h.decPhase.trans hph), h.decSync (.inl hph)]
  · rw [h.inv.dec.eq_of_alike hph h.dec]

theorem State.Alike.decoderStep (h : s.Alike s') : s.TakenAlike (runDecoder s) (runDecoder s') := by
  cases hb : s.dec.busy with
  | false =>
    have hrest {u : State} (hu : u.dec.busy = false) : runDecoder u = .next u := by
      refine runDecoder_of_no_step ?_
      cases hph : u.dec.phase <;> simp [Decoder.busy, hph] at hu ⊢
    exact ⟨_, _, hrest hb, hrest (h.decBusy.trans hb), h.same, fun _ => .inl rfl⟩
  | true =>
    have hb' : s'.dec.busy = true := h.decBusy.trans hb
    have hleft (a : Agent) : (s.syncOf a).LeftOrPut (s.atRead.syncOf a) :=
      match a with
      | .encoder => .inl rfl
      | .decoder => s.dec.atRead_leftOrPut
    rcases s.dec.inp.read_cases s.params.underrun s.dec.readWidth with ⟨hl, -⟩ | ⟨hl, hend, -⟩ | ⟨hl, hend, hu, -⟩
    · rcases s.dec.busy_iff.mp hb with hph | hph | hph
      · exact h.hdrRead hph (by rwa [Decoder.readWidth_of_hdr hph] at hl)
      · exact h.firstRead hph (by rwa [Decoder.readWidth_of_first hph] at hl)
      · exact h.runRead hph (by rwa [Decoder.readWidth_of_run hph] at hl)
    · have hshort : s'.readsShort s'.dec.readWidth := by
        rw [State.readsShort, h.readWidth hb, h.inp, h.params]
        exact ⟨hl, hend⟩
      have hcause : s'.dec.truncation = s.dec.truncation := by rw [Decoder.truncation, h.decPhase, Decoder.truncation]
      refine ⟨_, _, runDecoder_of_readsShort h.inv hb ⟨hl, hend⟩, runDecoder_of_readsShort h.inv' hb' hshort, ?_, hleft⟩
      have commutes (u : State) : (u.afterShort s.dec.truncation).forget = u.forget.afterShort s.dec.truncation := rfl
      rw [hcause, commutes, h.atRead, commutes]
    · have hblock : s'.readsBlock s'.dec.readWidth := by
        rw [State.readsBlock, h.readWidth hb, h.inp, h.params]
        exact ⟨hl, hend, hu⟩
      exact ⟨_, _, runDecoder_of_readsBlock h.inv hb ⟨hl, hend, hu⟩, runDecoder_of_readsBlock h.inv' hb' hblock, h.atRead, hleft⟩

/-! ### A step -/

/-- R164: a delivery looks at the input alone. -/
theorem takeDelivery_forget (sl : Slot) (bytes : Str) (u : State) :
    (takeDelivery sl bytes u).forget = takeDelivery sl bytes u.forget := by
  have hslot : u.forget.dec.slot sl = u.dec.slot sl := by cases sl <;> rfl
  by_cases hend : (u.dec.slot sl).ended = true
  · rw [takeDelivery, takeDelivery, hslot, if_pos hend, if_pos hend]
  · rw [takeDelivery, takeDelivery, hslot, if_neg hend, if_neg hend]
    cases sl <;> rfl

theorem State.Alike.input (h : s.Alike s') {ev : Event} (hev : ev.external = true) :
    s.TakenAlike (takeEvent ev s) (takeEvent ev s') := by
  have updates {F : State → State} (hF : ∀ u : State, (F u).forget = F u.forget) (hsync : ∀ a, (F s).syncOf a = s.syncOf a) :
      s.TakenAlike (.next (F s)) (.next (F s')) := ⟨_, _, rfl, rfl, h.update hF, fun a => .inl (hsync a)⟩
  cases ev with
  | request q bits =>
    simp only [Event.external, Bool.and_eq_true, beq_iff_eq] at hev
    exact h.request hev.1 hev.2
  | decStep => exact h.decoderStep
  | deliver sl bytes =>
    refine updates (F := takeDelivery sl bytes) (takeDelivery_forget sl bytes) fun a => ?_
    unfold takeDelivery
    split
    · rfl
    · cases a <;> cases sl <;> rfl
  | finish sl =>
    refine updates (F := takeFinish sl) (fun u => ?_) fun a => ?_
    · cases sl <;> rfl
    · cases a <;> cases sl <;> rfl
  | hold b on =>
    refine updates (F := takeHold b on) (fun u => ?_) fun a => ?_
    · cases b <;> rfl
    · cases a <;> cases b <;> rfl

/-- R72: whether an input can be taken is not a matter of registers. -/
theorem nextEvent_forget (s : State) (l : List Event) : nextEvent s.forget l = nextEvent s l := by
  have hheld (ev : Event) : ev.isHeld s.forget = ev.isHeld s := by cases ev <;> rfl
  induction l with
  | nil => rfl
  | cons ev l ih => rw [nextEvent, nextEvent, hheld, ih]

theorem State.Alike.nextEvent_eq (h : s.Alike s') : nextEvent s' s'.agenda = nextEvent s s.agenda := by
  rw [← nextEvent_forget s', h.same, nextEvent_forget, h.agenda]

theorem step_of_nextEvent {ev : Event} {rest : List Event} (h : nextEvent s s.agenda = some (ev, rest)) :
    step s = takeEvent ev { s with agenda := rest } := by
  rw [step, cycle, h]

theorem step_of_no_event (h : nextEvent s s.agenda = none) :
    step s = if s.dec.busy && !s.dec.held then runDecoder s else .next s := by
  rw [step, cycle, h]

/-- A step takes two alike machines alike. -/
theorem State.Alike.step (h : s.Alike s') : s.TakenAlike (Machine.step s) (Machine.step s') := by
  cases hnext : nextEvent s s.agenda with
  | some q =>
    obtain ⟨ev, rest⟩ := q
    obtain ⟨hmem, -, hrest⟩ := nextEvent_some hnext
    rw [step_of_nextEvent hnext, step_of_nextEvent (h.nextEvent_eq.trans hnext)]
    exact (h.withAgenda hrest).input (h.inv.agenda ev hmem)
  | none =>
    have hheld : s'.dec.held = s.dec.held := (congrArg Decoder.held h.dec :)
    rw [step_of_no_event hnext, step_of_no_event (h.nextEvent_eq.trans hnext), h.decBusy, hheld]
    split
    · exact h.decoderStep
    · exact ⟨_, _, rfl, rfl, h.same, fun _ => .inl rfl⟩

/-- A machine alike to a sound one is sound. -/
theorem State.Inv.alike (h : s.Inv) (hs : s'.forget = s.forget) : s.Alike s' := by
  have hparams : s'.params = s.params := (congrArg State.params hs :)
  have hagenda : s'.agenda = s.agenda := (congrArg State.agenda hs :)
  refine ⟨h, ⟨hparams ▸ h.params, hagenda ▸ h.agenda, ?enc, ?dec⟩, hs⟩
  case enc =>
    rw [hparams]
    exact h.enc.of_alike (congrArg State.enc hs)
  case dec =>
    rw [hparams]
    exact h.dec.of_alike (congrArg State.dec hs)

/-- Settles O5: a step takes two alike machines alike, and a sound machine and itself are alike. -/
theorem noStepReadsUnwritten : Obligations.NoStepReadsUnwritten := by
  unfold Obligations.NoStepReadsUnwritten
  refine ⟨fun s s' t h hs ht => ?alike, fun s t a h ht hread => ?record⟩
  case alike =>
    obtain ⟨u, u', hu, hu', hsame, -⟩ := (h.alike hs).step
    cases ht.symm.trans hu
    exact ⟨u', hu', hsame⟩
  case record =>
    obtain ⟨u, -, hu, -, -, hsync⟩ := (h.alike rfl).step
    cases ht.symm.trans hu
    exact (hsync a).readUnwritten hread

end Sys2Proof.Machine
end
